-- ==== Sys2Proof/Word.lean ====
section
/-! DEFINITION. The word types of the block: what the spec treats as bits. -/

namespace Sys2Proof

/-- A command word, a CSR value, a response's data word, a 32-bit unit register (R4, R23, R91). -/
abbrev Word := BitVec 32

/-- A byte of region memory, an error code (R61, R23). -/
abbrev Byte := BitVec 8

/-- A Sample: a signed 16-bit integer, as its two's-complement encoding (R16). -/
abbrev Sample := BitVec 16

end Sys2Proof
end

