-- ==== Sys2Proof/Config.lean ====
section
/-! DEFINITION. The configuration record of R9 (00_scope.md), the example configuration of
95_test_vectors.md, and the free value of the power-on bytes. -/

namespace Sys2Proof

/-- IIR_CTRL.MODE: 0 low-pass, 1 high-pass (R23, R40). -/
inductive IirMode where
  | lowPass
  | highPass
  deriving DecidableEq, Repr

/-- The configuration record `Cfg` of R9. Its fields are fixed for a run (R24). The constraints of R9
are `Sys2Proof.Machine.admits`. ADDR_BITS is fixed at 32 and has no field; FIR_L is the length of
`firTaps`. -/
structure Cfg where
  /-- FS, sample rate in Hz. -/
  fs : Nat
  /-- N, samples per Sample Block. -/
  n : Nat
  /-- NBLK, number of block buffers. -/
  nblk : Nat
  /-- ADC_BITS, native resolution of the ADC. -/
  adcBits : Nat
  /-- OUT_CH, 16-bit channel slots per output frame. -/
  outCh : Nat
  /-- IN_BASE, byte address of the input DMA region. -/
  inBase : Nat
  /-- OUT_BASE, byte address of the output DMA region. -/
  outBase : Nat
  /-- CACHE_PRESENT. -/
  cachePresent : Bool
  /-- CACHE_LINE, bytes per cache line. -/
  cacheLine : Nat
  /-- COEF_FN as its departures from COEF_REF: pairs (cutoff, value) (R150).
  DESIGN CHOICE (log 10), safe: every function that R150 allows has such a table. -/
  coefDev : List (Nat × Int)
  /-- IIR_HP_DELAY: `true` is 1, one sample of delay. -/
  iirHpDelay : Bool
  /-- IIR_CUTOFF_RESET. -/
  iirCutoffReset : Word
  /-- IIR_MODE_RESET. -/
  iirModeReset : IirMode
  /-- CIC_K, the CIC order `k`. -/
  cicK : Nat
  /-- CIC_R, log2 of the rate change. -/
  cicR : Nat
  /-- CLIP_T1. -/
  clipT1 : Nat
  /-- CLIP_T2. -/
  clipT2 : Nat
  /-- FIR_TAPS: the signed 32-bit taps, tap 0 first. -/
  firTaps : List Word
  /-- FIR_GAIN, the rescale multiplier `G`. -/
  firGain : Nat
  deriving DecidableEq, Repr

/-- FIR_L, the kernel length (R9, R196). -/
def Cfg.firL (c : Cfg) : Nat := c.firTaps.length

/-- The example configuration `E` of 95_test_vectors.md. DESIGN CHOICE (log 1): State.reset uses it;
no value of it is the hardware's. -/
def Cfg.exampleE : Cfg where
  fs := 48000
  n := 4
  nblk := 4
  adcBits := 12
  outCh := 1
  inBase := 0x20000000
  outBase := 0x20000100
  cachePresent := true
  cacheLine := 8
  coefDev := []
  iirHpDelay := true
  iirCutoffReset := 1000#32
  iirModeReset := .lowPass
  cicK := 3
  cicR := 2
  clipT1 := 10922
  clipT2 := 21845
  firTaps := [0x40000000#32, 0xE0000000#32, 0x10000000#32, 0x08000000#32]
  firGain := 1

/-- What a region byte nothing has written holds after power-on: "any value: each byte a draw"
(R272, 93_implementation_defined.md I3). A free value (log 7), safe: no proof can see it. -/
opaque Config.powerOnByte : Nat → Byte

end Sys2Proof
end

