-- ==== Sys2Proof/Machine/Coef.lean ====
section
/-! DEFINITION. The IIR coefficient unit: COEF_REF of R149 and COEF_FN of R150 (41_iir.md), in exact
rational arithmetic. -/

namespace Sys2Proof.Machine

open Sys2Proof

/-- The number pi to 40 decimals, rounded down. PRESUMED (log 9): from outside the spec. -/
def pi40 : Rat := 31415926535897932384626433832795028841971 / 10000000000000000000000000000000000000000

/-- `t^m / m!`. -/
def expTerm (t : Rat) : Nat → Rat
  | 0 => 1
  | m + 1 => expTerm t m * t / ((m + 1 : Nat) : Rat)

/-- The sum of the terms `t^j / j!` for `j < m`. -/
def expSum (t : Rat) : Nat → Rat
  | 0 => 0
  | m + 1 => expSum t m + expTerm t m

/-- The eighth power. -/
def pow8 (v : Rat) : Rat := let v2 := v * v; let v4 := v2 * v2; v4 * v4

/-- `exp(-2*pi*fc/FS) * 2^31` (R145, R149), as the eighth power of the exponential series of an eighth of
the argument to 30 terms. DEDUCED (log 9): for `1 <= fc <= FS div 2` it lies within 1e-20 of the real value. -/
def coefIdeal (fs fc : Nat) : Rat :=
  pow8 (expSum (-(pi40 * ((fc : Nat) : Rat)) / ((4 * fs : Nat) : Rat)) 30) * 2147483648

/-- The clamp of R149 to `[1, 2^31 - 1]`. -/
def coefClamp (v : Int) : Int := min 2147483647 (max 1 v)

/-- `COEF_REF(FS, fc)`: round to nearest and clamp (R149). -/
def coefRef (fs fc : Nat) : Int := coefClamp (coefIdeal fs fc + 1 / 2).floor

/-- The value a table of pairs gives to a cutoff: its first pair's. -/
def coefTableValue : List (Nat × Int) → Nat → Option Int
  | [], _ => none
  | (fc', v) :: rest, fc => if fc' = fc then some v else coefTableValue rest fc

/-- `COEF_FN(FS, fc)` of the configuration: COEF_REF but for the departures it lists (R150). -/
def coefFn (c : Cfg) (fc : Nat) : Int :=
  match coefTableValue c.coefDev fc with
  | some v => v
  | none => coefRef c.fs fc

/-- A listed departure meets R150 (b) and (c), and its cutoff is legal (R43). -/
def coefDevOk (fs : Nat) (p : Nat × Int) : Bool :=
  1 ≤ p.1 && p.1 ≤ fs / 2 && 1 ≤ p.2 && p.2 ≤ 2147483647
    && decide ((p.2 : Rat) - coefIdeal fs p.1 ≤ 1) && decide (coefIdeal fs p.1 - (p.2 : Rat) ≤ 1)

end Sys2Proof.Machine
end

