-- ==== Sys2Proof/Machine/Admission.lean ====
section
/-! DEFINITION. The constraints of R9 (00_scope.md) on a configuration: R66, R173 and R197 among them. -/

namespace Sys2Proof.Machine

open Sys2Proof

/-- Number of bytes of one half of the input DMA region (R64). -/
def inHalfBytes (c : Cfg) : Nat := 2 * c.n

/-- Number of bytes of one half of the output DMA region (R65). -/
def outHalfBytes (c : Cfg) : Nat := 2 * c.n * c.outCh

/-- A power of two. -/
def isPowerOfTwo (v : Nat) : Bool := v != 0 && 2 ^ Nat.log2 v == v

/-- FS, N, NBLK, ADC_BITS and OUT_CH are in their ranges (R9). -/
def admitsSizes (c : Cfg) : Bool :=
  2 ≤ c.fs && 1 ≤ c.n && c.n ≤ 65536 && 2 ≤ c.nblk && c.nblk ≤ 16
    && 1 ≤ c.adcBits && c.adcBits ≤ 16 && 1 ≤ c.outCh && c.outCh ≤ 8

/-- The regions are line-aligned, whole lines per half, inside the 32-bit space and disjoint (R9, R66), and
every element lies at an even address (R67). DEDUCED (log 13), safe: an odd base, which only one-byte lines
leave room for, is refused. -/
def admitsRegions (c : Cfg) : Bool :=
  isPowerOfTwo c.cacheLine
    && inHalfBytes c % c.cacheLine == 0 && outHalfBytes c % c.cacheLine == 0
    && c.inBase % c.cacheLine == 0 && c.outBase % c.cacheLine == 0
    && c.inBase % 2 == 0 && c.outBase % 2 == 0
    && c.inBase + 2 * inHalfBytes c ≤ 2 ^ 32 && c.outBase + 2 * outHalfBytes c ≤ 2 ^ 32
    && (c.inBase + 2 * inHalfBytes c ≤ c.outBase || c.outBase + 2 * outHalfBytes c ≤ c.inBase)

/-- COEF_FN meets R150 and IIR_CUTOFF_RESET is a legal cutoff (R9, R43). -/
def admitsIir (c : Cfg) : Bool :=
  1 ≤ c.iirCutoffReset.toNat && c.iirCutoffReset.toNat ≤ c.fs / 2 && c.coefDev.all (coefDevOk c.fs)

/-- `1 <= k <= 16`, `0 <= r <= 16`, `k*r <= 16` and the clip break points (R9, R173, R178). -/
def admitsCic (c : Cfg) : Bool :=
  1 ≤ c.cicK && c.cicK ≤ 16 && c.cicR ≤ 16 && c.cicK * c.cicR ≤ 16
    && 0 < c.clipT1 && c.clipT1 < c.clipT2 && c.clipT2 ≤ 32767 && c.clipT1 + c.clipT2 == 32767

/-- The sum of the tap magnitudes (R197). -/
def tapMagnitudes (taps : List Word) : Nat := (taps.map (fun t => t.toInt.natAbs)).sum

/-- The kernel's length, its admission (R197) and the gain's range (R9). -/
def admitsFir (c : Cfg) : Bool :=
  1 ≤ c.firL && c.firL ≤ 65536 && tapMagnitudes c.firTaps + 2 * c.firL ≤ 2 ^ 32
    && 1 ≤ c.firGain && c.firGain ≤ 65536

/-- The configuration meets every constraint of R9; otherwise it is refused (R247). -/
def admits (c : Cfg) : Bool :=
  admitsSizes c && admitsRegions c && admitsIir c && admitsCic c && admitsFir c

end Sys2Proof.Machine
end

