-- ==== Sys2Proof/Syntax.lean ====
section
/-! DEFINITION. The commands: one constructor per row of spec/opcode_table.json (R97, 30_encoding.md). -/

namespace Sys2Proof

/-- A decoded command. Block buffer numbers, CSR numbers and sample indexes are plain numbers (R95);
a DATA word is kept whole. -/
inductive Instr where
  /-- IN_INIT (R111). -/
  | inInit
  /-- IN_START (R113). -/
  | inStart
  /-- IN_GET_BLOCK bD (R116). -/
  | inGetBlock (dst : Nat)
  /-- OUT_INIT (R118). -/
  | outInit
  /-- OUT_START (R120). -/
  | outStart
  /-- OUT_PUT_BLOCK bS (R121). -/
  | outPutBlock (src : Nat)
  /-- IIR_CONNECT (R141). -/
  | iirConnect
  /-- IIR_DISCONNECT (R142). -/
  | iirDisconnect
  /-- IIR_PROCESS bS, bD (R155). -/
  | iirProcess (src dst : Nat)
  /-- CIC_CONNECT (R171). -/
  | cicConnect
  /-- CIC_DISCONNECT (R172). -/
  | cicDisconnect
  /-- CIC_PROCESS bS, bD (R182). -/
  | cicProcess (src dst : Nat)
  /-- FIR_CONNECT (R201). -/
  | firConnect
  /-- FIR_DISCONNECT (R202). -/
  | firDisconnect
  /-- FIR_PROCESS bS, bD (R206). -/
  | firProcess (src dst : Nat)
  /-- CSR_READ csr (R216). -/
  | csrRead (csr : Nat)
  /-- CSR_WRITE csr, value (R217). -/
  | csrWrite (csr : Nat) (data : Word)
  /-- CONT_MASK (R221). -/
  | contMask
  /-- CONT_UNMASK (R222). -/
  | contUnmask
  /-- CONT_DONE (R223). -/
  | contDone
  /-- BLK_READ bN, idx (R219). -/
  | blkRead (blk idx : Nat)
  /-- BLK_WRITE bN, idx, sample (R220); `data` is the whole DATA word. -/
  | blkWrite (blk idx : Nat) (data : Word)
  deriving DecidableEq, Repr

end Sys2Proof
end

