-- ==== Sys2Proof/WellFormed.lean ====
section
/-! DEFINITION. Well-formed commands: every operand fits its field of the first word (R92, R93). -/

namespace Sys2Proof

/-- A block buffer number fits SRC, DST or BLK: 4 bits (R92). -/
def fitsBlock (b : Nat) : Bool := b < 16

/-- A CSR number fits CSR: 8 bits (R92). -/
def fitsCsr (n : Nat) : Bool := n < 256

/-- A sample index fits IDX: 16 bits (R92). -/
def fitsIdx (i : Nat) : Bool := i < 65536

/-- Every operand of the command fits its field (R92, R93). A number that fits and names no buffer,
CSR or sample is well-formed: the command rejects it when it runs (R95). -/
def Instr.wellFormed : Instr → Bool
  | .inInit => true
  | .inStart => true
  | .inGetBlock dst => fitsBlock dst
  | .outInit => true
  | .outStart => true
  | .outPutBlock src => fitsBlock src
  | .iirConnect => true
  | .iirDisconnect => true
  | .iirProcess src dst => fitsBlock src && fitsBlock dst
  | .cicConnect => true
  | .cicDisconnect => true
  | .cicProcess src dst => fitsBlock src && fitsBlock dst
  | .firConnect => true
  | .firDisconnect => true
  | .firProcess src dst => fitsBlock src && fitsBlock dst
  | .csrRead csr => fitsCsr csr
  | .csrWrite csr _ => fitsCsr csr
  | .contMask => true
  | .contUnmask => true
  | .contDone => true
  | .blkRead blk idx => fitsBlock blk && fitsIdx idx
  | .blkWrite blk idx _ => fitsBlock blk && fitsIdx idx

end Sys2Proof
end

