-- ==== Sys2Proof/Decode.lean ====
section
/-! DEFINITION. Decoding of the command stream and encoding of commands (30_encoding.md R91 to R100). -/

namespace Sys2Proof

/-- The operand formats of R93. -/
inductive Format where
  | n
  | b2
  | bd
  | bs
  | r
  | m
  deriving DecidableEq, Repr

/-- The assigned opcodes, named as the rows of R97. -/
inductive Opcode where
  | inInit | inStart | inGetBlock | outInit | outStart | outPutBlock
  | iirConnect | iirDisconnect | iirProcess
  | cicConnect | cicDisconnect | cicProcess
  | firConnect | firDisconnect | firProcess
  | csrRead | csrWrite | contMask | contUnmask | contDone | blkRead | blkWrite
  deriving DecidableEq, Repr

/-- The OPC column of R97. -/
def opcodeByte : Opcode → Byte
  | .inInit => 0x01#8
  | .inStart => 0x02#8
  | .inGetBlock => 0x03#8
  | .outInit => 0x04#8
  | .outStart => 0x05#8
  | .outPutBlock => 0x06#8
  | .iirConnect => 0x10#8
  | .iirDisconnect => 0x11#8
  | .iirProcess => 0x12#8
  | .cicConnect => 0x20#8
  | .cicDisconnect => 0x21#8
  | .cicProcess => 0x22#8
  | .firConnect => 0x30#8
  | .firDisconnect => 0x31#8
  | .firProcess => 0x32#8
  | .csrRead => 0x40#8
  | .csrWrite => 0x41#8
  | .contMask => 0x42#8
  | .contUnmask => 0x43#8
  | .contDone => 0x44#8
  | .blkRead => 0x45#8
  | .blkWrite => 0x46#8

/-- The opcode a byte selects; every byte outside R97 is unassigned (R100). -/
def opcodeOfByte (b : Byte) : Option Opcode :=
  match b.toNat with
  | 0x01 => some .inInit
  | 0x02 => some .inStart
  | 0x03 => some .inGetBlock
  | 0x04 => some .outInit
  | 0x05 => some .outStart
  | 0x06 => some .outPutBlock
  | 0x10 => some .iirConnect
  | 0x11 => some .iirDisconnect
  | 0x12 => some .iirProcess
  | 0x20 => some .cicConnect
  | 0x21 => some .cicDisconnect
  | 0x22 => some .cicProcess
  | 0x30 => some .firConnect
  | 0x31 => some .firDisconnect
  | 0x32 => some .firProcess
  | 0x40 => some .csrRead
  | 0x41 => some .csrWrite
  | 0x42 => some .contMask
  | 0x43 => some .contUnmask
  | 0x44 => some .contDone
  | 0x45 => some .blkRead
  | 0x46 => some .blkWrite
  | _ => none

/-- The format column of R97. -/
def opcodeFormat : Opcode → Format
  | .inInit => .n
  | .inStart => .n
  | .inGetBlock => .bd
  | .outInit => .n
  | .outStart => .n
  | .outPutBlock => .bs
  | .iirConnect => .n
  | .iirDisconnect => .n
  | .iirProcess => .b2
  | .cicConnect => .n
  | .cicDisconnect => .n
  | .cicProcess => .b2
  | .firConnect => .n
  | .firDisconnect => .n
  | .firProcess => .b2
  | .csrRead => .r
  | .csrWrite => .r
  | .contMask => .n
  | .contUnmask => .n
  | .contDone => .n
  | .blkRead => .m
  | .blkWrite => .m

/-- OPC, `w[31:24]` (R92). -/
def opcField (w : Word) : Byte := w.extractLsb' 24 8

/-- SRC and BLK, `w[23:20]` (R92). -/
def srcField (w : Word) : BitVec 4 := w.extractLsb' 20 4

/-- DST, `w[19:16]` (R92). -/
def dstField (w : Word) : BitVec 4 := w.extractLsb' 16 4

/-- CSR, `w[23:16]` (R92). -/
def csrField (w : Word) : Byte := w.extractLsb' 16 8

/-- IDX, `w[15:0]` (R92). -/
def idxField (w : Word) : BitVec 16 := w.extractLsb' 0 16

/-- The fields R93 marks `0` in a format are all zero (R99). -/
def reservedZero (f : Format) (w : Word) : Bool :=
  match f with
  | .n => srcField w == 0#4 && dstField w == 0#4 && idxField w == 0#16
  | .b2 => idxField w == 0#16
  | .bd => srcField w == 0#4 && idxField w == 0#16
  | .bs => dstField w == 0#4 && idxField w == 0#16
  | .r => idxField w == 0#16
  | .m => dstField w == 0#4

/-- A command's operands, assembled from its first word and its DATA word (R95). -/
def assembleOperands (op : Opcode) (w data : Word) : Instr :=
  match op with
  | .inInit => .inInit
  | .inStart => .inStart
  | .inGetBlock => .inGetBlock (dstField w).toNat
  | .outInit => .outInit
  | .outStart => .outStart
  | .outPutBlock => .outPutBlock (srcField w).toNat
  | .iirConnect => .iirConnect
  | .iirDisconnect => .iirDisconnect
  | .iirProcess => .iirProcess (srcField w).toNat (dstField w).toNat
  | .cicConnect => .cicConnect
  | .cicDisconnect => .cicDisconnect
  | .cicProcess => .cicProcess (srcField w).toNat (dstField w).toNat
  | .firConnect => .firConnect
  | .firDisconnect => .firDisconnect
  | .firProcess => .firProcess (srcField w).toNat (dstField w).toNat
  | .csrRead => .csrRead (csrField w).toNat
  | .csrWrite => .csrWrite (csrField w).toNat data
  | .contMask => .contMask
  | .contUnmask => .contUnmask
  | .contDone => .contDone
  | .blkRead => .blkRead (srcField w).toNat (idxField w).toNat
  | .blkWrite => .blkWrite (srcField w).toNat (idxField w).toNat data

/-- Why a first word is illegal. -/
inductive DecodeError where
  /-- OPC is not in R97 (R100). -/
  | unassignedOpcode
  /-- A reserved-zero field is not zero (R99). -/
  | reservedField
  deriving DecidableEq, Repr

/-- What the front of a command stream holds, and the words after it. -/
inductive Decoded where
  /-- A legal command. -/
  | command (i : Instr) (rest : List Word)
  /-- An illegal first word `w`, rejected with E_ILLEGAL, its DATA word (if it has one) consumed (R94). -/
  | illegal (why : DecodeError) (w : Word) (rest : List Word)
  /-- The host has not sent the whole command yet. -/
  | incomplete
  deriving DecidableEq, Repr

/-- A command is two words if and only if OPC is 0x41 or 0x46, legal or not (R94). -/
def twoWords (w : Word) : Bool := opcField w == 0x41#8 || opcField w == 0x46#8

/-- The meaning of a first word `w` with DATA word `data` and the words `rest` after them (R97, R99, R100). -/
def decodeFirst (w data : Word) (rest : List Word) : Decoded :=
  match opcodeOfByte (opcField w) with
  | none => .illegal .unassignedOpcode w rest
  | some op =>
    if reservedZero (opcodeFormat op) w then .command (assembleOperands op w data) rest
    else .illegal .reservedField w rest

/-- Decode the front of a command stream; total, and every illegal word is rejected by name (R94, R97 to R100). -/
def decode : List Word → Decoded
  | [] => .incomplete
  | w :: rest =>
    if twoWords w then
      match rest with
      | [] => .incomplete
      | data :: rest' => decodeFirst w data rest'
    else decodeFirst w 0#32 rest

/-- A first word from its opcode and its three fields (R93). -/
def firstWord (op : Opcode) (hi lo : BitVec 4) (imm : BitVec 16) : Word :=
  opcodeByte op ++ hi ++ lo ++ imm

/-- A number as a 4-bit field. -/
def nibble (b : Nat) : BitVec 4 := BitVec.ofNat 4 b

/-- The words of a command, from R93 and R97. -/
def encode : Instr → List Word
  | .inInit => [firstWord .inInit 0 0 0]
  | .inStart => [firstWord .inStart 0 0 0]
  | .inGetBlock dst => [firstWord .inGetBlock 0 (nibble dst) 0]
  | .outInit => [firstWord .outInit 0 0 0]
  | .outStart => [firstWord .outStart 0 0 0]
  | .outPutBlock src => [firstWord .outPutBlock (nibble src) 0 0]
  | .iirConnect => [firstWord .iirConnect 0 0 0]
  | .iirDisconnect => [firstWord .iirDisconnect 0 0 0]
  | .iirProcess src dst => [firstWord .iirProcess (nibble src) (nibble dst) 0]
  | .cicConnect => [firstWord .cicConnect 0 0 0]
  | .cicDisconnect => [firstWord .cicDisconnect 0 0 0]
  | .cicProcess src dst => [firstWord .cicProcess (nibble src) (nibble dst) 0]
  | .firConnect => [firstWord .firConnect 0 0 0]
  | .firDisconnect => [firstWord .firDisconnect 0 0 0]
  | .firProcess src dst => [firstWord .firProcess (nibble src) (nibble dst) 0]
  | .csrRead csr => [firstWord .csrRead (nibble (csr / 16)) (nibble csr) 0]
  | .csrWrite csr data => [firstWord .csrWrite (nibble (csr / 16)) (nibble csr) 0, data]
  | .contMask => [firstWord .contMask 0 0 0]
  | .contUnmask => [firstWord .contUnmask 0 0 0]
  | .contDone => [firstWord .contDone 0 0 0]
  | .blkRead blk idx => [firstWord .blkRead (nibble blk) 0 (BitVec.ofNat 16 idx)]
  | .blkWrite blk idx data => [firstWord .blkWrite (nibble blk) 0 (BitVec.ofNat 16 idx), data]

/-- The words of the opcode table's instruction whose bits are `w`: bits 31..0 are the first word,
bits 63..32 the DATA word, and every bit above `nbits` is 0. A one-word command has no second word. -/
def tableWords (nbits w : Nat) : List Word :=
  let bits := w % 2 ^ nbits
  let first : Word := BitVec.ofNat 32 bits
  if twoWords first then [first, BitVec.ofNat 32 (bits / 2 ^ 32)] else [first]

/-- What the decoder reads from an instruction of the opcode table. -/
def decodeTableWord (nbits w : Nat) : Option Instr :=
  match decode (tableWords nbits w) with
  | .command i _ => some i
  | .illegal _ _ _ => none
  | .incomplete => none

end Sys2Proof
end

