-- ==== Sys2Proof/Machine/State.lean ====
section
/-! DEFINITION. The state record of R23 (10_state.md), the environment's inputs, the reasons a step can
stop, and the state after reset (R271, R272). -/

namespace Sys2Proof.Machine

open Sys2Proof

/-- The lifecycle state of an adapter (R23, R40): UNINIT = 0, INIT = 1, RUNNING = 2. -/
inductive AdapterState where
  | uninit
  | init
  | running
  deriving DecidableEq, Repr

/-- A half of a DMA region: half 0 ("front half"), half 1 ("back half") (R16, R64, R65). -/
inductive Half where
  | half0
  | half1
  deriving DecidableEq, Repr

/-- The status codes of R241 (60_exceptions.md). The reserved codes 0x08 to 0xFF have no constructor:
they are never produced (93_implementation_defined.md I18). -/
inductive Status where
  | ok
  | eIllegal
  | eBlkIdx
  | eCsr
  | eRo
  | eRange
  | eState
  | eInit
  deriving DecidableEq, Repr

/-- The response to a command (R4). -/
structure Response where
  status : Status
  data : Word
  deriving DecidableEq, Repr

/-- One coming choice of the environment: which agent takes the next step (R5, R78), with the draw that
the step needs. DESIGN CHOICE (log 2), safe: plain data stands for the nondeterminism. -/
inductive Move where
  /-- The host's turn: the dispatch if it is enabled (R253), else the host's next command. -/
  | host
  /-- The input engine, with the front end's raw sample (R114). -/
  | inputEngine (raw : BitVec 16)
  /-- The output engine (R124). -/
  | outputEngine
  /-- The continuation dispatch (R253). -/
  | dispatch
  /-- The cache evicts the valid line of this number (R73). -/
  | evict (line : Nat)
  deriving DecidableEq, Repr

/-- A valid cache line (R70): its number `addr div CACHE_LINE`, its bytes, its dirty bit. -/
structure CacheLine where
  la : Nat
  data : List Byte
  dirty : Bool
  deriving DecidableEq, Repr

/-- Region memory: the bytes written since power-on, by address (R61); its canonical form is
`Memory.wf`. An unlisted address reads as `Config.powerOnByte` of it (log 7). -/
abbrev Memory := List Host.Cell

/-- The IIR unit's state (R32). `fb`, `ff` and `y` are signed Q1.31 in two's complement. -/
structure Iir where
  mode : IirMode
  cutoff : Word
  cutoffCached : Word
  fb : Word
  ff : Word
  y : Word
  xprev : Sample
  deriving DecidableEq, Repr

/-- The CIC unit's state (R34): four arrays of `k` signed 32-bit words, entry `j = 1` first. -/
structure Cic where
  ic : List Word
  ii : List Word
  di : List Word
  dc : List Word
  deriving DecidableEq, Repr

/-- The FIR unit's state (R35). -/
structure Fir where
  hist : List Sample
  head : Nat
  deriving DecidableEq, Repr

/-- The machine's state: the configuration, the environment's inputs and outputs (the model's own
fields), and the block state `S` of R23. -/
structure State where
  /-- The configuration of the run; no step writes it (R24). -/
  cfg : Cfg
  /-- Words the host has sent and the block has not taken. -/
  inbox : List Word
  /-- The environment's coming moves; when none is left it is the host's turn. -/
  moves : List Move
  /-- INIT_ORACLE's coming answers, `true` for `ok`; when none is left it answers `ok`. -/
  initDraws : List Bool
  /-- The responses given so far, oldest first. -/
  responses : List Response
  /-- S.err. -/
  err : Byte
  /-- S.underrun_cnt. -/
  underrunCnt : Word
  /-- S.overrun_cnt. -/
  overrunCnt : Word
  /-- S.sat_cnt. -/
  satCnt : Word
  /-- S.cont_pending. -/
  contPending : Bool
  /-- S.cont_active. -/
  contActive : Bool
  /-- S.cont_masked. -/
  contMasked : Bool
  /-- S.in_state. -/
  inState : AdapterState
  /-- S.out_state. -/
  outState : AdapterState
  /-- S.in_pos. -/
  inPos : Nat
  /-- S.out_pos. -/
  outPos : Nat
  /-- S.out_target. -/
  outTarget : Half
  /-- S.fresh[0]. -/
  fresh0 : Bool
  /-- S.fresh[1]. -/
  fresh1 : Bool
  /-- S.blk: a cell nothing has written is `none` (R31). -/
  blk : List (List (Option Sample))
  /-- S.iir. -/
  iir : Iir
  /-- S.cic. -/
  cic : Cic
  /-- S.fir. -/
  fir : Fir
  /-- S.mem. -/
  mem : Memory
  /-- S.cache: the valid lines, by rising line number. -/
  cache : List CacheLine
  /-- S.sink: the frames emitted, oldest first. -/
  sink : List (List Sample)
  deriving DecidableEq, Repr

/-- Why the machine stops with a fault. -/
inductive Fault where
  /-- F_UNWRITTEN(b, i) of R31 and R245: BLK_READ, OUT_PUT_BLOCK and the PROCESS commands raise it when they
  would read a block cell that holds `none`; `i` is the lowest unwritten index. Safe: the hardware's cell
  holds some unspecified value. -/
  | unwritten (b i : Nat)
  deriving DecidableEq, Repr

/-- Why a step is refused. -/
inductive Refusal where
  /-- An instruction with no meaning yet: raised only by `exec`'s own refused arms. Safe. -/
  | notModelled (mnemonic : String)
  /-- The configuration breaks a constraint of R9, so the model has no run for it (R247): raised by `step`. Safe. -/
  | badConfig
  deriving DecidableEq, Repr

/-- The state after reset under configuration `c` (R271, R272), the host having sent nothing and the
environment having made no choice yet. -/
def State.resetOf (c : Cfg) : State where
  cfg := c
  inbox := []
  moves := []
  initDraws := []
  responses := []
  err := 0x00#8
  underrunCnt := 0#32
  overrunCnt := 0#32
  satCnt := 0#32
  contPending := false
  contActive := false
  contMasked := false
  inState := .uninit
  outState := .uninit
  inPos := 0
  outPos := 0
  outTarget := .half1
  fresh0 := true
  fresh1 := true
  blk := List.replicate c.nblk (List.replicate c.n none)
  iir := { mode := c.iirModeReset, cutoff := c.iirCutoffReset, cutoffCached := 0#32, fb := 0#32,
           ff := 0#32, y := 0#32, xprev := 0#16 }
  cic := { ic := List.replicate c.cicK 0#32, ii := List.replicate c.cicK 0#32,
           di := List.replicate c.cicK 0#32, dc := List.replicate c.cicK 0#32 }
  fir := { hist := List.replicate c.firL 0#16, head := 0 }
  mem := []
  cache := []
  sink := []

/-- The machine right after reset. DESIGN CHOICE (log 1): the configuration is the example `E` of
95_test_vectors.md, since R9 fixes none, and with it the reset values of the cutoff and the mode (log 5). -/
def State.reset : State := State.resetOf Cfg.exampleE

end Sys2Proof.Machine
end

