-- ==== Sys2Proof/Machine/Memory.lean ====
section
/-! DEFINITION. Region memory by bytes and by little-endian elements (R61, R62, 20_memory.md). -/

namespace Sys2Proof.Machine

open Sys2Proof

/-- The canonical form: addresses strictly rising. An unlisted address holds no listed value, so no
entry can equal one. -/
def Memory.wf : Memory → Bool
  | [] => true
  | [_] => true
  | c :: d :: rest => c.1 < d.1 && Memory.wf (d :: rest)

/-- The byte written at an address, if any. -/
def memGet : Memory → Nat → Option Byte
  | [], _ => none
  | (a', b) :: rest, a => if a' = a then some b else memGet rest a

/-- Write one byte, keeping the canonical form. -/
def memSet : Memory → Nat → Byte → Memory
  | [], a, b => [(a, b)]
  | (a', b') :: rest, a, b =>
    if a < a' then (a, b) :: (a', b') :: rest
    else if a = a' then (a, b) :: rest
    else (a', b') :: memSet rest a b

/-- `S.mem[a]`: a byte nothing has written since power-on is a free value (R272; log 7). -/
def memByte (m : Memory) (a : Nat) : Byte := (memGet m a).getD (Config.powerOnByte a)

/-- `MemRead(addr, n)`: little-endian (R61). -/
def memRead (m : Memory) (a : Nat) : Nat → Nat
  | 0 => 0
  | n + 1 => (memByte m a).toNat + 256 * memRead m (a + 1) n

/-- `MemWrite(addr, n, v)`: little-endian (R62). -/
def memWrite (m : Memory) (a : Nat) : Nat → Nat → Memory
  | 0, _ => m
  | n + 1, v => memWrite (memSet m a (BitVec.ofNat 8 v)) (a + 1) n (v / 256)

/-- The bytes of `n` addresses from `a` on. -/
def memBytes (m : Memory) (a n : Nat) : List Byte := (List.range n).map (fun i => memByte m (a + i))

/-- Write the listed bytes from `a` on. -/
def memWriteBytes (m : Memory) (a : Nat) : List Byte → Memory
  | [] => m
  | b :: rest => memWriteBytes (memSet m a b) (a + 1) rest

/-- Zero `n` bytes from `a` on (R111, R118). -/
def memZero (m : Memory) (a : Nat) : Nat → Memory
  | 0 => m
  | n + 1 => memZero (memSet m a 0#8) (a + 1) n

/-- A 16-bit element of a region (R64, R65, R68). -/
def memElem (m : Memory) (a : Nat) : BitVec 16 := BitVec.ofNat 16 (memRead m a 2)

end Sys2Proof.Machine
end

