-- ==== Sys2Proof/Machine/Cache.lean ====
section
/-! DEFINITION. The host's accesses to region memory through the data cache (R70 to R75, 20_memory.md). -/

namespace Sys2Proof.Machine

open Sys2Proof

/-- The canonical form of the cache: line numbers strictly rising. -/
def cacheWf : List CacheLine → Bool
  | [] => true
  | [_] => true
  | l :: k :: rest => l.la < k.la && cacheWf (k :: rest)

/-- The valid line of a number, if it is valid. -/
def cacheFind : List CacheLine → Nat → Option CacheLine
  | [], _ => none
  | l :: rest, la => if l.la = la then some l else cacheFind rest la

/-- Make a line valid with the contents given, keeping the canonical form. -/
def cachePut : List CacheLine → CacheLine → List CacheLine
  | [], k => [k]
  | l :: rest, k =>
    if k.la < l.la then k :: l :: rest
    else if k.la = l.la then k :: rest
    else l :: cachePut rest k

/-- The number of the line that holds an address (R70). -/
def lineOf (c : Cfg) (a : Nat) : Nat := a / c.cacheLine

/-- The line that a fill would make of memory: `valid(data = the line's bytes, dirty = 0)` (R71). -/
def filledLine (s : State) (la : Nat) : CacheLine :=
  { la := la, data := memBytes s.mem (la * s.cfg.cacheLine) s.cfg.cacheLine, dirty := false }

/-- The line of an address as a host access sees it: the valid line, else the line a fill makes (R71, R72). -/
def seenLine (s : State) (a : Nat) : CacheLine :=
  (cacheFind s.cache (lineOf s.cfg a)).getD (filledLine s (lineOf s.cfg a))

/-- A host access makes the line of its address valid (R71, R72); with no cache nothing happens (R70). -/
def touchLine (s : State) (a : Nat) : State :=
  if s.cfg.cachePresent then { s with cache := cachePut s.cache (seenLine s a) } else s

/-- The byte a host read returns (R71); with no cache it is memory's (R70). -/
def hostByte (s : State) (a : Nat) : Byte :=
  if s.cfg.cachePresent then (seenLine s a).data.getD (a % s.cfg.cacheLine) 0#8 else memByte s.mem a

/-- `HostRead(addr, 2)`'s result, little-endian (R71). Each byte is taken from its own line (log 13). -/
def hostElem (s : State) (a : Nat) : BitVec 16 := hostByte s (a + 1) ++ hostByte s a

/-- `HostRead(addr, 2)`'s effect on the cache (R71). -/
def touchElem (s : State) (a : Nat) : State := touchLine (touchLine s a) (a + 1)

/-- The line of an address after a host write of one byte in it (R72). -/
def writtenLine (s : State) (a : Nat) (b : Byte) : CacheLine :=
  { la := lineOf s.cfg a, data := (seenLine s a).data.set (a % s.cfg.cacheLine) b, dirty := true }

/-- A host write of one byte (R72). -/
def hostWriteByte (s : State) (a : Nat) (b : Byte) : State :=
  if s.cfg.cachePresent then { s with cache := cachePut s.cache (writtenLine s a b) }
  else { s with mem := memSet s.mem a b }

/-- `HostWrite(addr, 2, v)`, little-endian (R72). -/
def hostWriteElem (s : State) (a : Nat) (v : BitVec 16) : State :=
  hostWriteByte (hostWriteByte s a (v.extractLsb' 0 8)) (a + 1) (v.extractLsb' 8 8)

/-- A line's address range meets the line-aligned byte range `lo .. hi` (R74). -/
def lineInRange (c : Cfg) (lo hi : Nat) (l : CacheLine) : Bool :=
  lineOf c lo ≤ l.la && l.la ≤ lineOf c hi

/-- `Invalidate(lo, hi)` (R74). -/
def invalidate (s : State) (lo hi : Nat) : State :=
  if s.cfg.cachePresent then { s with cache := s.cache.filter (fun l => !lineInRange s.cfg lo hi l) } else s

/-- Copy a dirty line's bytes to memory (R73, R75). -/
def writeBack (c : Cfg) (m : Memory) (l : CacheLine) : Memory :=
  if l.dirty then memWriteBytes m (l.la * c.cacheLine) l.data else m

/-- `Clean(lo, hi)` (R75). -/
def clean (s : State) (lo hi : Nat) : State :=
  if s.cfg.cachePresent then
    { s with
      mem := (s.cache.filter (lineInRange s.cfg lo hi)).foldl (writeBack s.cfg) s.mem
      cache := s.cache.map (fun l => if lineInRange s.cfg lo hi l then { l with dirty := false } else l) }
  else s

/-- `CleanInvalidate(lo, hi)` (R75). -/
def cleanInvalidate (s : State) (lo hi : Nat) : State := invalidate (clean s lo hi) lo hi

/-- Evict a valid line (R73); a line that is not valid cannot be evicted, and nothing happens. -/
def evictLine (s : State) (la : Nat) : State :=
  match cacheFind s.cache la with
  | none => s
  | some l =>
    { s with mem := writeBack s.cfg s.mem l, cache := s.cache.filter (fun k => k.la != la) }

end Sys2Proof.Machine
end

