-- ==== Sys2Proof/Machine/Arith.lean ====
section
/-! DEFINITION. The width functions of R12 (00_scope.md), on integers. -/

namespace Sys2Proof.Machine

open Sys2Proof

/-- `asr(v, s) = floor(v / 2^s)`: arithmetic shift right, toward minus infinity (R12). -/
def asr (v : Int) (s : Nat) : Int := v / 2 ^ s

/-- `sat16(v)`: saturation to the Sample range (R12). -/
def sat16 (v : Int) : Int := max (-32768) (min 32767 v)

/-- `sat_u32(v)` (R12). -/
def satU32 (v : Nat) : Nat := min (2 ^ 32 - 1) v

/-- The 32-bit register that holds `wrap32(v)` (R12). -/
def word32 (v : Int) : Word := BitVec.ofInt 32 v

/-- The Sample whose value is `sext_16(v)` (R12). -/
def sample16 (v : Int) : Sample := BitVec.ofInt 16 v

/-- A number as a 32-bit response datum. -/
def wordOfNat (v : Nat) : Word := BitVec.ofNat 32 v

end Sys2Proof.Machine
end

