-- ==== Sys2Proof/Machine/Flags.lean ====
section
/-! DEFINITION. The saturating counters (R27) and the half flags (R25, R26); the block has no arithmetic
condition codes (R29). -/

namespace Sys2Proof.Machine

open Sys2Proof

/-- `c <- sat_u32(c + 1)` (R27). -/
def countUp (c : Word) : Word := wordOfNat (satU32 (c.toNat + 1))

/-- Count one event in a counter if it happened (R27). -/
def countIf (happened : Bool) (c : Word) : Word := if happened then countUp c else c

/-- A half's number (R16). -/
def halfNumber : Half → Nat
  | .half0 => 0
  | .half1 => 1

/-- `1 - h`. -/
def otherHalf : Half → Half
  | .half0 => .half1
  | .half1 => .half0

/-- `S.fresh[h]` (R26). -/
def freshOf (s : State) : Half → Bool
  | .half0 => s.fresh0
  | .half1 => s.fresh1

/-- `S.fresh[h] <- v` (R26). -/
def setFresh (s : State) (h : Half) (v : Bool) : State :=
  match h with
  | .half0 => { s with fresh0 := v }
  | .half1 => { s with fresh1 := v }

/-- The 2-bit field of an adapter's state (R23, R40). -/
def adapterField : AdapterState → BitVec 2
  | .uninit => 0#2
  | .init => 1#2
  | .running => 2#2

/-- A status code's number (R241). -/
def statusCode : Status → Byte
  | .ok => 0x00#8
  | .eIllegal => 0x01#8
  | .eBlkIdx => 0x02#8
  | .eCsr => 0x03#8
  | .eRo => 0x04#8
  | .eRange => 0x05#8
  | .eState => 0x06#8
  | .eInit => 0x07#8

end Sys2Proof.Machine
end

