-- ==== Sys2Proof/Machine/Ops.lean ====
section
/-! DEFINITION. The shared operations: responding, raising an error, the event, the dispatch and the return
from it, the INIT draw, and the block buffers. -/

namespace Sys2Proof.Machine

open Sys2Proof

/-- What a command's meaning answers. -/
abbrev Result := Host.Outcome State Fault Refusal

/-- Give the host a response (R4). -/
def pushResponse (r : Response) (s : State) : State := { s with responses := s.responses ++ [r] }

/-- `respond(d)`: the command ends with status OK and data `d` (R13). -/
def respond (d : Word) (s : State) : Result := .next (pushResponse { status := .ok, data := d } s)

/-- The state after `raise E(info)`: S.err holds the code, nothing else of `S` changes (R13, R243). -/
def raised (e : Status) (info : Word) (s : State) : State :=
  pushResponse { status := e, data := info } { s with err := statusCode e }

/-- `raise E(info)`: the command ends with status E; the block goes on (R243). -/
def raise (e : Status) (info : Word) (s : State) : Result := .next (raised e info s)

/-- An illegal first word is rejected with E_ILLEGAL and answered with the word itself (R99, R100, R241). -/
def rejectWord (w : Word) (s : State) : State := raised .eIllegal w s

/-- The state in which the output engine has handed half `fin` to software: the target toggled, `fresh[fin]`
cleared (R125). -/
def handOver (fin : Half) (s : State) : State :=
  setFresh { s with outTarget := otherHalf s.outTarget } fin false

/-- `Event(fin)`: the completion event, which raises the continuation (R125, R250). -/
def event (fin : Half) (s : State) : State :=
  { handOver fin s with
    underrunCnt := countIf (!freshOf (handOver fin s) (otherHalf fin)) s.underrunCnt
    overrunCnt := countIf (s.contPending || s.contActive) s.overrunCnt
    contPending := true }

/-- The dispatch is enabled (R253). -/
def dispatchEnabled (s : State) : Bool := s.contPending && !s.contMasked && !s.contActive

/-- The dispatch: entry to the continuation; it saves nothing (R253, R254). -/
def dispatch (s : State) : State := { s with contPending := false, contActive := true }

/-- The return from the continuation: it restores nothing but the active bit (R223, R255). -/
def endCycle (s : State) : State := { s with contActive := false }

/-- The answer of the next INIT draw, `true` for `ok` (R112). DESIGN CHOICE (log 4): with no answer listed it is `ok`. -/
def initAnswer (s : State) : Bool := s.initDraws.headD true

/-- The INIT draw is made (R112). -/
def takeInitDraw (s : State) : State := { s with initDraws := s.initDraws.tail }

/-- The cells of a block buffer (R30). -/
def blockCells (s : State) (b : Nat) : List (Option Sample) := s.blk.getD b []

/-- `S.blk[b][i]` (R30, R31). DESIGN CHOICE (log 15): outside the buffers' shape, which no run leaves, it reads
as unwritten. -/
def blockCell (s : State) (b i : Nat) : Option Sample := (blockCells s b).getD i none

/-- `S.blk[b][i] <- x` (R30). -/
def writeCell (s : State) (b i : Nat) (x : Sample) : State :=
  { s with blk := s.blk.set b ((blockCells s b).set i (some x)) }

/-- Write a whole block buffer (R116, R155, R182, R206). -/
def writeBlock (s : State) (b : Nat) (xs : List Sample) : State :=
  { s with blk := s.blk.set b (xs.map some) }

/-- The samples of a block's cells, or the lowest unwritten index (R31, R245). -/
def readCells : List (Option Sample) → Except Nat (List Sample)
  | [] => .ok []
  | none :: _ => .error 0
  | some x :: rest =>
    match readCells rest with
    | .ok xs => .ok (x :: xs)
    | .error i => .error (i + 1)

end Sys2Proof.Machine
end

