-- ==== Sys2Proof/Machine/Operands.lean ====
section
/-! DEFINITION. The operand forms: block buffers, sample indexes and CSR numbers, with the checks that
come first in a command (R95, R244). -/

namespace Sys2Proof.Machine

open Sys2Proof

/-- A block buffer operand: a number `>= NBLK` is E_BLKIDX (R95). -/
def withBlock (b : Nat) (s : State) (k : Result) : Result :=
  if b < s.cfg.nblk then k else raise .eBlkIdx (wordOfNat b) s

/-- A sample index operand: a value `>= N` is E_RANGE (R95). -/
def withIdx (i : Nat) (s : State) (k : Result) : Result :=
  if i < s.cfg.n then k else raise .eRange (wordOfNat i) s

/-- The samples of a source buffer; an unwritten cell is F_UNWRITTEN with the lowest such index (R31, R245). -/
def withSamples (b : Nat) (s : State) (k : List Sample → Result) : Result :=
  match readCells (blockCells s b) with
  | .ok xs => k xs
  | .error i => .fault (.unwritten b i)

/-- One cell of a buffer; an unwritten cell is F_UNWRITTEN (R31, R219). -/
def withCell (b i : Nat) (s : State) (k : Sample → Result) : Result :=
  match blockCell s b i with
  | some x => k x
  | none => .fault (.unwritten b i)

/-- The assigned CSRs (R40). -/
inductive Csr where
  | status
  | err
  | underrunCnt
  | overrunCnt
  | satCnt
  | inPos
  | outPos
  | iirCtrl
  | iirCutoff
  | iirCutoffCached
  | iirFb
  | iirFf
  | iirY
  | iirXprev
  | cicCfg
  | firHead
  | firLen
  | firGain
  deriving DecidableEq, Repr

/-- The CSR of a number; every other number is unassigned (R40). -/
def csrOfNumber (n : Nat) : Option Csr :=
  match n with
  | 0x01 => some .status
  | 0x02 => some .err
  | 0x03 => some .underrunCnt
  | 0x04 => some .overrunCnt
  | 0x05 => some .satCnt
  | 0x06 => some .inPos
  | 0x07 => some .outPos
  | 0x10 => some .iirCtrl
  | 0x11 => some .iirCutoff
  | 0x12 => some .iirCutoffCached
  | 0x13 => some .iirFb
  | 0x14 => some .iirFf
  | 0x15 => some .iirY
  | 0x16 => some .iirXprev
  | 0x20 => some .cicCfg
  | 0x30 => some .firHead
  | 0x31 => some .firLen
  | 0x32 => some .firGain
  | _ => none

/-- A CSR operand: an unassigned number is E_CSR (R40, R216, R217). -/
def withCsr (n : Nat) (s : State) (k : Csr → Result) : Result :=
  match csrOfNumber n with
  | some c => k c
  | none => raise .eCsr (wordOfNat n) s

/-- MODE of IIR_CTRL (R40): bit 0, the rest reads 0. -/
def modeWord : IirMode → Word
  | .lowPass => 0#32
  | .highPass => 1#32

/-- The STATUS register (R40). -/
def statusWord (s : State) : Word :=
  0#22 ++ BitVec.ofBool s.fresh1 ++ BitVec.ofBool s.fresh0 ++ adapterField s.outState ++ adapterField s.inState
    ++ BitVec.ofNat 1 (halfNumber s.outTarget) ++ BitVec.ofBool s.contMasked ++ BitVec.ofBool s.contActive
    ++ BitVec.ofBool s.contPending

/-- The CIC_CFG register (R40): `k` in [7:0], `r` in [15:8]. -/
def cicCfgWord (c : Cfg) : Word := 0#16 ++ BitVec.ofNat 8 c.cicR ++ BitVec.ofNat 8 c.cicK

/-- `CsrValue(n)`: the register's 32 bits, unlisted bits 0 (R40, R41). -/
def csrValue (s : State) : Csr → Word
  | .status => statusWord s
  | .err => s.err.setWidth 32
  | .underrunCnt => s.underrunCnt
  | .overrunCnt => s.overrunCnt
  | .satCnt => s.satCnt
  | .inPos => wordOfNat s.inPos
  | .outPos => wordOfNat s.outPos
  | .iirCtrl => modeWord s.iir.mode
  | .iirCutoff => s.iir.cutoff
  | .iirCutoffCached => s.iir.cutoffCached
  | .iirFb => s.iir.fb
  | .iirFf => s.iir.ff
  | .iirY => s.iir.y
  | .iirXprev => s.iir.xprev.signExtend 32
  | .cicCfg => cicCfgWord s.cfg
  | .firHead => wordOfNat s.fir.head
  | .firLen => wordOfNat s.cfg.firL
  | .firGain => wordOfNat s.cfg.firGain

end Sys2Proof.Machine
end

