-- ==== Sys2Proof/Machine/Adapters.lean ====
section
/-! DEFINITION. The Input Adapter and the Output Adapter (40_io_adapters.md): their commands and the steps
of the two DMA engines. -/

namespace Sys2Proof.Machine

open Sys2Proof

/-- The first byte of half `h` of the input region (R64). -/
def inHalfBase (c : Cfg) (h : Half) : Nat := c.inBase + inHalfBytes c * halfNumber h

/-- The first byte of half `h` of the output region (R65). -/
def outHalfBase (c : Cfg) (h : Half) : Nat := c.outBase + outHalfBytes c * halfNumber h

/-- Zero the input region and invalidate its lines (R111). -/
def clearInRegion (s : State) : State :=
  invalidate { s with mem := memZero s.mem s.cfg.inBase (2 * inHalfBytes s.cfg) }
    s.cfg.inBase (s.cfg.inBase + 2 * inHalfBytes s.cfg - 1)

/-- Zero the output region and invalidate its lines (R118). -/
def clearOutRegion (s : State) : State :=
  invalidate { s with mem := memZero s.mem s.cfg.outBase (2 * outHalfBytes s.cfg) }
    s.cfg.outBase (s.cfg.outBase + 2 * outHalfBytes s.cfg - 1)

/-- IN_INIT's effect when the draw is ok (R111). -/
def inInitDone (s : State) : State := { clearInRegion s with inPos := 0, inState := .init }

/-- IN_INIT (R111). -/
def execInInit (s : State) : Result :=
  if s.inState = .uninit then
    if initAnswer s then respond 0#32 (inInitDone (takeInitDraw s))
    else raise .eInit 0#32 (takeInitDraw s)
  else raise .eState 0#32 s

/-- IN_START (R113). -/
def execInStart (s : State) : Result :=
  if s.inState = .init then respond 0#32 { s with inPos := 0, inState := .running }
  else raise .eState 0#32 s

/-- `H_in(S)`: the half the input engine is not writing (R115). -/
def inHalf (s : State) : Half := if s.inPos < s.cfg.n then .half1 else .half0

/-- `InTransform(raw)` (R117). -/
def inTransform (adcBits : Nat) (raw : BitVec 16) : Sample :=
  sample16 (((raw.toNat % 2 ^ adcBits : Nat) : Int) * 2 ^ (16 - adcBits) - 32768)

/-- Half `h` of the input region invalidated, ready to be read (R116). -/
def inHalfReady (s : State) (h : Half) : State :=
  invalidate s (inHalfBase s.cfg h) (inHalfBase s.cfg h + inHalfBytes s.cfg - 1)

/-- The samples of half `h` of the input region, as the host reads them (R116). A fill does not change
what a host read returns, so every element is read from the one state. DEDUCED (log 17), safe. -/
def inSamples (s : State) (h : Half) : List Sample :=
  (List.range s.cfg.n).map (fun i => inTransform s.cfg.adcBits (hostElem s (inHalfBase s.cfg h + 2 * i)))

/-- The cache after the host has read half `h` of the input region, in ascending order (R68, R71). -/
def touchInHalf (s : State) (h : Half) : State :=
  (List.range s.cfg.n).foldl (fun t i => touchElem t (inHalfBase s.cfg h + 2 * i)) s

/-- IN_GET_BLOCK's copy (R116). -/
def getBlock (dst : Nat) (s : State) : State :=
  writeBlock (touchInHalf (inHalfReady s (inHalf s)) (inHalf s)) dst (inSamples (inHalfReady s (inHalf s)) (inHalf s))

/-- IN_GET_BLOCK bD (R116). -/
def execInGetBlock (dst : Nat) (s : State) : Result :=
  withBlock dst s
    (if s.inState = .running then respond (wordOfNat (halfNumber (inHalf s))) (getBlock dst s)
     else raise .eState 0#32 s)

/-- OUT_INIT's effect when the draw is ok (R118). -/
def outInitDone (s : State) : State :=
  { clearOutRegion s with outPos := 0, outTarget := .half1, fresh0 := true, fresh1 := true, outState := .init }

/-- OUT_INIT (R118). -/
def execOutInit (s : State) : Result :=
  if s.outState = .uninit then
    if initAnswer s then respond 0#32 (outInitDone (takeInitDraw s))
    else raise .eInit 0#32 (takeInitDraw s)
  else raise .eState 0#32 s

/-- OUT_START (R120). -/
def execOutStart (s : State) : Result :=
  if s.outState = .init then respond 0#32 { s with outPos := 0, outState := .running }
  else raise .eState 0#32 s

/-- Write one sample into every channel slot of the frame at byte address `a` (R121, R122). -/
def writeFrame (s : State) (a : Nat) (x : Sample) : State :=
  (List.range s.cfg.outCh).foldl (fun t c => hostWriteElem t (a + 2 * c) x) s

/-- Write the samples into successive frames from byte address `a` on (R121). -/
def writeFrames (s : State) (a : Nat) : List Sample → State
  | [] => s
  | x :: rest => writeFrames (writeFrame s a x) (a + 2 * s.cfg.outCh) rest

/-- OUT_PUT_BLOCK's copy into half `h`, cleaned and invalidated, the half marked fresh (R121). -/
def putBlock (h : Half) (xs : List Sample) (s : State) : State :=
  setFresh
    (cleanInvalidate (writeFrames s (outHalfBase s.cfg h) xs) (outHalfBase s.cfg h)
      (outHalfBase s.cfg h + outHalfBytes s.cfg - 1))
    h true

/-- OUT_PUT_BLOCK bS (R121). -/
def execOutPutBlock (src : Nat) (s : State) : Result :=
  withBlock src s
    (if s.outState = .uninit then raise .eState 0#32 s
     else withSamples src s
       (fun xs => respond (wordOfNat (halfNumber s.outTarget)) (putBlock s.outTarget xs s)))

/-- The input-engine step with the front end's raw sample (R114). -/
def inputStep (raw : BitVec 16) (s : State) : State :=
  { s with mem := memWrite s.mem (s.cfg.inBase + 2 * s.inPos) 2 raw.toNat
           inPos := (s.inPos + 1) % (2 * s.cfg.n) }

/-- The frame of the output region that the output engine reads at `S.out_pos` (R124). -/
def outFrame (s : State) : List Sample :=
  (List.range s.cfg.outCh).map (fun c => memElem s.mem (s.cfg.outBase + 2 * (s.cfg.outCh * s.outPos + c)))

/-- The sink with the engine's next frame (R124, R130). -/
def emitFrame (s : State) : State := { s with sink := s.sink ++ [outFrame s] }

/-- The output-engine step, with its event (R124). -/
def outputStep (s : State) : State :=
  if s.outPos + 1 = s.cfg.n then event .half0 { emitFrame s with outPos := s.cfg.n }
  else if s.outPos + 1 = 2 * s.cfg.n then event .half1 { emitFrame s with outPos := 0 }
  else { emitFrame s with outPos := s.outPos + 1 }

end Sys2Proof.Machine
end

