-- ==== Sys2Proof/Machine/Agents.lean ====
section
/-! DEFINITION. Who takes the next step (R5, R78, R253): the host's turn, the engines, the dispatch and the
cache's eviction. -/

namespace Sys2Proof.Machine

open Sys2Proof

/-- What the next step is. -/
inductive Turn where
  /-- A step that runs no command leaves this state: an engine step, a dispatch, an eviction, a rejected word, or nothing. -/
  | moved (t : State)
  /-- The command `i` runs in the state `t`, its words taken from the inbox. -/
  | command (i : Instr) (t : State)
  deriving DecidableEq, Repr

/-- The host's turn, `rest` the moves that follow a command it takes. The dispatch, if enabled, goes before
the host's next command (R253; DEDUCED, log 18). With no whole command sent the block waits (R273; log 3). -/
def hostTurn (s : State) (rest : List Move) : Turn :=
  if dispatchEnabled s then .moved (dispatch s)
  else
    match decode s.inbox with
    | .command i ws => .command i { s with inbox := ws, moves := rest }
    | .illegal _ w ws => .moved (rejectWord w { s with inbox := ws, moves := rest })
    | .incomplete => .moved { s with moves := rest }

/-- The effect of a move other than the host's. A move that is not enabled changes nothing (R73, R114, R124,
R253; log 2). -/
def agentStep (m : Move) (s : State) : State :=
  match m with
  | .host => s
  | .inputEngine raw => if s.inState = .running then inputStep raw s else s
  | .outputEngine => if s.outState = .running then outputStep s else s
  | .dispatch => if dispatchEnabled s then dispatch s else s
  | .evict la => evictLine s la

/-- Who takes the next step: the environment's next move, and the host when none is listed (log 2). -/
def turn (s : State) : Turn :=
  match s.moves with
  | [] => hostTurn s []
  | .host :: ms => hostTurn s ms
  | .inputEngine raw :: ms => .moved (agentStep (.inputEngine raw) { s with moves := ms })
  | .outputEngine :: ms => .moved (agentStep .outputEngine { s with moves := ms })
  | .dispatch :: ms => .moved (agentStep .dispatch { s with moves := ms })
  | .evict la :: ms => .moved (agentStep (.evict la) { s with moves := ms })

/-- The host sends the opcode table's instruction with bits `w` next: its words first in the inbox, and the
host's turn first among the moves. -/
def sendTableWord (s : State) (nbits w : Nat) : State :=
  { s with inbox := tableWords nbits w ++ s.inbox, moves := .host :: s.moves }

end Sys2Proof.Machine
end

