-- ==== Sys2Proof/Machine/Cic.lean ====
section
/-! DEFINITION. The multirate CIC distortion unit (42_cic.md). -/

namespace Sys2Proof.Machine

open Sys2Proof

/-- The CIC unit at rest: `k` zeros in each array (R171). -/
def cicRest (c : Cfg) : Cic :=
  { ic := List.replicate c.cicK 0#32, ii := List.replicate c.cicK 0#32,
    di := List.replicate c.cicK 0#32, dc := List.replicate c.cicK 0#32 }

/-- CIC_CONNECT (R171). -/
def execCicConnect (s : State) : Result := respond 0#32 { s with cic := cicRest s.cfg }

/-- CIC_DISCONNECT (R172). -/
def execCicDisconnect (s : State) : Result := respond 0#32 { s with cic := cicRest s.cfg }

/-- The cascade of combs with differential delay 1: the new delays and the output, `wrap32` (R174, R175). -/
def combs : List Word → Word → List Word × Word
  | [], v => ([], v)
  | d :: rest, v => (v :: (combs rest (v - d)).1, (combs rest (v - d)).2)

/-- The cascade of integrators, each passing on its updated value: the new accumulators and the output,
`wrap32` (R174, R175). -/
def integrators : List Word → Word → List Word × Word
  | [], u => ([], u)
  | a :: rest, u => ((a + u) :: (integrators rest (a + u)).1, (integrators rest (a + u)).2)

/-- `Clip(s)`: the three-segment odd nonlinearity (R178). -/
def clip (t1 t2 : Nat) (v : Int) : Int :=
  let a : Int := (v.natAbs : Nat)
  let f : Int := if a < (t1 : Int) then 2 * a else if a < (t2 : Int) then a + (t1 : Int) else 32767
  if v < 0 then -f else f

/-- The rescaled interpolator output `s = asr(u, (k-1)*r)` (R174, R176). -/
def cicRescaleUp (c : Cfg) (u : Word) : Int := asr u.toInt ((c.cicK - 1) * c.cicR)

/-- The rescaled decimator output `out = asr(z, k*r)` (R174, R177). DESIGN CHOICE (log 12), unsafe only in
states no run reaches: a value outside 16 bits is stored wrapped. -/
def cicRescaleDown (c : Cfg) (z : Word) : Sample := sample16 (asr z.toInt (c.cicK * c.cicR))

/-- One high-rate slot with expander output `u`: interpolator integrators, rescale, clip, decimator
integrators. Answers the unit and the last integrator's output `w` (R174). -/
def cicSlot (c : Cfg) (q : Cic) (u : Word) : Cic × Word :=
  let up := integrators q.ii u
  let down := integrators q.di (word32 (clip c.clipT1 c.clipT2 (cicRescaleUp c up.2)))
  ({ q with ii := up.1, di := down.1 }, down.2)

/-- `m + 1` high-rate slots: `u` in the first, zeros in the others; `w` is the last slot's (R174, R175, R177). -/
def cicSlots (c : Cfg) (q : Cic) (u : Word) : Nat → Cic × Word
  | 0 => cicSlot c q u
  | m + 1 => cicSlots c (cicSlot c q u).1 0#32 m

/-- `CicStep(x)`: one base-rate sample through the unit (R174). -/
def cicStep (c : Cfg) (q : Cic) (x : Sample) : Sample × Cic :=
  let ups := combs q.ic (x.signExtend 32)
  let slots := cicSlots c { q with ic := ups.1 } ups.2 (2 ^ c.cicR - 1)
  let downs := combs slots.1.dc slots.2
  (cicRescaleDown c downs.2, { slots.1 with dc := downs.1 })

/-- The samples of a block through the unit, in order (R182). -/
def cicRun (c : Cfg) (q : Cic) : List Sample → List Sample × Cic
  | [] => ([], q)
  | x :: xs => ((cicStep c q x).1 :: (cicRun c (cicStep c q x).2 xs).1, (cicRun c (cicStep c q x).2 xs).2)

/-- CIC_PROCESS's effect on the state (R182, R156). -/
def cicProcess (dst : Nat) (xs : List Sample) (s : State) : State :=
  writeBlock { s with cic := (cicRun s.cfg s.cic xs).2 } dst (cicRun s.cfg s.cic xs).1

/-- CIC_PROCESS bS, bD (R182). -/
def execCicProcess (src dst : Nat) (s : State) : Result :=
  withBlock src s (withBlock dst s (withSamples src s (fun xs => respond 0#32 (cicProcess dst xs s))))

end Sys2Proof.Machine
end

