-- ==== Sys2Proof/Machine/Control.lean ====
section
/-! DEFINITION. The control, block-cell and continuation commands (44_control.md). -/

namespace Sys2Proof.Machine

open Sys2Proof

/-- CSR_READ csr (R216). -/
def execCsrRead (csr : Nat) (s : State) : Result :=
  withCsr csr s (fun c => respond (csrValue s c) s)

/-- The mode that bit 0 of a word names (R40, R218). -/
def modeOfBit (b : Bool) : IirMode := if b then .highPass else .lowPass

/-- A cutoff is legal: `1 .. FS div 2` (R43). -/
def cutoffLegal (c : Cfg) (v : Word) : Bool := 1 ≤ v.toNat && v.toNat ≤ c.fs / 2

/-- `CsrWrite(n, v)` on the three writable CSRs, and E_RO, with the number as data, on every other (R217, R218). -/
def csrWrite (n : Nat) (v : Word) (s : State) : Csr → Result
  | .status => raise .eRo (wordOfNat n) s
  | .err => respond 0#32 { s with err := 0x00#8 }
  | .underrunCnt => raise .eRo (wordOfNat n) s
  | .overrunCnt => raise .eRo (wordOfNat n) s
  | .satCnt => raise .eRo (wordOfNat n) s
  | .inPos => raise .eRo (wordOfNat n) s
  | .outPos => raise .eRo (wordOfNat n) s
  | .iirCtrl => respond 0#32 { s with iir := { s.iir with mode := modeOfBit (v.getLsbD 0) } }
  | .iirCutoff =>
    if cutoffLegal s.cfg v then respond 0#32 { s with iir := { s.iir with cutoff := v } }
    else raise .eRange v s
  | .iirCutoffCached => raise .eRo (wordOfNat n) s
  | .iirFb => raise .eRo (wordOfNat n) s
  | .iirFf => raise .eRo (wordOfNat n) s
  | .iirY => raise .eRo (wordOfNat n) s
  | .iirXprev => raise .eRo (wordOfNat n) s
  | .cicCfg => raise .eRo (wordOfNat n) s
  | .firHead => raise .eRo (wordOfNat n) s
  | .firLen => raise .eRo (wordOfNat n) s
  | .firGain => raise .eRo (wordOfNat n) s

/-- CSR_WRITE csr, value (R217). -/
def execCsrWrite (csr : Nat) (data : Word) (s : State) : Result :=
  withCsr csr s (fun c => csrWrite csr data s c)

/-- BLK_READ bN, idx (R219). -/
def execBlkRead (blk idx : Nat) (s : State) : Result :=
  withBlock blk s (withIdx idx s (withCell blk idx s (fun x => respond (x.signExtend 32) s)))

/-- BLK_WRITE bN, idx, sample (R220): DATA[15:0], the rest ignored. -/
def execBlkWrite (blk idx : Nat) (data : Word) (s : State) : Result :=
  withBlock blk s (withIdx idx s (respond 0#32 (writeCell s blk idx (data.setWidth 16))))

/-- CONT_MASK (R221). -/
def execContMask (s : State) : Result := respond 0#32 { s with contMasked := true }

/-- CONT_UNMASK (R222). -/
def execContUnmask (s : State) : Result := respond 0#32 { s with contMasked := false }

/-- CONT_DONE (R223). -/
def execContDone (s : State) : Result :=
  if s.contActive then respond 0#32 (endCycle s) else raise .eState 0#32 s

end Sys2Proof.Machine
end

