-- ==== Sys2Proof/Machine/Fir.lean ====
section
/-! DEFINITION. The FIR convolution reverb unit (43_fir.md). -/

namespace Sys2Proof.Machine

open Sys2Proof

/-- The FIR unit at rest: `L` zero samples, head 0 (R201). -/
def firRest (c : Cfg) : Fir := { hist := List.replicate c.firL 0#16, head := 0 }

/-- FIR_CONNECT (R201). -/
def execFirConnect (s : State) : Result := respond 0#32 { s with fir := firRest s.cfg }

/-- FIR_DISCONNECT (R202). -/
def execFirDisconnect (s : State) : Result := respond 0#32 { s with fir := firRest s.cfg }

/-- One multiply-accumulate term: `asr(tap*h, 16)`, the upper 32 bits of the 48-bit product (R203). -/
def firTerm (tap : Word) (h : Sample) : Int := asr (tap.toInt * h.toInt) 16

/-- The history entry `j` samples back: `hist[(head - j) mod L]` (R203). -/
def firBack (hist : List Sample) (l head j : Nat) : Sample := hist.getD ((head + l - j) % l) 0#16

/-- The accumulation over the taps from tap `j` on, `wrap32` (R203). -/
def firAcc (hist : List Sample) (l head : Nat) : List Word → Nat → Word → Word
  | [], _, acc => acc
  | tap :: rest, j, acc =>
    firAcc hist l head rest (j + 1) (acc + word32 (firTerm tap (firBack hist l head j)))

/-- `q`: the accumulator shifted left once, rescaled by `G`, narrowed to Q1.15 (R203). -/
def firScale (g : Nat) (acc : Word) : Int := asr (acc.toInt * 2 * (g : Int)) 16

/-- The history with the new input written at the head (R203). -/
def firHist (f : Fir) (x : Sample) : List Sample := f.hist.set f.head x

/-- `q` of FirStep for one input sample (R203). -/
def firQ (c : Cfg) (f : Fir) (x : Sample) : Int :=
  firScale c.firGain (firAcc (firHist f x) c.firL f.head c.firTaps 0 0#32)

/-- `FirStep(x)`: the output, the unit, the saturation count (R203, R206). -/
def firStep (c : Cfg) (f : Fir) (sat : Word) (x : Sample) : Sample × Fir × Word :=
  (sample16 (sat16 (firQ c f x)),
   { hist := firHist f x, head := (f.head + 1) % c.firL },
   countIf (firQ c f x != sat16 (firQ c f x)) sat)

/-- The samples of a block through the unit, in order (R206). -/
def firRun (c : Cfg) (f : Fir) (sat : Word) : List Sample → List Sample × Fir × Word
  | [] => ([], f, sat)
  | x :: xs =>
    let first := firStep c f sat x
    let more := firRun c first.2.1 first.2.2 xs
    (first.1 :: more.1, more.2)

/-- FIR_PROCESS's effect on the state (R206, R156). -/
def firProcess (dst : Nat) (xs : List Sample) (s : State) : State :=
  let run := firRun s.cfg s.fir s.satCnt xs
  writeBlock { s with fir := run.2.1, satCnt := run.2.2 } dst run.1

/-- FIR_PROCESS bS, bD (R206). -/
def execFirProcess (src dst : Nat) (s : State) : Result :=
  withBlock src s (withBlock dst s (withSamples src s (fun xs => respond 0#32 (firProcess dst xs s))))

end Sys2Proof.Machine
end

