-- ==== Sys2Proof/Machine/Iir.lean ====
section
/-! DEFINITION. The one-pole fixed-point IIR filter unit (41_iir.md). -/

namespace Sys2Proof.Machine

open Sys2Proof

/-- The IIR unit at rest: the state cleared, the cached cutoff 0 so that the next block recomputes (R141). -/
def iirRest (u : Iir) : Iir := { u with y := 0#32, xprev := 0#16, cutoffCached := 0#32 }

/-- IIR_CONNECT (R141). -/
def execIirConnect (s : State) : Result := respond 0#32 { s with iir := iirRest s.iir }

/-- IIR_DISCONNECT (R142). -/
def execIirDisconnect (s : State) : Result := respond 0#32 { s with iir := iirRest s.iir }

/-- The recompute of the coefficients at the start of IIR_PROCESS (R147). -/
def iirRecompute (c : Cfg) (u : Iir) : Iir :=
  if u.cutoff = u.cutoffCached then u
  else
    { u with
      fb := word32 (coefFn c u.cutoff.toNat)
      ff := word32 (2147483648 - coefFn c u.cutoff.toNat)
      cutoffCached := u.cutoff }

/-- `y'` of IirStep: the exact multiply-accumulate, rounded half up, back to Q1.31 (R152). -/
def iirNextY (x y fb ff : Int) : Int := asr (ff * x * 65536 + fb * y + 1073741824) 31

/-- `lp` of IirStep: `y'` truncated to the sample (R152). -/
def iirLowPass (y' : Int) : Int := asr y' 16

/-- `q` of IirStep: the high-pass complement before saturation (R152). -/
def iirHighPass (delay : Bool) (x xprev lp : Int) : Int := (if delay then xprev else x) - lp

/-- IirStep's output sample and whether it saturated (R152). -/
def iirOut (c : Cfg) (u : Iir) (x : Sample) (y' : Int) : Sample × Bool :=
  match u.mode with
  | .lowPass => (sample16 (iirLowPass y'), false)
  | .highPass =>
    let q := iirHighPass c.iirHpDelay x.toInt u.xprev.toInt (iirLowPass y')
    (sample16 (sat16 q), q != sat16 q)

/-- The unit's `y'` for one sample (R152). -/
def iirY (u : Iir) (x : Sample) : Int := iirNextY x.toInt u.y.toInt u.fb.toInt u.ff.toInt

/-- One sample through the unit: the output, the unit's new state, the saturation count (R152, R155).
DESIGN CHOICE (log 11), unsafe only in states no run reaches: a `y'` outside 32 bits is stored wrapped. -/
def iirStep (c : Cfg) (u : Iir) (sat : Word) (x : Sample) : Sample × Iir × Word :=
  ((iirOut c u x (iirY u x)).1,
   { u with y := word32 (iirY u x), xprev := x },
   countIf (iirOut c u x (iirY u x)).2 sat)

/-- The samples of a block through the unit, in order (R155). -/
def iirRun (c : Cfg) (u : Iir) (sat : Word) : List Sample → List Sample × Iir × Word
  | [] => ([], u, sat)
  | x :: xs =>
    let first := iirStep c u sat x
    let more := iirRun c first.2.1 first.2.2 xs
    (first.1 :: more.1, more.2)

/-- IIR_PROCESS's effect on the state (R155). Writing the outputs after the whole run is the same as
writing each after its sample, in place too (R156). DEDUCED (log 16), safe. -/
def iirProcess (dst : Nat) (xs : List Sample) (s : State) : State :=
  let run := iirRun s.cfg (iirRecompute s.cfg s.iir) s.satCnt xs
  writeBlock { s with iir := run.2.1, satCnt := run.2.2 } dst run.1

/-- IIR_PROCESS bS, bD (R155). -/
def execIirProcess (src dst : Nat) (s : State) : Result :=
  withBlock src s (withBlock dst s (withSamples src s (fun xs => respond 0#32 (iirProcess dst xs s))))

end Sys2Proof.Machine
end

