-- ==== Sys2Proof/Machine/Dispatch.lean ====
section
/-! DEFINITION. The meaning of every command, one arm per constructor. -/

namespace Sys2Proof.Machine

open Sys2Proof

def exec (i : Instr) (s : State) : Host.Outcome State Fault Refusal :=
  match i with
  | .inInit => Sys2Proof.Machine.execInInit s
  | .inStart => Sys2Proof.Machine.execInStart s
  | .inGetBlock dst => Sys2Proof.Machine.execInGetBlock dst s
  | .outInit => Sys2Proof.Machine.execOutInit s
  | .outStart => Sys2Proof.Machine.execOutStart s
  | .outPutBlock src => Sys2Proof.Machine.execOutPutBlock src s
  | .iirConnect => Sys2Proof.Machine.execIirConnect s
  | .iirDisconnect => Sys2Proof.Machine.execIirDisconnect s
  | .iirProcess src dst => Sys2Proof.Machine.execIirProcess src dst s
  | .cicConnect => Sys2Proof.Machine.execCicConnect s
  | .cicDisconnect => Sys2Proof.Machine.execCicDisconnect s
  | .cicProcess src dst => Sys2Proof.Machine.execCicProcess src dst s
  | .firConnect => Sys2Proof.Machine.execFirConnect s
  | .firDisconnect => Sys2Proof.Machine.execFirDisconnect s
  | .firProcess src dst => Sys2Proof.Machine.execFirProcess src dst s
  | .csrRead csr => Sys2Proof.Machine.execCsrRead csr s
  | .csrWrite csr data => Sys2Proof.Machine.execCsrWrite csr data s
  | .contMask => Sys2Proof.Machine.execContMask s
  | .contUnmask => Sys2Proof.Machine.execContUnmask s
  | .contDone => Sys2Proof.Machine.execContDone s
  | .blkRead blk idx => Sys2Proof.Machine.execBlkRead blk idx s
  | .blkWrite blk idx data => Sys2Proof.Machine.execBlkWrite blk idx data s

end Sys2Proof.Machine
end

