-- ==== Sys2Proof/Machine/Step.lean ====
section
/-! DEFINITION. One step of the machine: one atomic step of one agent (R78). -/

namespace Sys2Proof.Machine

open Sys2Proof

/-- One step. A configuration that breaks R9 is refused (R247), here and in no command's meaning.
DESIGN CHOICE (log 19), safe. -/
def step (s : State) : Host.Outcome State Fault Refusal :=
  if admits s.cfg then
    match turn s with
    | .moved t => .next t
    | .command i t => exec i t
  else .refused .badConfig

/-- `s` with the opcode table's instruction of bits `w` as the host's next command (log 3). -/
def State.withFetchWord (s : State) (nbits w : Nat) : State := sendTableWord s nbits w

end Sys2Proof.Machine
end

