-- ==== Sys2Proof/Machine/HostRun.lean ====
section
/-! DEFINITION. The host: its contexts (R251), its programs (R274, R275), and the run of a host program, its end
and its observation (R277). -/

namespace Sys2Proof.Machine

open Sys2Proof

/-- The host's contexts (R251). -/
inductive Context where
  /-- The background context BG. -/
  | background
  /-- The continuation context CONT. -/
  | continuation
  deriving DecidableEq, Repr

/-- The context the host issues commands from (R251). -/
def hostContext (s : State) : Context := if s.contActive then .continuation else .background

/-- The effect units a chain can name (R274). -/
inductive Effect where
  | iir
  | cic
  | fir
  deriving DecidableEq, Repr

/-- A unit's PROCESS command (R274). -/
def processCommand : Effect → Nat → Nat → Instr
  | .iir, src, dst => .iirProcess src dst
  | .cic, src, dst => .cicProcess src dst
  | .fir, src, dst => .firProcess src dst

/-- A unit's CONNECT command (R275). -/
def connectCommand : Effect → Instr
  | .iir => .iirConnect
  | .cic => .cicConnect
  | .fir => .firConnect

/-- A unit's DISCONNECT command (R275). -/
def disconnectCommand : Effect → Instr
  | .iir => .iirDisconnect
  | .cic => .cicDisconnect
  | .fir => .firDisconnect

/-- The PROCESS commands of a chain in ascending slot order, from buffer `b` on (R274). -/
def chainCommands : List Effect → Nat → List Instr
  | [], _ => []
  | e :: rest, b => processCommand e b (b + 1) :: chainCommands rest (b + 1)

/-- The audio cycle program (R274). -/
def cycleProgram (chain : List Effect) : List Instr :=
  .inGetBlock 0 :: chainCommands chain 0 ++ [.outPutBlock chain.length, .contDone]

/-- The hot-swap program for a slot that changes from unit `x` to unit `y` (R275). -/
def hotSwapProgram (x y : Effect) : List Instr :=
  [.contMask, disconnectCommand x, connectCommand y, .contUnmask]

/-- The boot order for chosen parameters, with no draw failing (R274). -/
def bootProgram (cutoff mode : Word) : List Instr :=
  [.csrWrite 0x11 cutoff, .csrWrite 0x10 mode, .iirConnect, .cicConnect, .firConnect,
   .inInit, .outInit, .inStart, .outStart]

/-- What a host program does next in the background context: send a command's words, or let the cycle program
name another chain from then on (step 5 of R275). -/
inductive HostItem where
  | command (words : List Word)
  | chain (effects : List Effect)
  deriving DecidableEq, Repr

/-- A host program (R277): the commands for the BG context, and the chain of the cycle program that answers
every dispatch (R274). -/
structure HostProgram where
  items : List HostItem
  effects : List Effect
  deriving DecidableEq, Repr

/-- Commands as items of a host program. -/
def hostItems (is : List Instr) : List HostItem := is.map (fun i => .command (encode i))

/-- The hot swap as items of a host program: the chain changes between the CONNECT and the CONT_UNMASK (R275). -/
def hotSwapItems (x y : Effect) (chain : List Effect) : List HostItem :=
  hostItems [.contMask, disconnectCommand x, connectCommand y] ++ [.chain chain] ++ hostItems [.contUnmask]

/-- A host running its program: the machine, what is left of the BG items, the chain in force, and what is
left of the cycle program in the active cycle (R277). The host is no part of the block's state (R22). -/
structure HostRun where
  machine : State
  items : List HostItem
  effects : List Effect
  cycle : List Instr
  deriving DecidableEq, Repr

/-- The start of a host program's run on a machine. -/
def hostStart (p : HostProgram) (s : State) : HostRun :=
  { machine := s, items := p.items, effects := p.effects, cycle := [] }

/-- The environment lets the host move next. -/
def hostMovesNext (s : State) : Bool :=
  match s.moves with
  | [] => true
  | .host :: _ => true
  | .inputEngine _ :: _ => false
  | .outputEngine :: _ => false
  | .dispatch :: _ => false
  | .evict _ :: _ => false

/-- The next BG command's words, the items after it, and the chain then in force. -/
def nextItem : List HostItem → List Effect → Option (List Word × List HostItem × List Effect)
  | [], _ => none
  | .command ws :: rest, es => some (ws, rest, es)
  | .chain es :: rest, _ => nextItem rest es

/-- The host sends its next BG command, if one is left (R251, R277). -/
def sendItem (h : HostRun) : HostRun :=
  match nextItem h.items h.effects with
  | none => h
  | some (ws, rest, es) => { h with machine := { h.machine with inbox := ws }, items := rest, effects := es }

/-- The host sends the next command of the cycle program, if one is left (R251, R274). -/
def sendCycle (h : HostRun) : HostRun :=
  match h.cycle with
  | [] => h
  | i :: rest => { h with machine := { h.machine with inbox := encode i }, cycle := rest }

/-- The host sends its next command when it moves next, has nothing in the inbox, and no dispatch goes before
it (R253): from the cycle program in CONT, from the BG items in BG (R251, R277).
DESIGN CHOICE (log 21), safe. -/
def hostSend (h : HostRun) : HostRun :=
  if hostMovesNext h.machine && h.machine.inbox.isEmpty && !dispatchEnabled h.machine then
    match hostContext h.machine with
    | .continuation => sendCycle h
    | .background => sendItem h
  else h

/-- The run after a step of its machine to `t`: a dispatch is answered by the cycle program of the chain in
force (R274, R277). -/
def hostAfter (h : HostRun) (t : State) : HostRun :=
  { h with
    machine := t
    cycle := if t.contActive && !h.machine.contActive then cycleProgram h.effects else h.cycle }

/-- One step of a host program's run. -/
def hostStep (h : HostRun) : Host.Outcome HostRun Fault Refusal :=
  match step (hostSend h).machine with
  | .next t => .next (hostAfter (hostSend h) t)
  | .fault f => .fault f
  | .refused r => .refused r

/-- The run has ended: its last BG command has been answered, no cycle is active and no dispatch is enabled (R277). -/
def runEnded (h : HostRun) : Bool :=
  (nextItem h.items h.effects).isNone && h.machine.inbox.isEmpty && !h.machine.contActive && !dispatchEnabled h.machine

/-- Go on from an outcome: a fault or a refusal is where the run stops (R245, R247). -/
def hostThen (o : Host.Outcome HostRun Fault Refusal) (k : HostRun → Host.Outcome HostRun Fault Refusal) :
    Host.Outcome HostRun Fault Refusal :=
  match o with
  | .next h => k h
  | .fault f => .fault f
  | .refused r => .refused r

/-- The run to its end, the first state in which it has ended, in at most `n` steps (R277). -/
def hostRun : Nat → HostRun → Host.Outcome HostRun Fault Refusal
  | 0, h => .next h
  | n + 1, h => if runEnded h then .next h else hostThen (hostStep h) (hostRun n)

/-- The assigned CSRs, in the order of R40. -/
def assignedCsrs : List Csr :=
  [.status, .err, .underrunCnt, .overrunCnt, .satCnt, .inPos, .outPos, .iirCtrl, .iirCutoff, .iirCutoffCached,
   .iirFb, .iirFf, .iirY, .iirXprev, .cicCfg, .firHead, .firLen, .firGain]

/-- The observation of a run (R277): the CSRs, the block cells and the sink. -/
structure Observation where
  csrs : List (Csr × Word)
  cells : List (List (Option Sample))
  sink : List (List Sample)
  deriving DecidableEq, Repr

/-- The observation of a state (R277). -/
def observe (s : State) : Observation :=
  { csrs := assignedCsrs.map (fun c => (c, csrValue s c)), cells := s.blk, sink := s.sink }

/-- The observation of a run that has ended; none before (R277). -/
def runObservation (h : HostRun) : Option Observation := if runEnded h then some (observe h.machine) else none

end Sys2Proof.Machine
end

