-- ==== Sys2Proof/Safety.lean ====
section
/-! DEFINITION. The terms claims use: the invariants of the state record (R23, R33, R79, R128), the rows of the
opcode table, and the units' reference forms in unbounded integers (R184, R203). -/

namespace Sys2Proof.Machine

open Sys2Proof

/-- Every cell of block buffer `b` has been written, and there are `N` of them (R30, R31). -/
def blockWritten (s : State) (b : Nat) : Bool :=
  (blockCells s b).length == s.cfg.n && (blockCells s b).all Option.isSome

/-- The block buffer file has its shape: NBLK buffers of N cells (R30). -/
def blocksShaped (s : State) : Bool :=
  s.blk.length == s.cfg.nblk && s.blk.all (fun b => b.length == s.cfg.n)

/-- The CIC arrays have `k` words each, the FIR history `L` samples, and the head is in range (R23, R34, R35). -/
def unitsShaped (s : State) : Bool :=
  s.cic.ic.length == s.cfg.cicK && s.cic.ii.length == s.cfg.cicK && s.cic.di.length == s.cfg.cicK
    && s.cic.dc.length == s.cfg.cicK && s.fir.hist.length == s.cfg.firL && s.fir.head < s.cfg.firL

/-- The engines' positions are in `0 .. 2N-1`, and software's half is the one the output engine is not
reading (R23, R128). -/
def adaptersOk (s : State) : Bool :=
  s.inPos < 2 * s.cfg.n && s.outPos < 2 * s.cfg.n
    && (s.outState == .uninit || halfNumber s.outTarget == 1 - s.outPos / s.cfg.n)
    && (s.outState != .init || s.outPos == 0)

/-- The IIR state's bounds, and the coefficients once computed: R33 with the legal cutoff of R43. -/
def iirOk (s : State) : Bool :=
  decide (s.iir.y.toInt ≤ 2147418112) && cutoffLegal s.cfg s.iir.cutoff
    && (s.iir.cutoffCached == 0#32
      || decide (1 ≤ s.iir.fb.toInt ∧ s.iir.fb.toInt ≤ 2147483647 ∧ s.iir.ff.toInt + s.iir.fb.toInt = 2147483648))

/-- Every valid line holds CACHE_LINE bytes, the lines rise, and with no cache there is none (R70). -/
def cacheOk (s : State) : Bool :=
  cacheWf s.cache && s.cache.all (fun l => l.data.length == s.cfg.cacheLine)
    && (s.cfg.cachePresent || s.cache.isEmpty)

/-- A byte address lies in the input DMA region (R64). -/
def inInRegion (c : Cfg) (a : Nat) : Bool := c.inBase ≤ a && a < c.inBase + 2 * inHalfBytes c

/-- A byte address lies in the output DMA region (R65). -/
def inOutRegion (c : Cfg) (a : Nat) : Bool := c.outBase ≤ a && a < c.outBase + 2 * outHalfBytes c

/-- A byte address lies in half `h` of the output region (R65). -/
def inOutHalf (c : Cfg) (h : Half) (a : Nat) : Bool :=
  outHalfBase c h ≤ a && a < outHalfBase c h + outHalfBytes c

/-- Block buffer `b` holds the `N` samples `x 0, x 1, …, x (N-1)`, all written (R30, R31). -/
def blockHolds (s : State) (b : Nat) (x : Nat → Sample) : Prop :=
  (blockCells s b).length = s.cfg.n ∧ ∀ i < s.cfg.n, blockCell s b i = some (x i)

/-- The lowest unwritten index of block buffer `b` is `k` (R245). -/
def lowestUnwritten (s : State) (b k : Nat) : Prop :=
  k < (blockCells s b).length ∧ blockCell s b k = none ∧ ∀ j < k, blockCell s b j ≠ none

/-- The match and mask columns of R97, one pair per row. -/
def opcodeRows : List (Word × Word) :=
  [(0x01000000#32, 0xFFFFFFFF#32), (0x02000000#32, 0xFFFFFFFF#32), (0x03000000#32, 0xFFF0FFFF#32),
   (0x04000000#32, 0xFFFFFFFF#32), (0x05000000#32, 0xFFFFFFFF#32), (0x06000000#32, 0xFF0FFFFF#32),
   (0x10000000#32, 0xFFFFFFFF#32), (0x11000000#32, 0xFFFFFFFF#32), (0x12000000#32, 0xFF00FFFF#32),
   (0x20000000#32, 0xFFFFFFFF#32), (0x21000000#32, 0xFFFFFFFF#32), (0x22000000#32, 0xFF00FFFF#32),
   (0x30000000#32, 0xFFFFFFFF#32), (0x31000000#32, 0xFFFFFFFF#32), (0x32000000#32, 0xFF00FFFF#32),
   (0x40000000#32, 0xFF00FFFF#32), (0x41000000#32, 0xFF00FFFF#32), (0x42000000#32, 0xFFFFFFFF#32),
   (0x43000000#32, 0xFFFFFFFF#32), (0x44000000#32, 0xFFFFFFFF#32), (0x45000000#32, 0xFF0F0000#32),
   (0x46000000#32, 0xFF0F0000#32)]

/-- A first word selects some row of R97. -/
def inOpcodeTable (w : Word) : Prop := ∃ row ∈ opcodeRows, w &&& row.2 = row.1

/-- The cascade of combs in unbounded integers (R184). -/
def combsExact : List Int → Int → List Int × Int
  | [], v => ([], v)
  | d :: rest, v => (v :: (combsExact rest (v - d)).1, (combsExact rest (v - d)).2)

/-- The cascade of integrators in unbounded integers (R184). -/
def integratorsExact : List Int → Int → List Int × Int
  | [], u => ([], u)
  | a :: rest, u => ((a + u) :: (integratorsExact rest (a + u)).1, (integratorsExact rest (a + u)).2)

/-- The CIC unit's four arrays in unbounded integers (R184). -/
structure CicExact where
  ic : List Int
  ii : List Int
  di : List Int
  dc : List Int
  deriving DecidableEq, Repr

/-- The unit at rest in unbounded integers: `k` zeros in each array. -/
def cicRestExact (c : Cfg) : CicExact :=
  { ic := List.replicate c.cicK 0, ii := List.replicate c.cicK 0, di := List.replicate c.cicK 0,
    dc := List.replicate c.cicK 0 }

/-- Slot `p` of the loop of R174 in unbounded integers: the comb output `v` in slot 0 and zeros in the others,
the integrators, `floor(u / R^(k-1))`, the clip, the decimator's integrators. Answers the unit and `w`. -/
def cicSlotExact (c : Cfg) (v : Int) (q : CicExact) (p : Nat) : CicExact × Int :=
  let up := integratorsExact q.ii (if p = 0 then v else 0)
  let down := integratorsExact q.di (clip c.clipT1 c.clipT2 (up.2 / (2 ^ c.cicR) ^ (c.cicK - 1)))
  ({ q with ii := up.1, di := down.1 }, down.2)

/-- The loop of R174 in unbounded integers: the combs, the `R` slots in order, and from the last slot's `w` the
decimator's combs and `floor(z / R^k)`. -/
def cicStepExact (c : Cfg) (q : CicExact) (x : Int) : Int × CicExact :=
  let ups := combsExact q.ic x
  let slots := (List.range (2 ^ c.cicR)).foldl (fun s p => cicSlotExact c ups.2 s.1 p) ({ q with ic := ups.1 }, 0)
  let downs := combsExact slots.1.dc slots.2
  (downs.2 / (2 ^ c.cicR) ^ c.cicK, { slots.1 with dc := downs.1 })

/-- The samples through the unit in unbounded integers, in order. -/
def cicRunExact (c : Cfg) (q : CicExact) : List Sample → List Int × CicExact
  | [] => ([], q)
  | x :: xs =>
    ((cicStepExact c q x.toInt).1 :: (cicRunExact c (cicStepExact c q x.toInt).2 xs).1,
     (cicRunExact c (cicStepExact c q x.toInt).2 xs).2)

/-- The 32-bit unit that an exact one is congruent to (R184). -/
def cicWrapped (q : CicExact) : Cic :=
  { ic := q.ic.map word32, ii := q.ii.map word32, di := q.di.map word32, dc := q.dc.map word32 }

/-- The unit before high-rate slot `p` of a sample whose comb output is `v` (R174). -/
def cicBeforeSlot (c : Cfg) (q : Cic) (v : Word) : Nat → Cic
  | 0 => q
  | p + 1 => (cicSlot c (cicBeforeSlot c q v p) (if p = 0 then v else 0#32)).1

/-- The interpolator's last integrator output `u` in high-rate slot `p` (R174, R185). -/
def cicUp (c : Cfg) (q : Cic) (v : Word) (p : Nat) : Word :=
  (integrators (cicBeforeSlot c q v p).ii (if p = 0 then v else 0#32)).2

/-- The exact convolution sum of R203 at sample `n` of an input from rest: tap `j` against the input `j`
samples earlier, each term truncated, zero before the start (R208, R211). -/
def convolution (taps : List Word) (xs : List Sample) (n : Nat) : Int :=
  ((List.range taps.length).map (fun j =>
    if j ≤ n then asr ((taps.getD j 0#32).toInt * (xs.getD (n - j) 0#16).toInt) 16 else 0)).sum

end Sys2Proof.Machine
end

