-- ==== Sys2Proof/Certificates/Slice0/Obligations.lean ====
section
/-! DEFINITION. The statements for the provers, from the numbered rules of spec/. -/

open Sys2Proof Sys2Proof.Machine

/-! ### Reset and the step -/

/-- R271: the state after reset, under every configuration. Region memory is left unspecified there (R272). -/
def Obligations.ResetState : Prop :=
  ∀ c : Cfg,
    let s := State.resetOf c
    s.err = 0 ∧ s.underrunCnt = 0 ∧ s.overrunCnt = 0 ∧ s.satCnt = 0
    ∧ s.contPending = false ∧ s.contActive = false ∧ s.contMasked = false
    ∧ s.inState = .uninit ∧ s.outState = .uninit ∧ s.inPos = 0 ∧ s.outPos = 0
    ∧ s.outTarget = .half1 ∧ s.fresh0 = true ∧ s.fresh1 = true
    ∧ s.blk.length = c.nblk ∧ (∀ b i, blockCell s b i = none)
    ∧ s.iir.y = 0 ∧ s.iir.xprev = 0 ∧ s.iir.cutoffCached = 0 ∧ s.iir.fb = 0 ∧ s.iir.ff = 0
    ∧ s.iir.cutoff = c.iirCutoffReset ∧ s.iir.mode = c.iirModeReset
    ∧ (∀ v ∈ s.cic.ic ++ s.cic.ii ++ s.cic.di ++ s.cic.dc, v = 0)
    ∧ (∀ v ∈ s.fir.hist, v = 0) ∧ s.fir.head = 0
    ∧ s.cache = [] ∧ s.sink = []

/-- The invariants below hold of the state after reset, under every admitted configuration. -/
def Obligations.ResetMeetsInvariants : Prop :=
  ∀ c : Cfg, admits c = true →
    let s := State.resetOf c
    Memory.wf s.mem = true ∧ cacheOk s = true ∧ blocksShaped s = true ∧ unitsShaped s = true
    ∧ adaptersOk s = true ∧ iirOk s = true ∧ s.err.toNat ≤ 7

/-- On the host's turn, with no dispatch enabled, a step is the decoded command's meaning in the state whose
inbox and moves have lost what the command took (R4, R78, R253). -/
def Obligations.StepRunsDecodedCommand : Prop :=
  ∀ (s : State) (i : Instr) (ws : List Word) (ms : List Move),
    admits s.cfg = true → dispatchEnabled s = false → decode s.inbox = .command i ws →
    (s.moves = .host :: ms → step s = exec i { s with inbox := ws, moves := ms })
    ∧ (s.moves = [] → step s = exec i { s with inbox := ws, moves := [] })

/-- R94, R99, R100, R241: on the host's turn (the model's own, with the inbox and the moves: log 2, log 3,
log 18), a first word that selects no row of R97 is answered `(E_ILLEGAL, w)`, changes nothing but `S.err`, and
takes its DATA word exactly when OPC is 0x41 or 0x46; while that DATA word has not come the block waits (log 3). -/
def Obligations.IllegalWordRejected : Prop :=
  ∀ (s : State) (w : Word) (rest : List Word),
    admits s.cfg = true → dispatchEnabled s = false → (s.moves = [] ∨ ∃ ms, s.moves = .host :: ms) →
    s.inbox = w :: rest → ¬ inOpcodeTable w →
    let two := w.extractLsb' 24 8 = 0x41#8 ∨ w.extractLsb' 24 8 = 0x46#8
    ((two → rest ≠ []) → step s = .next { s with
      moves := s.moves.tail
      inbox := if two then rest.tail else rest
      err := 0x01#8
      responses := s.responses ++ [{ status := .eIllegal, data := w }] })
    ∧ (two → rest = [] → step s = .next { s with moves := s.moves.tail })

/-- The constraints of R9 (R66, R67, R150, R173, R178, R197 among them) spelled out, and R247: a configuration
that breaks one is refused. That every step refuses it and no command's meaning checks it again is the model's
choice (log 19); that COEF_FN is a table of departures is log 10, that the bases are even is log 13. -/
def Obligations.RefusedExactlyForBadConfiguration : Prop :=
  (∀ c : Cfg, admits c = true ↔
    (2 ≤ c.fs ∧ 1 ≤ c.n ∧ c.n ≤ 65536 ∧ 2 ≤ c.nblk ∧ c.nblk ≤ 16 ∧ 1 ≤ c.adcBits ∧ c.adcBits ≤ 16
      ∧ 1 ≤ c.outCh ∧ c.outCh ≤ 8)
    ∧ ((∃ j, c.cacheLine = 2 ^ j) ∧ 2 * c.n % c.cacheLine = 0 ∧ 2 * c.n * c.outCh % c.cacheLine = 0
      ∧ c.inBase % c.cacheLine = 0 ∧ c.outBase % c.cacheLine = 0 ∧ c.inBase % 2 = 0 ∧ c.outBase % 2 = 0
      ∧ c.inBase + 4 * c.n ≤ 2 ^ 32 ∧ c.outBase + 4 * c.n * c.outCh ≤ 2 ^ 32
      ∧ (c.inBase + 4 * c.n ≤ c.outBase ∨ c.outBase + 4 * c.n * c.outCh ≤ c.inBase))
    ∧ (1 ≤ c.iirCutoffReset.toNat ∧ c.iirCutoffReset.toNat ≤ c.fs / 2
      ∧ ∀ p ∈ c.coefDev, 1 ≤ p.1 ∧ p.1 ≤ c.fs / 2 ∧ 1 ≤ p.2 ∧ p.2 ≤ 2 ^ 31 - 1
        ∧ |(p.2 : Rat) - coefIdeal c.fs p.1| ≤ 1)
    ∧ (1 ≤ c.cicK ∧ c.cicK ≤ 16 ∧ c.cicR ≤ 16 ∧ c.cicK * c.cicR ≤ 16
      ∧ 0 < c.clipT1 ∧ c.clipT1 < c.clipT2 ∧ c.clipT2 ≤ 32767 ∧ c.clipT1 + c.clipT2 = 32767)
    ∧ (1 ≤ c.firTaps.length ∧ c.firTaps.length ≤ 65536
      ∧ (c.firTaps.map (fun t => |t.toInt|)).sum ≤ 2 ^ 32 - 2 * (c.firTaps.length : Int)
      ∧ 1 ≤ c.firGain ∧ c.firGain ≤ 65536))
  ∧ ∀ s : State,
    (admits s.cfg = false → step s = .refused .badConfig)
    ∧ (∀ r, step s = .refused r → admits s.cfg = false)
    ∧ ∀ i r, exec i s ≠ .refused r

/-- R253: when the dispatch is enabled, and that it is then taken on the host's turn before any command, and on
its own move; it changes the two bits only. The host's turn, which is kept for the next step, and the dispatch's
move are the model's own (log 2, log 18). -/
def Obligations.DispatchBeforeHostCommand : Prop :=
  ∀ s : State,
    (dispatchEnabled s = true ↔ s.contPending = true ∧ s.contMasked = false ∧ s.contActive = false)
    ∧ (admits s.cfg = true → dispatchEnabled s = true →
      ((s.moves = [] ∨ ∃ ms, s.moves = .host :: ms) →
        step s = .next { s with contPending := false, contActive := true })
      ∧ (∀ ms, s.moves = .dispatch :: ms →
        step s = .next { s with moves := ms, contPending := false, contActive := true }))

/-! ### Encoding -/

/-- R91 to R97: decoding the words of any well-formed command gives it back, whatever follows. -/
def Obligations.DecodeEncodeRoundTrip : Prop :=
  ∀ (i : Instr) (rest : List Word), i.wellFormed = true → decode (encode i ++ rest) = .command i rest

/-- R93, R95, R99: every legal command has one encoding: what decodes to a command is the command's words. -/
def Obligations.EncodeDecodeRoundTrip : Prop :=
  ∀ (ws : List Word) (i : Instr) (rest : List Word),
    decode ws = .command i rest → i.wellFormed = true ∧ ws = encode i ++ rest

/-- R97: with its DATA word at hand, a first word decodes to a command exactly when it selects a row. -/
def Obligations.DecodeAgreesWithOpcodeTable : Prop :=
  ∀ (w d : Word) (rest : List Word),
    (∃ i ws, decode (w :: d :: rest) = .command i ws) ↔ inOpcodeTable w

/-- R104: the encoding examples. -/
def Obligations.SpecWordsDecode : Prop :=
  decode [0x03020000#32] = .command (.inGetBlock 2) []
  ∧ decode [0x12010000#32] = .command (.iirProcess 0 1) []
  ∧ decode [0x06300000#32] = .command (.outPutBlock 3) []
  ∧ decode [0x41110000#32, 0x000003E8#32] = .command (.csrWrite 0x11 1000#32) []
  ∧ decode [0x46100005#32, 0x0000FFFE#32] = .command (.blkWrite 1 5 0x0000FFFE#32) []
  ∧ decode [0x40010000#32] = .command (.csrRead 0x01) []

/-! ### Memory and the cache -/

/-- R61, R62: a little-endian read of what was written gives it back, and a write leaves every other byte alone. -/
def Obligations.MemoryReadAfterWrite : Prop :=
  ∀ (m : Memory) (a n v : Nat),
    memRead (memWrite m a n v) a n = v % 256 ^ n
    ∧ ∀ b, (b < a ∨ a + n ≤ b) → memByte (memWrite m a n v) b = memByte m b

/-- Every step keeps region memory in its canonical form. -/
def Obligations.StepKeepsMemoryCanonical : Prop :=
  ∀ s t : State, Memory.wf s.mem = true → step s = .next t → Memory.wf t.mem = true

/-- Every step keeps the cache's form: rising lines of CACHE_LINE bytes, none without a cache (R70). -/
def Obligations.StepKeepsCacheForm : Prop :=
  ∀ s t : State, cacheOk s = true → step s = .next t → cacheOk t = true

/-- No line is dirty between steps: what a host write dirties (R72) its command cleans (R75, R121). -/
def Obligations.StepKeepsCacheClean : Prop :=
  ∀ s t : State, cacheOk s = true → blocksShaped s = true → (∀ l ∈ s.cache, l.dirty = false) →
    step s = .next t → ∀ l ∈ t.cache, l.dirty = false

/-- R73: evicting a valid line copies its bytes to memory if it is dirty and makes it invalid; a line that is
not valid is not evicted. -/
def Obligations.EvictionWritesBack : Prop :=
  ∀ (s : State) (la : Nat) (ms : List Move), admits s.cfg = true → s.moves = .evict la :: ms →
    (cacheFind s.cache la = none → step s = .next { s with moves := ms })
    ∧ (∀ l, cacheFind s.cache la = some l →
      ∃ m, step s = .next { s with moves := ms, mem := m, cache := s.cache.filter (fun k => k.la != la) }
        ∧ (l.dirty = false → m = s.mem)
        ∧ (l.dirty = true →
          (∀ i < l.data.length, memByte m (la * s.cfg.cacheLine + i) = l.data.getD i 0)
          ∧ ∀ a, (a < la * s.cfg.cacheLine ∨ la * s.cfg.cacheLine + l.data.length ≤ a) →
            memByte m a = memByte s.mem a))

/-! ### The adapters and the engines -/

/-- R111, the succeeding draw (an empty list of draws counts as one, log 4, and none is then used up): IN_INIT
zeroes the input region and nothing else of memory, invalidates its lines, resets the position; the adapter is
INIT. -/
def Obligations.InInitCompletes : Prop :=
  ∀ s : State, admits s.cfg = true → cacheOk s = true → s.inState = .uninit → s.initDraws.headD true = true →
    ∃ m k, exec .inInit s = .next { s with
        mem := m, cache := k, inPos := 0, inState := .init, initDraws := s.initDraws.tail
        responses := s.responses ++ [{ status := .ok, data := 0 }] }
      ∧ (∀ a, memByte m a = if inInRegion s.cfg a = true then 0 else memByte s.mem a)
      ∧ (∀ l, l ∈ k ↔ l ∈ s.cache ∧ inInRegion s.cfg (l.la * s.cfg.cacheLine) = false)

/-- R118, the succeeding draw (an empty list of draws counts as one, log 4, and none is then used up): OUT_INIT
zeroes the output region and nothing else of memory, invalidates its lines, targets half 1 and primes both
halves; the adapter is INIT. -/
def Obligations.OutInitCompletes : Prop :=
  ∀ s : State, admits s.cfg = true → cacheOk s = true → s.outState = .uninit → s.initDraws.headD true = true →
    ∃ m k, exec .outInit s = .next { s with
        mem := m, cache := k, outPos := 0, outTarget := .half1, fresh0 := true, fresh1 := true
        outState := .init, initDraws := s.initDraws.tail
        responses := s.responses ++ [{ status := .ok, data := 0 }] }
      ∧ (∀ a, memByte m a = if inOutRegion s.cfg a = true then 0 else memByte s.mem a)
      ∧ (∀ l, l ∈ k ↔ l ∈ s.cache ∧ inOutRegion s.cfg (l.la * s.cfg.cacheLine) = false)

/-- R111, R118, R241: an INIT out of UNINIT is E_STATE and makes no draw; a failing draw is E_INIT and changes
nothing else of the block. -/
def Obligations.InitErrors : Prop :=
  ∀ s : State,
    (s.inState ≠ .uninit → exec .inInit s = .next { s with
      err := 0x06#8, responses := s.responses ++ [{ status := .eState, data := 0 }] })
    ∧ (s.outState ≠ .uninit → exec .outInit s = .next { s with
      err := 0x06#8, responses := s.responses ++ [{ status := .eState, data := 0 }] })
    ∧ (s.inState = .uninit → s.initDraws.headD true = false → exec .inInit s = .next { s with
      err := 0x07#8, initDraws := s.initDraws.tail
      responses := s.responses ++ [{ status := .eInit, data := 0 }] })
    ∧ (s.outState = .uninit → s.initDraws.headD true = false → exec .outInit s = .next { s with
      err := 0x07#8, initDraws := s.initDraws.tail
      responses := s.responses ++ [{ status := .eInit, data := 0 }] })

/-- R113, R120: IN_START and OUT_START start an adapter that is INIT, and are E_STATE otherwise. -/
def Obligations.StartCommands : Prop :=
  ∀ s : State,
    (s.inState = .init → exec .inStart s = .next { s with
      inPos := 0, inState := .running, responses := s.responses ++ [{ status := .ok, data := 0 }] })
    ∧ (s.inState ≠ .init → exec .inStart s = .next { s with
      err := 0x06#8, responses := s.responses ++ [{ status := .eState, data := 0 }] })
    ∧ (s.outState = .init → exec .outStart s = .next { s with
      outPos := 0, outState := .running, responses := s.responses ++ [{ status := .ok, data := 0 }] })
    ∧ (s.outState ≠ .init → exec .outStart s = .next { s with
      err := 0x06#8, responses := s.responses ++ [{ status := .eState, data := 0 }] })

/-- R116, R77: IN_GET_BLOCK fills the buffer from the bytes of memory in the half the engine is not writing,
whatever the cache held, answers the half's number, changes no memory and only that half's lines. -/
def Obligations.InGetBlockCompletes : Prop :=
  ∀ (dst : Nat) (s : State), admits s.cfg = true → dst < s.cfg.nblk → s.inState = .running →
    let h := if s.inPos < s.cfg.n then 1 else 0
    let lo := s.cfg.inBase + 2 * s.cfg.n * h
    ∃ k, exec (.inGetBlock dst) s = .next { s with
        cache := k
        blk := s.blk.set dst ((List.range s.cfg.n).map (fun i =>
          some (inTransform s.cfg.adcBits (memElem s.mem (lo + 2 * i)))))
        responses := s.responses ++ [{ status := .ok, data := BitVec.ofNat 32 h }] }
      ∧ ∀ l, (l.la * s.cfg.cacheLine < lo ∨ lo + 2 * s.cfg.n ≤ l.la * s.cfg.cacheLine) →
        (l ∈ k ↔ l ∈ s.cache)

/-- R121, R122, R77: OUT_PUT_BLOCK puts each sample into every channel slot of its frame in memory, in the half
of `S.out_target`; marks that half fresh; answers its number; changes no other byte; leaves no line of the half
valid and every other line as it was. -/
def Obligations.OutPutBlockCompletes : Prop :=
  ∀ (src : Nat) (s : State) (x : Nat → Sample), admits s.cfg = true → cacheOk s = true → src < s.cfg.nblk →
    s.outState ≠ .uninit → blockHolds s src x →
    let lo := s.cfg.outBase + 2 * s.cfg.n * s.cfg.outCh * halfNumber s.outTarget
    let len := 2 * s.cfg.n * s.cfg.outCh
    ∃ m k, exec (.outPutBlock src) s = .next { s with
        mem := m, cache := k
        fresh0 := if s.outTarget = .half0 then true else s.fresh0
        fresh1 := if s.outTarget = .half1 then true else s.fresh1
        responses := s.responses ++ [{ status := .ok, data := BitVec.ofNat 32 (halfNumber s.outTarget) }] }
      ∧ (∀ i c, i < s.cfg.n → c < s.cfg.outCh → memElem m (lo + 2 * (s.cfg.outCh * i + c)) = x i)
      ∧ (∀ a, (a < lo ∨ lo + len ≤ a) → memByte m a = memByte s.mem a)
      ∧ (∀ l, l ∈ k ↔ l ∈ s.cache ∧ (l.la * s.cfg.cacheLine < lo ∨ lo + len ≤ l.la * s.cfg.cacheLine))

/-- R116, R121, R244: outside their lifecycle states the copies are E_STATE, OUT_PUT_BLOCK even from an
unwritten buffer. -/
def Obligations.CopyStateErrors : Prop :=
  ∀ (b : Nat) (s : State), b < s.cfg.nblk →
    (s.inState ≠ .running → exec (.inGetBlock b) s = .next { s with
      err := 0x06#8, responses := s.responses ++ [{ status := .eState, data := 0 }] })
    ∧ (s.outState = .uninit → exec (.outPutBlock b) s = .next { s with
      err := 0x06#8, responses := s.responses ++ [{ status := .eState, data := 0 }] })

/-- R117: the input transform is exact for every ADC width: shift up, subtract the mid-scale, never a wrap. -/
def Obligations.InputTransformExact : Prop :=
  ∀ (adcBits : Nat) (raw : BitVec 16), 1 ≤ adcBits → adcBits ≤ 16 →
    (inTransform adcBits raw).toInt = ((raw.toNat % 2 ^ adcBits : Nat) : Int) * 2 ^ (16 - adcBits) - 32768

/-- R114, R76: an input-engine step writes its raw element little-endian at the position, advances the position
modulo 2N, and changes nothing else: no cache line, no event. -/
def Obligations.InputEngineStep : Prop :=
  ∀ (s : State) (raw : BitVec 16) (ms : List Move), admits s.cfg = true →
    s.moves = .inputEngine raw :: ms → s.inState = .running →
    let a := s.cfg.inBase + 2 * s.inPos
    ∃ m, step s = .next { s with
        moves := ms, mem := m, inPos := (s.inPos + 1) % (2 * s.cfg.n) }
      ∧ memByte m a = raw.extractLsb' 0 8 ∧ memByte m (a + 1) = raw.extractLsb' 8 8
      ∧ ∀ b, b ≠ a → b ≠ a + 1 → memByte m b = memByte s.mem b

/-- R124, R125, R76: an output-engine step emits its frame from memory. Inside a half it advances and raises no
event; the step that reads the last frame of a half runs the event: the target toggles, the finished half is no
longer fresh, an unfilled half counts an underrun, an unfinished cycle an overrun, and the continuation is
pending. -/
def Obligations.OutputEngineStep : Prop :=
  ∀ (s : State) (ms : List Move), admits s.cfg = true → s.moves = .outputEngine :: ms → s.outState = .running →
    let frame := (List.range s.cfg.outCh).map (fun c =>
      memElem s.mem (s.cfg.outBase + 2 * (s.cfg.outCh * s.outPos + c)))
    let count := fun (c : Word) (b : Bool) => BitVec.ofNat 32 (if b then min (2 ^ 32 - 1) (c.toNat + 1) else c.toNat)
    (s.outPos + 1 ≠ s.cfg.n → s.outPos + 1 ≠ 2 * s.cfg.n → step s = .next { s with
      moves := ms, sink := s.sink ++ [frame], outPos := s.outPos + 1 })
    ∧ (s.outPos + 1 = s.cfg.n → step s = .next { s with
      moves := ms, sink := s.sink ++ [frame], outPos := s.cfg.n
      outTarget := if s.outTarget = .half0 then .half1 else .half0
      fresh0 := false
      underrunCnt := count s.underrunCnt (!s.fresh1)
      overrunCnt := count s.overrunCnt (s.contPending || s.contActive)
      contPending := true })
    ∧ (s.outPos + 1 = 2 * s.cfg.n → step s = .next { s with
      moves := ms, sink := s.sink ++ [frame], outPos := 0
      outTarget := if s.outTarget = .half0 then .half1 else .half0
      fresh1 := false
      underrunCnt := count s.underrunCnt (!s.fresh0)
      overrunCnt := count s.overrunCnt (s.contPending || s.contActive)
      contPending := true })

/-- R130: the sink only grows, by one frame, in an output-engine step. -/
def Obligations.SinkGrowsByEngineOnly : Prop :=
  ∀ s t : State, step s = .next t →
    t.sink = s.sink
    ∨ (∃ ms, s.moves = .outputEngine :: ms) ∧ s.outState = .running ∧ ∃ f, t.sink = s.sink ++ [f] ∧ f.length = s.cfg.outCh

/-- R128, R23: every step keeps the engines' positions in range, software's half the one the output engine is
not reading, and an output adapter that is INIT at position 0. -/
def Obligations.StepKeepsHalfOwnership : Prop :=
  ∀ s t : State, adaptersOk s = true → step s = .next t → adaptersOk t = true

/-- R79: no command changes a byte of the half the output engine is reading while it runs. -/
def Obligations.CommandsSpareTheEngineHalf : Prop :=
  ∀ (i : Instr) (s t : State), admits s.cfg = true → cacheOk s = true → blocksShaped s = true →
    (∀ l ∈ s.cache, l.dirty = false) → adaptersOk s = true → s.outState = .running → exec i s = .next t →
    ∀ a, inOutHalf s.cfg (otherHalf s.outTarget) a = true → memByte t.mem a = memByte s.mem a

/-! ### The IIR unit -/

/-- R141, R142: CONNECT and DISCONNECT put the unit to rest and keep its coefficients, cutoff and mode. -/
def Obligations.IirConnectAndDisconnect : Prop :=
  ∀ s : State,
    let t := { s with
      iir := { s.iir with y := 0, xprev := 0, cutoffCached := 0 }
      responses := s.responses ++ [{ status := .ok, data := 0 }] }
    exec .iirConnect s = .next t ∧ exec .iirDisconnect s = .next t

/-- R155, R152, R147: IIR_PROCESS recomputes the coefficients if the cutoff changed, runs the one-pole recursion
over the source samples in exact arithmetic, writes the outputs to the destination, counts the saturated ones,
and changes nothing else. -/
def Obligations.IirProcessCompletes : Prop :=
  ∀ (src dst : Nat) (s : State) (x : Nat → Sample), admits s.cfg = true → iirOk s = true →
    src < s.cfg.nblk → dst < s.cfg.nblk → blockHolds s src x →
    let fb : Int := if s.iir.cutoff = s.iir.cutoffCached then s.iir.fb.toInt else coefFn s.cfg s.iir.cutoff.toNat
    let ff : Int := 2 ^ 31 - fb
    let before : Nat → Int := fun i => if i = 0 then s.iir.xprev.toInt else (x (i - 1)).toInt
    ∃ (y : Nat → Int) (outs : List Sample) (u : Iir) (cnt : Word),
      exec (.iirProcess src dst) s = .next { s with
        iir := u, satCnt := cnt, blk := s.blk.set dst (outs.map some)
        responses := s.responses ++ [{ status := .ok, data := 0 }] }
      ∧ y 0 = s.iir.y.toInt
      ∧ (∀ i < s.cfg.n, y (i + 1) = (ff * (x i).toInt * 2 ^ 16 + fb * y i + 2 ^ 30) / 2 ^ 31)
      ∧ outs.length = s.cfg.n
      ∧ (∀ i < s.cfg.n,
        let lp := y (i + 1) / 2 ^ 16
        let q := (if s.cfg.iirHpDelay then before i else (x i).toInt) - lp;
        (outs.getD i 0).toInt = if s.iir.mode = .lowPass then lp else max (-32768) (min 32767 q))
      ∧ u.y.toInt = y s.cfg.n ∧ u.xprev.toInt = before s.cfg.n
      ∧ u.fb.toInt = fb ∧ u.ff.toInt = ff ∧ u.mode = s.iir.mode ∧ u.cutoff = s.iir.cutoff
      ∧ u.cutoffCached = s.iir.cutoff
      ∧ cnt.toNat = min (2 ^ 32 - 1) (s.satCnt.toNat + ((List.range s.cfg.n).filter (fun i =>
          decide (s.iir.mode = .highPass ∧
            ((if s.cfg.iirHpDelay then before i else (x i).toInt) - y (i + 1) / 2 ^ 16 < -32768
            ∨ 32767 < (if s.cfg.iirHpDelay then before i else (x i).toInt) - y (i + 1) / 2 ^ 16)))).length)

/-- R33, R151, R158: every step keeps the IIR state's bound, a legal cutoff, and coefficients that sum to 2^31
once computed. -/
def Obligations.StepKeepsIirInvariant : Prop :=
  ∀ s t : State, iirOk s = true → step s = .next t → iirOk t = true

/-- R158: the low-pass bound: a state and an input in range give a state in range and an output sample in range. -/
def Obligations.IirLowPassBounded : Prop :=
  ∀ (x y fb ff : Int), -32768 ≤ x → x ≤ 32767 → -2147483648 ≤ y → y ≤ 2147418112 →
    1 ≤ fb → fb ≤ 2147483647 → ff + fb = 2147483648 →
    -2147483648 ≤ iirNextY x y fb ff ∧ iirNextY x y fb ff ≤ 2147418112
    ∧ -32768 ≤ iirLowPass (iirNextY x y fb ff) ∧ iirLowPass (iirNextY x y fb ff) ≤ 32767

/-- R160: from one start state the high-pass output plus the low-pass output of a block is the delayed input,
sample for sample, wherever the high-pass does not saturate. -/
def Obligations.IirOutputsAreComplementary : Prop :=
  ∀ (c : Cfg) (u : Iir) (sat : Word) (xs : List Sample) (n : Nat), n < xs.length →
    u.y.toInt ≤ 2147418112 → 1 ≤ u.fb.toInt → 1 ≤ u.ff.toInt → u.ff.toInt + u.fb.toInt = 2147483648 →
    let lp := ((iirRun c { u with mode := .lowPass } sat xs).1.getD n 0).toInt
    let hp := ((iirRun c { u with mode := .highPass } sat xs).1.getD n 0).toInt
    let xd := (if c.iirHpDelay then (if n = 0 then u.xprev.toInt else (xs.getD (n - 1) 0).toInt)
      else (xs.getD n 0).toInt);
    xd - lp ≤ 32767 → -32768 ≤ xd - lp → hp + lp = xd

/-- R149, R150: COEF_REF lies in `1 .. 2^31 - 1` and within one unit of the real coefficient, for every legal
cutoff; the rational that it rounds (log 9) lies within a billionth of a unit. -/
def Obligations.CoefficientNearTheExponential : Prop :=
  ∀ fs fc : Nat, 2 ≤ fs → 1 ≤ fc → fc ≤ fs / 2 →
    1 ≤ coefRef fs fc ∧ coefRef fs fc ≤ 2 ^ 31 - 1
    ∧ |((coefRef fs fc : Int) : ℝ) - Real.exp (-2 * Real.pi * (fc : ℝ) / (fs : ℝ)) * 2 ^ 31| ≤ 1
    ∧ |((coefIdeal fs fc : Rat) : ℝ) - Real.exp (-2 * Real.pi * (fc : ℝ) / (fs : ℝ)) * 2 ^ 31| ≤ 1 / 10 ^ 9

/-! ### The CIC unit -/

/-- R171, R172: CONNECT and DISCONNECT clear the four arrays. -/
def Obligations.CicConnectAndDisconnect : Prop :=
  ∀ s : State,
    let z := List.replicate s.cfg.cicK (0 : Word)
    let t := { s with
      cic := { ic := z, ii := z, di := z, dc := z }
      responses := s.responses ++ [{ status := .ok, data := 0 }] }
    exec .cicConnect s = .next t ∧ exec .cicDisconnect s = .next t

/-- R182: CIC_PROCESS runs the unit over the source samples in order, writes the outputs to the destination, and
changes nothing else: no counter, no memory. -/
def Obligations.CicProcessCompletes : Prop :=
  ∀ (src dst : Nat) (s : State) (x : Nat → Sample), src < s.cfg.nblk → dst < s.cfg.nblk → blockHolds s src x →
    ∃ (q : Nat → Cic) (outs : List Sample),
      exec (.cicProcess src dst) s = .next { s with
        cic := q s.cfg.n, blk := s.blk.set dst (outs.map some)
        responses := s.responses ++ [{ status := .ok, data := 0 }] }
      ∧ q 0 = s.cic ∧ outs.length = s.cfg.n
      ∧ ∀ i < s.cfg.n, outs.getD i 0 = (cicStep s.cfg (q i) (x i)).1 ∧ q (i + 1) = (cicStep s.cfg (q i) (x i)).2

/-- R178: the clip is odd, keeps the Sample range, and has the three segments, for every admitted pair of break
points. -/
def Obligations.ClipSegments : Prop :=
  ∀ (t1 t2 : Nat) (v : Int), 0 < t1 → t1 < t2 → t2 ≤ 32767 → t1 + t2 = 32767 →
    clip t1 t2 (-v) = -clip t1 t2 v
    ∧ -32767 ≤ clip t1 t2 v ∧ clip t1 t2 v ≤ 32767
    ∧ (0 ≤ v → v < t1 → clip t1 t2 v = 2 * v)
    ∧ ((t1 : Int) ≤ v → v < t2 → clip t1 t2 v = v + t1)
    ∧ ((t2 : Int) ≤ v → clip t1 t2 v = 32767)

/-- R182, R184: with no rate change, from rest, the whole unit is the clip alone, whatever its order. -/
def Obligations.CicRateOneIsClip : Prop :=
  ∀ (c : Cfg) (xs : List Sample), c.cicR = 0 → admitsCic c = true →
    (cicRun c (cicRest c) xs).1.map BitVec.toInt = xs.map (fun x => clip c.clipT1 c.clipT2 x.toInt)

/-- R185, R186, R184: from rest, after any input, both narrowed values are exact. In every slot of the next sample
the interpolator's last output `u` keeps its bound and its rescale is a Sample; the decimator's last comb output
`z` keeps the worst-case gain bound and the unit's output is its rescale. -/
def Obligations.CicOutputNeverWraps : Prop :=
  ∀ (c : Cfg) (xs : List Sample) (x : Sample), admitsCic c = true →
    let q := (cicRun c (cicRest c) xs).2
    let ups := combs q.ic (x.signExtend 32)
    let start := { q with ic := ups.1 }
    let slots := cicSlots c start ups.2 (2 ^ c.cicR - 1)
    let z := (combs slots.1.dc slots.2).2.toInt
    let rate : Int := 2 ^ c.cicR;
    (∀ p < 2 ^ c.cicR,
      let u := cicUp c start ups.2 p;
      -32768 * rate ^ (c.cicK - 1) ≤ u.toInt ∧ u.toInt ≤ 32767 * rate ^ (c.cicK - 1)
      ∧ cicRescaleUp c u = u.toInt / rate ^ (c.cicK - 1)
      ∧ -32768 ≤ cicRescaleUp c u ∧ cicRescaleUp c u ≤ 32767)
    ∧ -32767 * rate ^ c.cicK ≤ z ∧ z ≤ 32767 * rate ^ c.cicK
    ∧ (cicStep c q x).1.toInt = z / rate ^ c.cicK

/-- R174, R184: the 32-bit cascades are congruent modulo 2^32 to the cascades in unbounded integers; and from rest,
for every input, the unit's outputs are exactly those of the loop of R174 in unbounded integers, its four arrays
congruent to that loop's. -/
def Obligations.CicCascadesCongruent : Prop :=
  (∀ (ds : List Int) (v : Int),
    combs (ds.map word32) (word32 v) = ((combsExact ds v).1.map word32, word32 (combsExact ds v).2)
    ∧ integrators (ds.map word32) (word32 v)
      = ((integratorsExact ds v).1.map word32, word32 (integratorsExact ds v).2))
  ∧ ∀ (c : Cfg) (xs : List Sample), admitsCic c = true →
    (cicRun c (cicRest c) xs).1.map BitVec.toInt = (cicRunExact c (cicRestExact c) xs).1
    ∧ (cicRun c (cicRest c) xs).2 = cicWrapped (cicRunExact c (cicRestExact c) xs).2

/-! ### The FIR unit -/

/-- R201, R202: CONNECT and DISCONNECT clear the history and the head. -/
def Obligations.FirConnectAndDisconnect : Prop :=
  ∀ s : State,
    let t := { s with
      fir := { hist := List.replicate s.cfg.firTaps.length 0, head := 0 }
      responses := s.responses ++ [{ status := .ok, data := 0 }] }
    exec .firConnect s = .next t ∧ exec .firDisconnect s = .next t

/-- R206, R203: FIR_PROCESS writes each source sample at the head, answers the scaled and saturated sum, advances
the head, counts the saturated outputs, and changes nothing else. -/
def Obligations.FirProcessCompletes : Prop :=
  ∀ (src dst : Nat) (s : State) (x : Nat → Sample), src < s.cfg.nblk → dst < s.cfg.nblk → blockHolds s src x →
    ∃ (f : Nat → Fir) (outs : List Sample) (cnt : Word),
      exec (.firProcess src dst) s = .next { s with
        fir := f s.cfg.n, satCnt := cnt, blk := s.blk.set dst (outs.map some)
        responses := s.responses ++ [{ status := .ok, data := 0 }] }
      ∧ f 0 = s.fir ∧ outs.length = s.cfg.n
      ∧ (∀ i < s.cfg.n, (f (i + 1)).hist = (f i).hist.set (f i).head (x i)
        ∧ (f (i + 1)).head = ((f i).head + 1) % s.cfg.firTaps.length
        ∧ (outs.getD i 0).toInt = max (-32768) (min 32767 (firQ s.cfg (f i) (x i))))
      ∧ cnt.toNat = min (2 ^ 32 - 1) (s.satCnt.toNat + ((List.range s.cfg.n).filter (fun i =>
          decide (firQ s.cfg (f i) (x i) < -32768 ∨ 32767 < firQ s.cfg (f i) (x i)))).length)

/-- R203, R208, R210, R211: from rest, with an admitted kernel, the unit is the direct convolution: output `n`
is the exact sum of the truncated terms, shifted, rescaled and saturated, never wrapped. -/
def Obligations.FirIsConvolution : Prop :=
  ∀ (c : Cfg) (sat : Word) (xs : List Sample) (n : Nat), admitsFir c = true → n < xs.length →
    ((firRun c (firRest c) sat xs).1.getD n 0).toInt
      = max (-32768) (min 32767 (convolution c.firTaps xs n * 2 * (c.firGain : Int) / 2 ^ 16))

/-- R211: after `m` samples from rest the head is `m mod L`. -/
def Obligations.FirHeadRuns : Prop :=
  ∀ (c : Cfg) (sat : Word) (xs : List Sample), 1 ≤ c.firTaps.length →
    (firRun c (firRest c) sat xs).2.1.head = xs.length % c.firTaps.length

/-! ### Control, blocks and the continuation -/

/-- R216, R40, R41: a read of each assigned CSR answers its bits and changes nothing; STATUS is given by its bits. -/
def Obligations.CsrReadCompletes : Prop :=
  ∀ s : State,
    let reads := fun (n : Nat) (v : Word) =>
      exec (.csrRead n) s = .next { s with responses := s.responses ++ [{ status := .ok, data := v }] }
    (∃ v : Word, reads 0x01 v
      ∧ v.getLsbD 0 = s.contPending ∧ v.getLsbD 1 = s.contActive ∧ v.getLsbD 2 = s.contMasked
      ∧ v.getLsbD 3 = decide (s.outTarget = .half1)
      ∧ v.getLsbD 4 = decide (s.inState = .init) ∧ v.getLsbD 5 = decide (s.inState = .running)
      ∧ v.getLsbD 6 = decide (s.outState = .init) ∧ v.getLsbD 7 = decide (s.outState = .running)
      ∧ v.getLsbD 8 = s.fresh0 ∧ v.getLsbD 9 = s.fresh1 ∧ ∀ i, 10 ≤ i → v.getLsbD i = false)
    ∧ reads 0x02 (BitVec.ofNat 32 s.err.toNat) ∧ reads 0x03 s.underrunCnt ∧ reads 0x04 s.overrunCnt
    ∧ reads 0x05 s.satCnt ∧ reads 0x06 (BitVec.ofNat 32 s.inPos) ∧ reads 0x07 (BitVec.ofNat 32 s.outPos)
    ∧ reads 0x10 (if s.iir.mode = .highPass then 1 else 0) ∧ reads 0x11 s.iir.cutoff
    ∧ reads 0x12 s.iir.cutoffCached ∧ reads 0x13 s.iir.fb ∧ reads 0x14 s.iir.ff ∧ reads 0x15 s.iir.y
    ∧ reads 0x16 (BitVec.ofInt 32 s.iir.xprev.toInt)
    ∧ reads 0x20 (BitVec.ofNat 32 (s.cfg.cicK % 256 + 256 * (s.cfg.cicR % 256)))
    ∧ reads 0x30 (BitVec.ofNat 32 s.fir.head) ∧ reads 0x31 (BitVec.ofNat 32 s.cfg.firTaps.length)
    ∧ reads 0x32 (BitVec.ofNat 32 s.cfg.firGain)

/-- R217, R218: the three writable CSRs take a legal write and nothing else changes. -/
def Obligations.CsrWriteCompletes : Prop :=
  ∀ (v : Word) (s : State),
    let rs := s.responses ++ [{ status := .ok, data := 0 }]
    exec (.csrWrite 0x02 v) s = .next { s with err := 0, responses := rs }
    ∧ exec (.csrWrite 0x10 v) s = .next { s with
        iir := { s.iir with mode := if v.toNat % 2 = 1 then .highPass else .lowPass }, responses := rs }
    ∧ (1 ≤ v.toNat → v.toNat ≤ s.cfg.fs / 2 →
      exec (.csrWrite 0x11 v) s = .next { s with iir := { s.iir with cutoff := v }, responses := rs })

/-- R216, R217, R218, R43: an unassigned number is E_CSR on read and write, a write to a read-only CSR E_RO, a
cutoff outside `1 .. FS div 2` E_RANGE; each changes nothing but `S.err`. -/
def Obligations.CsrErrors : Prop :=
  ∀ (n : Nat) (v : Word) (s : State),
    let raises := fun (i : Instr) (e : Status) (code : Byte) (d : Word) =>
      exec i s = .next { s with err := code, responses := s.responses ++ [{ status := e, data := d }] }
    let assigned := [0x01, 0x02, 0x03, 0x04, 0x05, 0x06, 0x07, 0x10, 0x11, 0x12, 0x13, 0x14, 0x15, 0x16,
      0x20, 0x30, 0x31, 0x32]
    (n ∉ assigned → raises (.csrRead n) .eCsr 0x03#8 (BitVec.ofNat 32 n)
      ∧ raises (.csrWrite n v) .eCsr 0x03#8 (BitVec.ofNat 32 n))
    ∧ (n ∈ assigned → n ∉ [0x02, 0x10, 0x11] → raises (.csrWrite n v) .eRo 0x04#8 (BitVec.ofNat 32 n))
    ∧ ((v.toNat < 1 ∨ s.cfg.fs / 2 < v.toNat) → raises (.csrWrite 0x11 v) .eRange 0x05#8 v)

/-- R219: BLK_READ answers the written cell sign-extended and changes nothing. -/
def Obligations.BlkReadCompletes : Prop :=
  ∀ (b i : Nat) (x : Sample) (s : State), b < s.cfg.nblk → i < s.cfg.n → blockCell s b i = some x →
    exec (.blkRead b i) s = .next { s with
      responses := s.responses ++ [{ status := .ok, data := BitVec.ofInt 32 x.toInt }] }

/-- R220: BLK_WRITE writes the low 16 bits of DATA into the cell, changes no other cell and nothing else. -/
def Obligations.BlkWriteCompletes : Prop :=
  ∀ (b i : Nat) (d : Word) (s : State), blocksShaped s = true → b < s.cfg.nblk → i < s.cfg.n →
    ∃ blk, exec (.blkWrite b i d) s = .next { s with
        blk := blk, responses := s.responses ++ [{ status := .ok, data := 0 }] }
      ∧ blk.length = s.blk.length
      ∧ ∀ b' i', (blk.getD b' []).getD i' none
        = if b' = b ∧ i' = i then some (BitVec.ofNat 16 d.toNat) else blockCell s b' i'

/-- R95, R244: a block number `>= NBLK` is E_BLKIDX before every other check, SRC before DST; a sample index
`>= N` is E_RANGE; each changes nothing but `S.err`. -/
def Obligations.OperandErrors : Prop :=
  ∀ (b i : Nat) (d : Word) (s : State),
    let raises := fun (j : Instr) (e : Status) (code : Byte) (v : Nat) =>
      exec j s = .next { s with err := code, responses := s.responses ++ [{ status := e, data := BitVec.ofNat 32 v }] }
    (s.cfg.nblk ≤ b →
      raises (.inGetBlock b) .eBlkIdx 0x02#8 b ∧ raises (.outPutBlock b) .eBlkIdx 0x02#8 b
      ∧ raises (.blkRead b i) .eBlkIdx 0x02#8 b ∧ raises (.blkWrite b i d) .eBlkIdx 0x02#8 b
      ∧ raises (.iirProcess b i) .eBlkIdx 0x02#8 b ∧ raises (.cicProcess b i) .eBlkIdx 0x02#8 b
      ∧ raises (.firProcess b i) .eBlkIdx 0x02#8 b)
    ∧ (b < s.cfg.nblk → s.cfg.nblk ≤ i →
      raises (.iirProcess b i) .eBlkIdx 0x02#8 i ∧ raises (.cicProcess b i) .eBlkIdx 0x02#8 i
      ∧ raises (.firProcess b i) .eBlkIdx 0x02#8 i)
    ∧ (b < s.cfg.nblk → s.cfg.n ≤ i →
      raises (.blkRead b i) .eRange 0x05#8 i ∧ raises (.blkWrite b i d) .eRange 0x05#8 i)

/-- R31, R245: where no status code applies, a command that would read an unwritten cell stops the model with
F_UNWRITTEN at the lowest unwritten index of the buffer, BLK_READ at its own cell. -/
def Obligations.UnwrittenCellFaults : Prop :=
  ∀ (b d k : Nat) (s : State), b < s.cfg.nblk →
    (lowestUnwritten s b k → s.outState ≠ .uninit → exec (.outPutBlock b) s = .fault (.unwritten b k))
    ∧ (lowestUnwritten s b k → d < s.cfg.nblk →
      exec (.iirProcess b d) s = .fault (.unwritten b k) ∧ exec (.cicProcess b d) s = .fault (.unwritten b k)
      ∧ exec (.firProcess b d) s = .fault (.unwritten b k))
    ∧ (k < s.cfg.n → blockCell s b k = none → exec (.blkRead b k) s = .fault (.unwritten b k))

/-- R245: a fault is F_UNWRITTEN of a cell that is unwritten, the lowest such of its buffer but for BLK_READ. -/
def Obligations.FaultsNameAnUnwrittenCell : Prop :=
  ∀ (i : Instr) (s : State) (f : Fault), exec i s = .fault f →
    ∃ b k, f = .unwritten b k ∧ blockCell s b k = none
      ∧ (i = .blkRead b k ∨ i = .outPutBlock b
        ∨ ∃ d, i = .iirProcess b d ∨ i = .cicProcess b d ∨ i = .firProcess b d)
      ∧ (i ≠ .blkRead b k → lowestUnwritten s b k)

/-- R221, R222, R223, R255: CONT_MASK sets and CONT_UNMASK clears the mask, CONT_DONE ends the active cycle, and
nothing else changes; with no active cycle CONT_DONE is E_STATE. -/
def Obligations.ContinuationCommands : Prop :=
  ∀ s : State,
    let rs := s.responses ++ [{ status := .ok, data := 0 }]
    exec .contMask s = .next { s with contMasked := true, responses := rs }
    ∧ exec .contUnmask s = .next { s with contMasked := false, responses := rs }
    ∧ (s.contActive = true → exec .contDone s = .next { s with contActive := false, responses := rs })
    ∧ (s.contActive = false → exec .contDone s = .next { s with
      err := 0x06#8, responses := s.responses ++ [{ status := .eState, data := 0 }] })

/-! ### Whole-machine rules -/

/-- R162, R188, R212: from rest, a block of zeros through any unit gives a block of zeros (in both IIR modes, with
any coefficients), leaves the unit at rest but for the FIR head and the IIR coefficients, and counts nothing. -/
def Obligations.SilenceInSilenceOut : Prop :=
  ∀ (c : Cfg) (u : Iir) (sat : Word) (n : Nat), admits c = true →
    let zeros := List.replicate n (0 : Sample)
    let iir := iirRun c (iirRecompute c (iirRest u)) sat zeros
    let fir := firRun c (firRest c) sat zeros
    (iir.1 = zeros ∧ iir.2.1.y = 0 ∧ iir.2.1.xprev = 0 ∧ iir.2.2 = sat)
    ∧ cicRun c (cicRest c) zeros = (zeros, cicRest c)
    ∧ (fir.1 = zeros ∧ fir.2.1.hist = (firRest c).hist ∧ fir.2.2 = sat)

/-- R243: every command that ends answers one response; a failing one changes only `S.err`, and E_INIT, which only
an INIT command answers, also uses up the draw it made (log 4); a successful one does not write `S.err`, except a
write to ERR. -/
def Obligations.ErrorsArePrecise : Prop :=
  ∀ (i : Instr) (s t : State), exec i s = .next t →
    ∃ r : Response, t.responses = s.responses ++ [r]
      ∧ (r.status ≠ .ok → t = { s with
          err := statusCode r.status, responses := t.responses
          initDraws := if r.status = .eInit then s.initDraws.tail else s.initDraws })
      ∧ (r.status = .eInit → i = .inInit ∨ i = .outInit)
      ∧ (r.status = .ok → t.err = s.err ∨ t.err = 0 ∧ ∃ v, i = .csrWrite 0x02 v)

/-- R27: no step lowers a counter. -/
def Obligations.CountersNeverDecrease : Prop :=
  ∀ s t : State, step s = .next t →
    s.underrunCnt.toNat ≤ t.underrunCnt.toNat ∧ s.overrunCnt.toNat ≤ t.overrunCnt.toNat
    ∧ s.satCnt.toNat ≤ t.satCnt.toNat

/-- R24: the configuration is fixed for a run. -/
def Obligations.ConfigurationIsFixed : Prop :=
  ∀ s t : State, step s = .next t → t.cfg = s.cfg

/-- R23, R30, R34, R35: every step keeps the shape of the block buffers, the CIC arrays and the FIR history. -/
def Obligations.StepKeepsShapes : Prop :=
  ∀ s t : State, blocksShaped s = true → unitsShaped s = true → step s = .next t →
    blocksShaped t = true ∧ unitsShaped t = true

/-- R241: no step records a reserved status code. -/
def Obligations.ErrorCodesStayDefined : Prop :=
  ∀ s t : State, s.err.toNat ≤ 7 → step s = .next t → t.err.toNat ≤ 7

/-- R250, R257: the only step that raises the continuation is an output-engine step that reads the last frame of a
half, and only the dispatch lowers it; only the dispatch starts a cycle, and only CONT_DONE ends one. -/
def Obligations.ContinuationBitsChangeOnlyByRule : Prop :=
  ∀ s t : State, step s = .next t →
    (s.contPending = false → t.contPending = true →
      (∃ ms, s.moves = .outputEngine :: ms) ∧ s.outState = .running
      ∧ (s.outPos + 1 = s.cfg.n ∨ s.outPos + 1 = 2 * s.cfg.n))
    ∧ (s.contPending = true → t.contPending = false → dispatchEnabled s = true ∧ t.contActive = true)
    ∧ (s.contActive = false → t.contActive = true → dispatchEnabled s = true ∧ t.contPending = false)
    ∧ (s.contActive = true → t.contActive = false → ∃ ws, decode s.inbox = .command .contDone ws)
end

