-- ==== Sys2Proof/Laws/Memory.lean ====
section
/-! SUPPORT. The laws of region memory: reads after writes, and the canonical form is kept. -/

namespace Sys2Proof.Machine

open Sys2Proof

@[simp] theorem memGet_memSet_same (m : Memory) (a : Nat) (b : Byte) : memGet (memSet m a b) a = some b := by
  induction m with
  | nil => simp [memSet, memGet]
  | cons c m ih =>
    obtain ⟨a', b'⟩ := c
    unfold memSet
    split
    · simp [memGet]
    · split
      · simp [memGet]
      · have : a' ≠ a := by omega
        simp [memGet, this, ih]

theorem memGet_memSet_other (m : Memory) (a c : Nat) (b : Byte) (h : c ≠ a) :
    memGet (memSet m a b) c = memGet m c := by
  induction m with
  | nil => simp [memSet, memGet, h.symm]
  | cons d m ih =>
    obtain ⟨a', b'⟩ := d
    unfold memSet
    split
    · simp [memGet, h.symm]
    · split
      · next h1 h2 => subst h2; simp [memGet, h.symm]
      · simp [memGet, ih]

/-- A byte after a write: the value written at its address, else what it was. -/
theorem memByte_memSet (m : Memory) (a c : Nat) (b : Byte) :
    memByte (memSet m a b) c = if c = a then b else memByte m c := by
  unfold memByte
  split
  · next h => subst h; simp
  · next h => rw [memGet_memSet_other m a c b h]

/-- Every address of a memory is at least `lo`, and the addresses rise. -/
def Memory.risesFrom (lo : Nat) : Memory → Prop
  | [] => True
  | c :: rest => lo ≤ c.1 ∧ Memory.risesFrom (c.1 + 1) rest

theorem Memory.wf_cons (c : Host.Cell) (m : Memory) :
    Memory.wf (c :: m) = true ↔ Memory.risesFrom (c.1 + 1) m := by
  induction m generalizing c with
  | nil => simp [Memory.wf, Memory.risesFrom]
  | cons d m ih => simp [Memory.wf, Memory.risesFrom, ih]

theorem Memory.risesFrom_mono {lo lo' : Nat} (h : lo' ≤ lo) {m : Memory} (hm : Memory.risesFrom lo m) :
    Memory.risesFrom lo' m := by
  cases m with
  | nil => simp [Memory.risesFrom]
  | cons c m =>
    obtain ⟨h1, h2⟩ := hm
    exact ⟨Nat.le_trans h h1, h2⟩

theorem Memory.wf_iff (m : Memory) : Memory.wf m = true ↔ Memory.risesFrom 0 m := by
  cases m with
  | nil => simp [Memory.wf, Memory.risesFrom]
  | cons c m => simp [Memory.wf_cons, Memory.risesFrom]

theorem memSet_risesFrom (m : Memory) (lo a : Nat) (b : Byte) (hlo : lo ≤ a) (h : Memory.risesFrom lo m) :
    Memory.risesFrom lo (memSet m a b) := by
  induction m generalizing lo with
  | nil => exact ⟨hlo, trivial⟩
  | cons c m ih =>
    obtain ⟨a', b'⟩ := c
    unfold memSet
    obtain ⟨h1, h2⟩ := h
    split
    · exact ⟨hlo, by omega, h2⟩
    · split
      · next h3 => exact ⟨hlo, by rw [h3]; exact h2⟩
      · exact ⟨h1, ih (a' + 1) (by simp only at *; omega) h2⟩

/-- A byte write keeps the canonical form. -/
theorem memSet_wf (m : Memory) (a : Nat) (b : Byte) (h : Memory.wf m = true) : Memory.wf (memSet m a b) = true := by
  rw [Memory.wf_iff] at *
  exact memSet_risesFrom m 0 a b (Nat.zero_le _) h

/-- `MemWrite` keeps the canonical form. -/
theorem memWrite_wf (n : Nat) (m : Memory) (a v : Nat) (h : Memory.wf m = true) :
    Memory.wf (memWrite m a n v) = true := by
  induction n generalizing m a v with
  | zero => exact h
  | succ n ih => exact ih _ _ _ (memSet_wf _ _ _ h)

/-- Writing a list of bytes keeps the canonical form. -/
theorem memWriteBytes_wf (bs : List Byte) (m : Memory) (a : Nat) (h : Memory.wf m = true) :
    Memory.wf (memWriteBytes m a bs) = true := by
  induction bs generalizing m a with
  | nil => exact h
  | cons b bs ih => exact ih _ _ (memSet_wf _ _ _ h)

/-- Zeroing keeps the canonical form. -/
theorem memZero_wf (n : Nat) (m : Memory) (a : Nat) (h : Memory.wf m = true) :
    Memory.wf (memZero m a n) = true := by
  induction n generalizing m a with
  | zero => exact h
  | succ n ih => exact ih _ _ (memSet_wf _ _ _ h)

/-- A byte after zeroing a range. -/
theorem memByte_memZero (n : Nat) (m : Memory) (a c : Nat) :
    memByte (memZero m a n) c = if a ≤ c ∧ c < a + n then 0#8 else memByte m c := by
  induction n generalizing m a with
  | zero => simp [memZero]
  | succ n ih =>
    rw [memZero, ih, memByte_memSet]
    by_cases h1 : c = a
    · subst h1; simp
    · by_cases h2 : a ≤ c ∧ c < a + (n + 1)
      · rw [if_pos (by omega), if_pos h2]
      · rw [if_neg (by omega), if_neg h1, if_neg h2]

/-- A byte after writing a list of bytes. -/
theorem memByte_memWriteBytes (bs : List Byte) (m : Memory) (a c : Nat) :
    memByte (memWriteBytes m a bs) c
      = if a ≤ c ∧ c < a + bs.length then bs.getD (c - a) 0#8 else memByte m c := by
  induction bs generalizing m a with
  | nil => simp [memWriteBytes]
  | cons b bs ih =>
    rw [memWriteBytes, ih, memByte_memSet]
    by_cases h1 : c = a
    · subst h1; simp
    · by_cases h2 : a ≤ c ∧ c < a + (bs.length + 1)
      · rw [if_pos (by omega), if_pos (by simpa using h2)]
        obtain ⟨k, rfl⟩ : ∃ k, c = a + 1 + k := ⟨c - (a + 1), by omega⟩
        rw [show a + 1 + k - (a + 1) = k by omega, show a + 1 + k - a = k + 1 by omega]
        simp
      · rw [if_neg (by omega), if_neg h1, if_neg (by simpa using h2)]

@[simp] theorem memBytes_length (m : Memory) (a n : Nat) : (memBytes m a n).length = n := by
  simp [memBytes]

/-- The byte at an offset of a run of bytes. -/
theorem memBytes_getD (m : Memory) (a n i : Nat) (h : i < n) (d : Byte) :
    (memBytes m a n).getD i d = memByte m (a + i) := by
  simp [memBytes, h]

/-- An element is its two bytes, the low byte at the lower address (R61, R64). -/
theorem memElem_eq (m : Memory) (a : Nat) : memElem m a = memByte m (a + 1) ++ memByte m a := by
  apply BitVec.eq_of_toNat_eq
  have h0 := (memByte m a).isLt
  have h1 := (memByte m (a + 1)).isLt
  rw [BitVec.toNat_append, Nat.shiftLeft_eq, ← Nat.mul_comm, ← Nat.two_pow_add_eq_or_of_lt h0]
  simp only [memElem, memRead, BitVec.toNat_ofNat]
  omega

end Sys2Proof.Machine
end

