-- ==== Sys2Proof/Laws/State.lean ====
section
/-! SUPPORT. What each named update of State does to each field: one lemma per field per update, so that no
later proof unfolds a record update. -/

namespace Sys2Proof.Machine

open Sys2Proof

/-- A fold of updates that each keep a field keeps it. -/
theorem foldl_field {α β : Type} (field : State → β) (f : State → α → State)
    (h : ∀ t c, field (f t c) = field t) (cs : List α) (s : State) : field (cs.foldl f s) = field s := by
  induction cs generalizing s with
  | nil => rfl
  | cons c cs ih => rw [List.foldl_cons, ih, h]

/-! ### pushResponse -/

@[simp] theorem pushResponse_cfg (r : Response) (s : State) : (pushResponse r s).cfg = s.cfg := rfl

@[simp] theorem pushResponse_inbox (r : Response) (s : State) : (pushResponse r s).inbox = s.inbox := rfl

@[simp] theorem pushResponse_moves (r : Response) (s : State) : (pushResponse r s).moves = s.moves := rfl

@[simp] theorem pushResponse_initDraws (r : Response) (s : State) : (pushResponse r s).initDraws = s.initDraws := rfl

@[simp] theorem pushResponse_responses (r : Response) (s : State) : (pushResponse r s).responses = s.responses ++ [r] := rfl

@[simp] theorem pushResponse_err (r : Response) (s : State) : (pushResponse r s).err = s.err := rfl

@[simp] theorem pushResponse_underrunCnt (r : Response) (s : State) : (pushResponse r s).underrunCnt = s.underrunCnt := rfl

@[simp] theorem pushResponse_overrunCnt (r : Response) (s : State) : (pushResponse r s).overrunCnt = s.overrunCnt := rfl

@[simp] theorem pushResponse_satCnt (r : Response) (s : State) : (pushResponse r s).satCnt = s.satCnt := rfl

@[simp] theorem pushResponse_contPending (r : Response) (s : State) : (pushResponse r s).contPending = s.contPending := rfl

@[simp] theorem pushResponse_contActive (r : Response) (s : State) : (pushResponse r s).contActive = s.contActive := rfl

@[simp] theorem pushResponse_contMasked (r : Response) (s : State) : (pushResponse r s).contMasked = s.contMasked := rfl

@[simp] theorem pushResponse_inState (r : Response) (s : State) : (pushResponse r s).inState = s.inState := rfl

@[simp] theorem pushResponse_outState (r : Response) (s : State) : (pushResponse r s).outState = s.outState := rfl

@[simp] theorem pushResponse_inPos (r : Response) (s : State) : (pushResponse r s).inPos = s.inPos := rfl

@[simp] theorem pushResponse_outPos (r : Response) (s : State) : (pushResponse r s).outPos = s.outPos := rfl

@[simp] theorem pushResponse_outTarget (r : Response) (s : State) : (pushResponse r s).outTarget = s.outTarget := rfl

@[simp] theorem pushResponse_fresh0 (r : Response) (s : State) : (pushResponse r s).fresh0 = s.fresh0 := rfl

@[simp] theorem pushResponse_fresh1 (r : Response) (s : State) : (pushResponse r s).fresh1 = s.fresh1 := rfl

@[simp] theorem pushResponse_blk (r : Response) (s : State) : (pushResponse r s).blk = s.blk := rfl

@[simp] theorem pushResponse_iir (r : Response) (s : State) : (pushResponse r s).iir = s.iir := rfl

@[simp] theorem pushResponse_cic (r : Response) (s : State) : (pushResponse r s).cic = s.cic := rfl

@[simp] theorem pushResponse_fir (r : Response) (s : State) : (pushResponse r s).fir = s.fir := rfl

@[simp] theorem pushResponse_mem (r : Response) (s : State) : (pushResponse r s).mem = s.mem := rfl

@[simp] theorem pushResponse_cache (r : Response) (s : State) : (pushResponse r s).cache = s.cache := rfl

@[simp] theorem pushResponse_sink (r : Response) (s : State) : (pushResponse r s).sink = s.sink := rfl

/-! ### raised -/

@[simp] theorem raised_cfg (e : Status) (d : Word) (s : State) : (raised e d s).cfg = s.cfg := rfl

@[simp] theorem raised_inbox (e : Status) (d : Word) (s : State) : (raised e d s).inbox = s.inbox := rfl

@[simp] theorem raised_moves (e : Status) (d : Word) (s : State) : (raised e d s).moves = s.moves := rfl

@[simp] theorem raised_initDraws (e : Status) (d : Word) (s : State) : (raised e d s).initDraws = s.initDraws := rfl

@[simp] theorem raised_responses (e : Status) (d : Word) (s : State) : (raised e d s).responses = s.responses ++ [{ status := e, data := d }] := rfl

@[simp] theorem raised_err (e : Status) (d : Word) (s : State) : (raised e d s).err = statusCode e := rfl

@[simp] theorem raised_underrunCnt (e : Status) (d : Word) (s : State) : (raised e d s).underrunCnt = s.underrunCnt := rfl

@[simp] theorem raised_overrunCnt (e : Status) (d : Word) (s : State) : (raised e d s).overrunCnt = s.overrunCnt := rfl

@[simp] theorem raised_satCnt (e : Status) (d : Word) (s : State) : (raised e d s).satCnt = s.satCnt := rfl

@[simp] theorem raised_contPending (e : Status) (d : Word) (s : State) : (raised e d s).contPending = s.contPending := rfl

@[simp] theorem raised_contActive (e : Status) (d : Word) (s : State) : (raised e d s).contActive = s.contActive := rfl

@[simp] theorem raised_contMasked (e : Status) (d : Word) (s : State) : (raised e d s).contMasked = s.contMasked := rfl

@[simp] theorem raised_inState (e : Status) (d : Word) (s : State) : (raised e d s).inState = s.inState := rfl

@[simp] theorem raised_outState (e : Status) (d : Word) (s : State) : (raised e d s).outState = s.outState := rfl

@[simp] theorem raised_inPos (e : Status) (d : Word) (s : State) : (raised e d s).inPos = s.inPos := rfl

@[simp] theorem raised_outPos (e : Status) (d : Word) (s : State) : (raised e d s).outPos = s.outPos := rfl

@[simp] theorem raised_outTarget (e : Status) (d : Word) (s : State) : (raised e d s).outTarget = s.outTarget := rfl

@[simp] theorem raised_fresh0 (e : Status) (d : Word) (s : State) : (raised e d s).fresh0 = s.fresh0 := rfl

@[simp] theorem raised_fresh1 (e : Status) (d : Word) (s : State) : (raised e d s).fresh1 = s.fresh1 := rfl

@[simp] theorem raised_blk (e : Status) (d : Word) (s : State) : (raised e d s).blk = s.blk := rfl

@[simp] theorem raised_iir (e : Status) (d : Word) (s : State) : (raised e d s).iir = s.iir := rfl

@[simp] theorem raised_cic (e : Status) (d : Word) (s : State) : (raised e d s).cic = s.cic := rfl

@[simp] theorem raised_fir (e : Status) (d : Word) (s : State) : (raised e d s).fir = s.fir := rfl

@[simp] theorem raised_mem (e : Status) (d : Word) (s : State) : (raised e d s).mem = s.mem := rfl

@[simp] theorem raised_cache (e : Status) (d : Word) (s : State) : (raised e d s).cache = s.cache := rfl

@[simp] theorem raised_sink (e : Status) (d : Word) (s : State) : (raised e d s).sink = s.sink := rfl

/-! ### takeInitDraw -/

@[simp] theorem takeInitDraw_cfg (s : State) : (takeInitDraw s).cfg = s.cfg := rfl

@[simp] theorem takeInitDraw_inbox (s : State) : (takeInitDraw s).inbox = s.inbox := rfl

@[simp] theorem takeInitDraw_moves (s : State) : (takeInitDraw s).moves = s.moves := rfl

@[simp] theorem takeInitDraw_initDraws (s : State) : (takeInitDraw s).initDraws = s.initDraws.tail := rfl

@[simp] theorem takeInitDraw_responses (s : State) : (takeInitDraw s).responses = s.responses := rfl

@[simp] theorem takeInitDraw_err (s : State) : (takeInitDraw s).err = s.err := rfl

@[simp] theorem takeInitDraw_underrunCnt (s : State) : (takeInitDraw s).underrunCnt = s.underrunCnt := rfl

@[simp] theorem takeInitDraw_overrunCnt (s : State) : (takeInitDraw s).overrunCnt = s.overrunCnt := rfl

@[simp] theorem takeInitDraw_satCnt (s : State) : (takeInitDraw s).satCnt = s.satCnt := rfl

@[simp] theorem takeInitDraw_contPending (s : State) : (takeInitDraw s).contPending = s.contPending := rfl

@[simp] theorem takeInitDraw_contActive (s : State) : (takeInitDraw s).contActive = s.contActive := rfl

@[simp] theorem takeInitDraw_contMasked (s : State) : (takeInitDraw s).contMasked = s.contMasked := rfl

@[simp] theorem takeInitDraw_inState (s : State) : (takeInitDraw s).inState = s.inState := rfl

@[simp] theorem takeInitDraw_outState (s : State) : (takeInitDraw s).outState = s.outState := rfl

@[simp] theorem takeInitDraw_inPos (s : State) : (takeInitDraw s).inPos = s.inPos := rfl

@[simp] theorem takeInitDraw_outPos (s : State) : (takeInitDraw s).outPos = s.outPos := rfl

@[simp] theorem takeInitDraw_outTarget (s : State) : (takeInitDraw s).outTarget = s.outTarget := rfl

@[simp] theorem takeInitDraw_fresh0 (s : State) : (takeInitDraw s).fresh0 = s.fresh0 := rfl

@[simp] theorem takeInitDraw_fresh1 (s : State) : (takeInitDraw s).fresh1 = s.fresh1 := rfl

@[simp] theorem takeInitDraw_blk (s : State) : (takeInitDraw s).blk = s.blk := rfl

@[simp] theorem takeInitDraw_iir (s : State) : (takeInitDraw s).iir = s.iir := rfl

@[simp] theorem takeInitDraw_cic (s : State) : (takeInitDraw s).cic = s.cic := rfl

@[simp] theorem takeInitDraw_fir (s : State) : (takeInitDraw s).fir = s.fir := rfl

@[simp] theorem takeInitDraw_mem (s : State) : (takeInitDraw s).mem = s.mem := rfl

@[simp] theorem takeInitDraw_cache (s : State) : (takeInitDraw s).cache = s.cache := rfl

@[simp] theorem takeInitDraw_sink (s : State) : (takeInitDraw s).sink = s.sink := rfl

/-! ### dispatch -/

@[simp] theorem dispatch_cfg (s : State) : (dispatch s).cfg = s.cfg := rfl

@[simp] theorem dispatch_inbox (s : State) : (dispatch s).inbox = s.inbox := rfl

@[simp] theorem dispatch_moves (s : State) : (dispatch s).moves = s.moves := rfl

@[simp] theorem dispatch_initDraws (s : State) : (dispatch s).initDraws = s.initDraws := rfl

@[simp] theorem dispatch_responses (s : State) : (dispatch s).responses = s.responses := rfl

@[simp] theorem dispatch_err (s : State) : (dispatch s).err = s.err := rfl

@[simp] theorem dispatch_underrunCnt (s : State) : (dispatch s).underrunCnt = s.underrunCnt := rfl

@[simp] theorem dispatch_overrunCnt (s : State) : (dispatch s).overrunCnt = s.overrunCnt := rfl

@[simp] theorem dispatch_satCnt (s : State) : (dispatch s).satCnt = s.satCnt := rfl

@[simp] theorem dispatch_contPending (s : State) : (dispatch s).contPending = false := rfl

@[simp] theorem dispatch_contActive (s : State) : (dispatch s).contActive = true := rfl

@[simp] theorem dispatch_contMasked (s : State) : (dispatch s).contMasked = s.contMasked := rfl

@[simp] theorem dispatch_inState (s : State) : (dispatch s).inState = s.inState := rfl

@[simp] theorem dispatch_outState (s : State) : (dispatch s).outState = s.outState := rfl

@[simp] theorem dispatch_inPos (s : State) : (dispatch s).inPos = s.inPos := rfl

@[simp] theorem dispatch_outPos (s : State) : (dispatch s).outPos = s.outPos := rfl

@[simp] theorem dispatch_outTarget (s : State) : (dispatch s).outTarget = s.outTarget := rfl

@[simp] theorem dispatch_fresh0 (s : State) : (dispatch s).fresh0 = s.fresh0 := rfl

@[simp] theorem dispatch_fresh1 (s : State) : (dispatch s).fresh1 = s.fresh1 := rfl

@[simp] theorem dispatch_blk (s : State) : (dispatch s).blk = s.blk := rfl

@[simp] theorem dispatch_iir (s : State) : (dispatch s).iir = s.iir := rfl

@[simp] theorem dispatch_cic (s : State) : (dispatch s).cic = s.cic := rfl

@[simp] theorem dispatch_fir (s : State) : (dispatch s).fir = s.fir := rfl

@[simp] theorem dispatch_mem (s : State) : (dispatch s).mem = s.mem := rfl

@[simp] theorem dispatch_cache (s : State) : (dispatch s).cache = s.cache := rfl

@[simp] theorem dispatch_sink (s : State) : (dispatch s).sink = s.sink := rfl

/-! ### endCycle -/

@[simp] theorem endCycle_cfg (s : State) : (endCycle s).cfg = s.cfg := rfl

@[simp] theorem endCycle_inbox (s : State) : (endCycle s).inbox = s.inbox := rfl

@[simp] theorem endCycle_moves (s : State) : (endCycle s).moves = s.moves := rfl

@[simp] theorem endCycle_initDraws (s : State) : (endCycle s).initDraws = s.initDraws := rfl

@[simp] theorem endCycle_responses (s : State) : (endCycle s).responses = s.responses := rfl

@[simp] theorem endCycle_err (s : State) : (endCycle s).err = s.err := rfl

@[simp] theorem endCycle_underrunCnt (s : State) : (endCycle s).underrunCnt = s.underrunCnt := rfl

@[simp] theorem endCycle_overrunCnt (s : State) : (endCycle s).overrunCnt = s.overrunCnt := rfl

@[simp] theorem endCycle_satCnt (s : State) : (endCycle s).satCnt = s.satCnt := rfl

@[simp] theorem endCycle_contPending (s : State) : (endCycle s).contPending = s.contPending := rfl

@[simp] theorem endCycle_contActive (s : State) : (endCycle s).contActive = false := rfl

@[simp] theorem endCycle_contMasked (s : State) : (endCycle s).contMasked = s.contMasked := rfl

@[simp] theorem endCycle_inState (s : State) : (endCycle s).inState = s.inState := rfl

@[simp] theorem endCycle_outState (s : State) : (endCycle s).outState = s.outState := rfl

@[simp] theorem endCycle_inPos (s : State) : (endCycle s).inPos = s.inPos := rfl

@[simp] theorem endCycle_outPos (s : State) : (endCycle s).outPos = s.outPos := rfl

@[simp] theorem endCycle_outTarget (s : State) : (endCycle s).outTarget = s.outTarget := rfl

@[simp] theorem endCycle_fresh0 (s : State) : (endCycle s).fresh0 = s.fresh0 := rfl

@[simp] theorem endCycle_fresh1 (s : State) : (endCycle s).fresh1 = s.fresh1 := rfl

@[simp] theorem endCycle_blk (s : State) : (endCycle s).blk = s.blk := rfl

@[simp] theorem endCycle_iir (s : State) : (endCycle s).iir = s.iir := rfl

@[simp] theorem endCycle_cic (s : State) : (endCycle s).cic = s.cic := rfl

@[simp] theorem endCycle_fir (s : State) : (endCycle s).fir = s.fir := rfl

@[simp] theorem endCycle_mem (s : State) : (endCycle s).mem = s.mem := rfl

@[simp] theorem endCycle_cache (s : State) : (endCycle s).cache = s.cache := rfl

@[simp] theorem endCycle_sink (s : State) : (endCycle s).sink = s.sink := rfl

/-! ### writeCell -/

@[simp] theorem writeCell_cfg (s : State) (b i : Nat) (x : Sample) : (writeCell s b i x).cfg = s.cfg := rfl

@[simp] theorem writeCell_inbox (s : State) (b i : Nat) (x : Sample) : (writeCell s b i x).inbox = s.inbox := rfl

@[simp] theorem writeCell_moves (s : State) (b i : Nat) (x : Sample) : (writeCell s b i x).moves = s.moves := rfl

@[simp] theorem writeCell_initDraws (s : State) (b i : Nat) (x : Sample) : (writeCell s b i x).initDraws = s.initDraws := rfl

@[simp] theorem writeCell_responses (s : State) (b i : Nat) (x : Sample) : (writeCell s b i x).responses = s.responses := rfl

@[simp] theorem writeCell_err (s : State) (b i : Nat) (x : Sample) : (writeCell s b i x).err = s.err := rfl

@[simp] theorem writeCell_underrunCnt (s : State) (b i : Nat) (x : Sample) : (writeCell s b i x).underrunCnt = s.underrunCnt := rfl

@[simp] theorem writeCell_overrunCnt (s : State) (b i : Nat) (x : Sample) : (writeCell s b i x).overrunCnt = s.overrunCnt := rfl

@[simp] theorem writeCell_satCnt (s : State) (b i : Nat) (x : Sample) : (writeCell s b i x).satCnt = s.satCnt := rfl

@[simp] theorem writeCell_contPending (s : State) (b i : Nat) (x : Sample) : (writeCell s b i x).contPending = s.contPending := rfl

@[simp] theorem writeCell_contActive (s : State) (b i : Nat) (x : Sample) : (writeCell s b i x).contActive = s.contActive := rfl

@[simp] theorem writeCell_contMasked (s : State) (b i : Nat) (x : Sample) : (writeCell s b i x).contMasked = s.contMasked := rfl

@[simp] theorem writeCell_inState (s : State) (b i : Nat) (x : Sample) : (writeCell s b i x).inState = s.inState := rfl

@[simp] theorem writeCell_outState (s : State) (b i : Nat) (x : Sample) : (writeCell s b i x).outState = s.outState := rfl

@[simp] theorem writeCell_inPos (s : State) (b i : Nat) (x : Sample) : (writeCell s b i x).inPos = s.inPos := rfl

@[simp] theorem writeCell_outPos (s : State) (b i : Nat) (x : Sample) : (writeCell s b i x).outPos = s.outPos := rfl

@[simp] theorem writeCell_outTarget (s : State) (b i : Nat) (x : Sample) : (writeCell s b i x).outTarget = s.outTarget := rfl

@[simp] theorem writeCell_fresh0 (s : State) (b i : Nat) (x : Sample) : (writeCell s b i x).fresh0 = s.fresh0 := rfl

@[simp] theorem writeCell_fresh1 (s : State) (b i : Nat) (x : Sample) : (writeCell s b i x).fresh1 = s.fresh1 := rfl

@[simp] theorem writeCell_blk (s : State) (b i : Nat) (x : Sample) : (writeCell s b i x).blk = s.blk.set b ((blockCells s b).set i (some x)) := rfl

@[simp] theorem writeCell_iir (s : State) (b i : Nat) (x : Sample) : (writeCell s b i x).iir = s.iir := rfl

@[simp] theorem writeCell_cic (s : State) (b i : Nat) (x : Sample) : (writeCell s b i x).cic = s.cic := rfl

@[simp] theorem writeCell_fir (s : State) (b i : Nat) (x : Sample) : (writeCell s b i x).fir = s.fir := rfl

@[simp] theorem writeCell_mem (s : State) (b i : Nat) (x : Sample) : (writeCell s b i x).mem = s.mem := rfl

@[simp] theorem writeCell_cache (s : State) (b i : Nat) (x : Sample) : (writeCell s b i x).cache = s.cache := rfl

@[simp] theorem writeCell_sink (s : State) (b i : Nat) (x : Sample) : (writeCell s b i x).sink = s.sink := rfl

/-! ### writeBlock -/

@[simp] theorem writeBlock_cfg (s : State) (b : Nat) (xs : List Sample) : (writeBlock s b xs).cfg = s.cfg := rfl

@[simp] theorem writeBlock_inbox (s : State) (b : Nat) (xs : List Sample) : (writeBlock s b xs).inbox = s.inbox := rfl

@[simp] theorem writeBlock_moves (s : State) (b : Nat) (xs : List Sample) : (writeBlock s b xs).moves = s.moves := rfl

@[simp] theorem writeBlock_initDraws (s : State) (b : Nat) (xs : List Sample) : (writeBlock s b xs).initDraws = s.initDraws := rfl

@[simp] theorem writeBlock_responses (s : State) (b : Nat) (xs : List Sample) : (writeBlock s b xs).responses = s.responses := rfl

@[simp] theorem writeBlock_err (s : State) (b : Nat) (xs : List Sample) : (writeBlock s b xs).err = s.err := rfl

@[simp] theorem writeBlock_underrunCnt (s : State) (b : Nat) (xs : List Sample) : (writeBlock s b xs).underrunCnt = s.underrunCnt := rfl

@[simp] theorem writeBlock_overrunCnt (s : State) (b : Nat) (xs : List Sample) : (writeBlock s b xs).overrunCnt = s.overrunCnt := rfl

@[simp] theorem writeBlock_satCnt (s : State) (b : Nat) (xs : List Sample) : (writeBlock s b xs).satCnt = s.satCnt := rfl

@[simp] theorem writeBlock_contPending (s : State) (b : Nat) (xs : List Sample) : (writeBlock s b xs).contPending = s.contPending := rfl

@[simp] theorem writeBlock_contActive (s : State) (b : Nat) (xs : List Sample) : (writeBlock s b xs).contActive = s.contActive := rfl

@[simp] theorem writeBlock_contMasked (s : State) (b : Nat) (xs : List Sample) : (writeBlock s b xs).contMasked = s.contMasked := rfl

@[simp] theorem writeBlock_inState (s : State) (b : Nat) (xs : List Sample) : (writeBlock s b xs).inState = s.inState := rfl

@[simp] theorem writeBlock_outState (s : State) (b : Nat) (xs : List Sample) : (writeBlock s b xs).outState = s.outState := rfl

@[simp] theorem writeBlock_inPos (s : State) (b : Nat) (xs : List Sample) : (writeBlock s b xs).inPos = s.inPos := rfl

@[simp] theorem writeBlock_outPos (s : State) (b : Nat) (xs : List Sample) : (writeBlock s b xs).outPos = s.outPos := rfl

@[simp] theorem writeBlock_outTarget (s : State) (b : Nat) (xs : List Sample) : (writeBlock s b xs).outTarget = s.outTarget := rfl

@[simp] theorem writeBlock_fresh0 (s : State) (b : Nat) (xs : List Sample) : (writeBlock s b xs).fresh0 = s.fresh0 := rfl

@[simp] theorem writeBlock_fresh1 (s : State) (b : Nat) (xs : List Sample) : (writeBlock s b xs).fresh1 = s.fresh1 := rfl

@[simp] theorem writeBlock_blk (s : State) (b : Nat) (xs : List Sample) : (writeBlock s b xs).blk = s.blk.set b (xs.map some) := rfl

@[simp] theorem writeBlock_iir (s : State) (b : Nat) (xs : List Sample) : (writeBlock s b xs).iir = s.iir := rfl

@[simp] theorem writeBlock_cic (s : State) (b : Nat) (xs : List Sample) : (writeBlock s b xs).cic = s.cic := rfl

@[simp] theorem writeBlock_fir (s : State) (b : Nat) (xs : List Sample) : (writeBlock s b xs).fir = s.fir := rfl

@[simp] theorem writeBlock_mem (s : State) (b : Nat) (xs : List Sample) : (writeBlock s b xs).mem = s.mem := rfl

@[simp] theorem writeBlock_cache (s : State) (b : Nat) (xs : List Sample) : (writeBlock s b xs).cache = s.cache := rfl

@[simp] theorem writeBlock_sink (s : State) (b : Nat) (xs : List Sample) : (writeBlock s b xs).sink = s.sink := rfl

/-! ### emitFrame -/

@[simp] theorem emitFrame_cfg (s : State) : (emitFrame s).cfg = s.cfg := rfl

@[simp] theorem emitFrame_inbox (s : State) : (emitFrame s).inbox = s.inbox := rfl

@[simp] theorem emitFrame_moves (s : State) : (emitFrame s).moves = s.moves := rfl

@[simp] theorem emitFrame_initDraws (s : State) : (emitFrame s).initDraws = s.initDraws := rfl

@[simp] theorem emitFrame_responses (s : State) : (emitFrame s).responses = s.responses := rfl

@[simp] theorem emitFrame_err (s : State) : (emitFrame s).err = s.err := rfl

@[simp] theorem emitFrame_underrunCnt (s : State) : (emitFrame s).underrunCnt = s.underrunCnt := rfl

@[simp] theorem emitFrame_overrunCnt (s : State) : (emitFrame s).overrunCnt = s.overrunCnt := rfl

@[simp] theorem emitFrame_satCnt (s : State) : (emitFrame s).satCnt = s.satCnt := rfl

@[simp] theorem emitFrame_contPending (s : State) : (emitFrame s).contPending = s.contPending := rfl

@[simp] theorem emitFrame_contActive (s : State) : (emitFrame s).contActive = s.contActive := rfl

@[simp] theorem emitFrame_contMasked (s : State) : (emitFrame s).contMasked = s.contMasked := rfl

@[simp] theorem emitFrame_inState (s : State) : (emitFrame s).inState = s.inState := rfl

@[simp] theorem emitFrame_outState (s : State) : (emitFrame s).outState = s.outState := rfl

@[simp] theorem emitFrame_inPos (s : State) : (emitFrame s).inPos = s.inPos := rfl

@[simp] theorem emitFrame_outPos (s : State) : (emitFrame s).outPos = s.outPos := rfl

@[simp] theorem emitFrame_outTarget (s : State) : (emitFrame s).outTarget = s.outTarget := rfl

@[simp] theorem emitFrame_fresh0 (s : State) : (emitFrame s).fresh0 = s.fresh0 := rfl

@[simp] theorem emitFrame_fresh1 (s : State) : (emitFrame s).fresh1 = s.fresh1 := rfl

@[simp] theorem emitFrame_blk (s : State) : (emitFrame s).blk = s.blk := rfl

@[simp] theorem emitFrame_iir (s : State) : (emitFrame s).iir = s.iir := rfl

@[simp] theorem emitFrame_cic (s : State) : (emitFrame s).cic = s.cic := rfl

@[simp] theorem emitFrame_fir (s : State) : (emitFrame s).fir = s.fir := rfl

@[simp] theorem emitFrame_mem (s : State) : (emitFrame s).mem = s.mem := rfl

@[simp] theorem emitFrame_cache (s : State) : (emitFrame s).cache = s.cache := rfl

@[simp] theorem emitFrame_sink (s : State) : (emitFrame s).sink = s.sink ++ [outFrame s] := rfl

/-! ### inputStep -/

@[simp] theorem inputStep_cfg (raw : BitVec 16) (s : State) : (inputStep raw s).cfg = s.cfg := rfl

@[simp] theorem inputStep_inbox (raw : BitVec 16) (s : State) : (inputStep raw s).inbox = s.inbox := rfl

@[simp] theorem inputStep_moves (raw : BitVec 16) (s : State) : (inputStep raw s).moves = s.moves := rfl

@[simp] theorem inputStep_initDraws (raw : BitVec 16) (s : State) : (inputStep raw s).initDraws = s.initDraws := rfl

@[simp] theorem inputStep_responses (raw : BitVec 16) (s : State) : (inputStep raw s).responses = s.responses := rfl

@[simp] theorem inputStep_err (raw : BitVec 16) (s : State) : (inputStep raw s).err = s.err := rfl

@[simp] theorem inputStep_underrunCnt (raw : BitVec 16) (s : State) : (inputStep raw s).underrunCnt = s.underrunCnt := rfl

@[simp] theorem inputStep_overrunCnt (raw : BitVec 16) (s : State) : (inputStep raw s).overrunCnt = s.overrunCnt := rfl

@[simp] theorem inputStep_satCnt (raw : BitVec 16) (s : State) : (inputStep raw s).satCnt = s.satCnt := rfl

@[simp] theorem inputStep_contPending (raw : BitVec 16) (s : State) : (inputStep raw s).contPending = s.contPending := rfl

@[simp] theorem inputStep_contActive (raw : BitVec 16) (s : State) : (inputStep raw s).contActive = s.contActive := rfl

@[simp] theorem inputStep_contMasked (raw : BitVec 16) (s : State) : (inputStep raw s).contMasked = s.contMasked := rfl

@[simp] theorem inputStep_inState (raw : BitVec 16) (s : State) : (inputStep raw s).inState = s.inState := rfl

@[simp] theorem inputStep_outState (raw : BitVec 16) (s : State) : (inputStep raw s).outState = s.outState := rfl

@[simp] theorem inputStep_inPos (raw : BitVec 16) (s : State) : (inputStep raw s).inPos = (s.inPos + 1) % (2 * s.cfg.n) := rfl

@[simp] theorem inputStep_outPos (raw : BitVec 16) (s : State) : (inputStep raw s).outPos = s.outPos := rfl

@[simp] theorem inputStep_outTarget (raw : BitVec 16) (s : State) : (inputStep raw s).outTarget = s.outTarget := rfl

@[simp] theorem inputStep_fresh0 (raw : BitVec 16) (s : State) : (inputStep raw s).fresh0 = s.fresh0 := rfl

@[simp] theorem inputStep_fresh1 (raw : BitVec 16) (s : State) : (inputStep raw s).fresh1 = s.fresh1 := rfl

@[simp] theorem inputStep_blk (raw : BitVec 16) (s : State) : (inputStep raw s).blk = s.blk := rfl

@[simp] theorem inputStep_iir (raw : BitVec 16) (s : State) : (inputStep raw s).iir = s.iir := rfl

@[simp] theorem inputStep_cic (raw : BitVec 16) (s : State) : (inputStep raw s).cic = s.cic := rfl

@[simp] theorem inputStep_fir (raw : BitVec 16) (s : State) : (inputStep raw s).fir = s.fir := rfl

@[simp] theorem inputStep_mem (raw : BitVec 16) (s : State) : (inputStep raw s).mem = memWrite s.mem (s.cfg.inBase + 2 * s.inPos) 2 raw.toNat := rfl

@[simp] theorem inputStep_cache (raw : BitVec 16) (s : State) : (inputStep raw s).cache = s.cache := rfl

@[simp] theorem inputStep_sink (raw : BitVec 16) (s : State) : (inputStep raw s).sink = s.sink := rfl

/-! ### setFresh -/

@[simp] theorem setFresh_cfg (s : State) (h : Half) (v : Bool) : (setFresh s h v).cfg = s.cfg := by cases h <;> rfl

@[simp] theorem setFresh_inbox (s : State) (h : Half) (v : Bool) : (setFresh s h v).inbox = s.inbox := by cases h <;> rfl

@[simp] theorem setFresh_moves (s : State) (h : Half) (v : Bool) : (setFresh s h v).moves = s.moves := by cases h <;> rfl

@[simp] theorem setFresh_initDraws (s : State) (h : Half) (v : Bool) : (setFresh s h v).initDraws = s.initDraws := by cases h <;> rfl

@[simp] theorem setFresh_responses (s : State) (h : Half) (v : Bool) : (setFresh s h v).responses = s.responses := by cases h <;> rfl

@[simp] theorem setFresh_err (s : State) (h : Half) (v : Bool) : (setFresh s h v).err = s.err := by cases h <;> rfl

@[simp] theorem setFresh_underrunCnt (s : State) (h : Half) (v : Bool) : (setFresh s h v).underrunCnt = s.underrunCnt := by cases h <;> rfl

@[simp] theorem setFresh_overrunCnt (s : State) (h : Half) (v : Bool) : (setFresh s h v).overrunCnt = s.overrunCnt := by cases h <;> rfl

@[simp] theorem setFresh_satCnt (s : State) (h : Half) (v : Bool) : (setFresh s h v).satCnt = s.satCnt := by cases h <;> rfl

@[simp] theorem setFresh_contPending (s : State) (h : Half) (v : Bool) : (setFresh s h v).contPending = s.contPending := by cases h <;> rfl

@[simp] theorem setFresh_contActive (s : State) (h : Half) (v : Bool) : (setFresh s h v).contActive = s.contActive := by cases h <;> rfl

@[simp] theorem setFresh_contMasked (s : State) (h : Half) (v : Bool) : (setFresh s h v).contMasked = s.contMasked := by cases h <;> rfl

@[simp] theorem setFresh_inState (s : State) (h : Half) (v : Bool) : (setFresh s h v).inState = s.inState := by cases h <;> rfl

@[simp] theorem setFresh_outState (s : State) (h : Half) (v : Bool) : (setFresh s h v).outState = s.outState := by cases h <;> rfl

@[simp] theorem setFresh_inPos (s : State) (h : Half) (v : Bool) : (setFresh s h v).inPos = s.inPos := by cases h <;> rfl

@[simp] theorem setFresh_outPos (s : State) (h : Half) (v : Bool) : (setFresh s h v).outPos = s.outPos := by cases h <;> rfl

@[simp] theorem setFresh_outTarget (s : State) (h : Half) (v : Bool) : (setFresh s h v).outTarget = s.outTarget := by cases h <;> rfl

@[simp] theorem setFresh_fresh0 (s : State) (h : Half) (v : Bool) : (setFresh s h v).fresh0 = if h = .half0 then v else s.fresh0 := by cases h <;> rfl

@[simp] theorem setFresh_fresh1 (s : State) (h : Half) (v : Bool) : (setFresh s h v).fresh1 = if h = .half1 then v else s.fresh1 := by cases h <;> rfl

@[simp] theorem setFresh_blk (s : State) (h : Half) (v : Bool) : (setFresh s h v).blk = s.blk := by cases h <;> rfl

@[simp] theorem setFresh_iir (s : State) (h : Half) (v : Bool) : (setFresh s h v).iir = s.iir := by cases h <;> rfl

@[simp] theorem setFresh_cic (s : State) (h : Half) (v : Bool) : (setFresh s h v).cic = s.cic := by cases h <;> rfl

@[simp] theorem setFresh_fir (s : State) (h : Half) (v : Bool) : (setFresh s h v).fir = s.fir := by cases h <;> rfl

@[simp] theorem setFresh_mem (s : State) (h : Half) (v : Bool) : (setFresh s h v).mem = s.mem := by cases h <;> rfl

@[simp] theorem setFresh_cache (s : State) (h : Half) (v : Bool) : (setFresh s h v).cache = s.cache := by cases h <;> rfl

@[simp] theorem setFresh_sink (s : State) (h : Half) (v : Bool) : (setFresh s h v).sink = s.sink := by cases h <;> rfl

/-! ### event -/

@[simp] theorem event_cfg (h : Half) (s : State) : (event h s).cfg = s.cfg := by cases h <;> rfl

@[simp] theorem event_inbox (h : Half) (s : State) : (event h s).inbox = s.inbox := by cases h <;> rfl

@[simp] theorem event_moves (h : Half) (s : State) : (event h s).moves = s.moves := by cases h <;> rfl

@[simp] theorem event_initDraws (h : Half) (s : State) : (event h s).initDraws = s.initDraws := by cases h <;> rfl

@[simp] theorem event_responses (h : Half) (s : State) : (event h s).responses = s.responses := by cases h <;> rfl

@[simp] theorem event_err (h : Half) (s : State) : (event h s).err = s.err := by cases h <;> rfl

@[simp] theorem event_underrunCnt (h : Half) (s : State) : (event h s).underrunCnt = countIf (!freshOf s (otherHalf h)) s.underrunCnt := by cases h <;> rfl

@[simp] theorem event_overrunCnt (h : Half) (s : State) : (event h s).overrunCnt = countIf (s.contPending || s.contActive) s.overrunCnt := by cases h <;> rfl

@[simp] theorem event_satCnt (h : Half) (s : State) : (event h s).satCnt = s.satCnt := by cases h <;> rfl

@[simp] theorem event_contPending (h : Half) (s : State) : (event h s).contPending = true := by cases h <;> rfl

@[simp] theorem event_contActive (h : Half) (s : State) : (event h s).contActive = s.contActive := by cases h <;> rfl

@[simp] theorem event_contMasked (h : Half) (s : State) : (event h s).contMasked = s.contMasked := by cases h <;> rfl

@[simp] theorem event_inState (h : Half) (s : State) : (event h s).inState = s.inState := by cases h <;> rfl

@[simp] theorem event_outState (h : Half) (s : State) : (event h s).outState = s.outState := by cases h <;> rfl

@[simp] theorem event_inPos (h : Half) (s : State) : (event h s).inPos = s.inPos := by cases h <;> rfl

@[simp] theorem event_outPos (h : Half) (s : State) : (event h s).outPos = s.outPos := by cases h <;> rfl

@[simp] theorem event_outTarget (h : Half) (s : State) : (event h s).outTarget = otherHalf s.outTarget := by cases h <;> rfl

@[simp] theorem event_fresh0 (h : Half) (s : State) : (event h s).fresh0 = if h = .half0 then false else s.fresh0 := by cases h <;> rfl

@[simp] theorem event_fresh1 (h : Half) (s : State) : (event h s).fresh1 = if h = .half1 then false else s.fresh1 := by cases h <;> rfl

@[simp] theorem event_blk (h : Half) (s : State) : (event h s).blk = s.blk := by cases h <;> rfl

@[simp] theorem event_iir (h : Half) (s : State) : (event h s).iir = s.iir := by cases h <;> rfl

@[simp] theorem event_cic (h : Half) (s : State) : (event h s).cic = s.cic := by cases h <;> rfl

@[simp] theorem event_fir (h : Half) (s : State) : (event h s).fir = s.fir := by cases h <;> rfl

@[simp] theorem event_mem (h : Half) (s : State) : (event h s).mem = s.mem := by cases h <;> rfl

@[simp] theorem event_cache (h : Half) (s : State) : (event h s).cache = s.cache := by cases h <;> rfl

@[simp] theorem event_sink (h : Half) (s : State) : (event h s).sink = s.sink := by cases h <;> rfl

/-! ### touchLine -/

@[simp] theorem touchLine_cfg (s : State) (a : Nat) : (touchLine s a).cfg = s.cfg := by unfold touchLine; split <;> rfl

@[simp] theorem touchLine_inbox (s : State) (a : Nat) : (touchLine s a).inbox = s.inbox := by unfold touchLine; split <;> rfl

@[simp] theorem touchLine_moves (s : State) (a : Nat) : (touchLine s a).moves = s.moves := by unfold touchLine; split <;> rfl

@[simp] theorem touchLine_initDraws (s : State) (a : Nat) : (touchLine s a).initDraws = s.initDraws := by unfold touchLine; split <;> rfl

@[simp] theorem touchLine_responses (s : State) (a : Nat) : (touchLine s a).responses = s.responses := by unfold touchLine; split <;> rfl

@[simp] theorem touchLine_err (s : State) (a : Nat) : (touchLine s a).err = s.err := by unfold touchLine; split <;> rfl

@[simp] theorem touchLine_underrunCnt (s : State) (a : Nat) : (touchLine s a).underrunCnt = s.underrunCnt := by unfold touchLine; split <;> rfl

@[simp] theorem touchLine_overrunCnt (s : State) (a : Nat) : (touchLine s a).overrunCnt = s.overrunCnt := by unfold touchLine; split <;> rfl

@[simp] theorem touchLine_satCnt (s : State) (a : Nat) : (touchLine s a).satCnt = s.satCnt := by unfold touchLine; split <;> rfl

@[simp] theorem touchLine_contPending (s : State) (a : Nat) : (touchLine s a).contPending = s.contPending := by unfold touchLine; split <;> rfl

@[simp] theorem touchLine_contActive (s : State) (a : Nat) : (touchLine s a).contActive = s.contActive := by unfold touchLine; split <;> rfl

@[simp] theorem touchLine_contMasked (s : State) (a : Nat) : (touchLine s a).contMasked = s.contMasked := by unfold touchLine; split <;> rfl

@[simp] theorem touchLine_inState (s : State) (a : Nat) : (touchLine s a).inState = s.inState := by unfold touchLine; split <;> rfl

@[simp] theorem touchLine_outState (s : State) (a : Nat) : (touchLine s a).outState = s.outState := by unfold touchLine; split <;> rfl

@[simp] theorem touchLine_inPos (s : State) (a : Nat) : (touchLine s a).inPos = s.inPos := by unfold touchLine; split <;> rfl

@[simp] theorem touchLine_outPos (s : State) (a : Nat) : (touchLine s a).outPos = s.outPos := by unfold touchLine; split <;> rfl

@[simp] theorem touchLine_outTarget (s : State) (a : Nat) : (touchLine s a).outTarget = s.outTarget := by unfold touchLine; split <;> rfl

@[simp] theorem touchLine_fresh0 (s : State) (a : Nat) : (touchLine s a).fresh0 = s.fresh0 := by unfold touchLine; split <;> rfl

@[simp] theorem touchLine_fresh1 (s : State) (a : Nat) : (touchLine s a).fresh1 = s.fresh1 := by unfold touchLine; split <;> rfl

@[simp] theorem touchLine_blk (s : State) (a : Nat) : (touchLine s a).blk = s.blk := by unfold touchLine; split <;> rfl

@[simp] theorem touchLine_iir (s : State) (a : Nat) : (touchLine s a).iir = s.iir := by unfold touchLine; split <;> rfl

@[simp] theorem touchLine_cic (s : State) (a : Nat) : (touchLine s a).cic = s.cic := by unfold touchLine; split <;> rfl

@[simp] theorem touchLine_fir (s : State) (a : Nat) : (touchLine s a).fir = s.fir := by unfold touchLine; split <;> rfl

@[simp] theorem touchLine_mem (s : State) (a : Nat) : (touchLine s a).mem = s.mem := by unfold touchLine; split <;> rfl

@[simp] theorem touchLine_cache (s : State) (a : Nat) : (touchLine s a).cache = if s.cfg.cachePresent then cachePut s.cache (seenLine s a) else s.cache := by unfold touchLine; split <;> rfl

@[simp] theorem touchLine_sink (s : State) (a : Nat) : (touchLine s a).sink = s.sink := by unfold touchLine; split <;> rfl

/-! ### touchElem -/

@[simp] theorem touchElem_cfg (s : State) (a : Nat) : (touchElem s a).cfg = s.cfg := by simp [touchElem]

@[simp] theorem touchElem_inbox (s : State) (a : Nat) : (touchElem s a).inbox = s.inbox := by simp [touchElem]

@[simp] theorem touchElem_moves (s : State) (a : Nat) : (touchElem s a).moves = s.moves := by simp [touchElem]

@[simp] theorem touchElem_initDraws (s : State) (a : Nat) : (touchElem s a).initDraws = s.initDraws := by simp [touchElem]

@[simp] theorem touchElem_responses (s : State) (a : Nat) : (touchElem s a).responses = s.responses := by simp [touchElem]

@[simp] theorem touchElem_err (s : State) (a : Nat) : (touchElem s a).err = s.err := by simp [touchElem]

@[simp] theorem touchElem_underrunCnt (s : State) (a : Nat) : (touchElem s a).underrunCnt = s.underrunCnt := by simp [touchElem]

@[simp] theorem touchElem_overrunCnt (s : State) (a : Nat) : (touchElem s a).overrunCnt = s.overrunCnt := by simp [touchElem]

@[simp] theorem touchElem_satCnt (s : State) (a : Nat) : (touchElem s a).satCnt = s.satCnt := by simp [touchElem]

@[simp] theorem touchElem_contPending (s : State) (a : Nat) : (touchElem s a).contPending = s.contPending := by simp [touchElem]

@[simp] theorem touchElem_contActive (s : State) (a : Nat) : (touchElem s a).contActive = s.contActive := by simp [touchElem]

@[simp] theorem touchElem_contMasked (s : State) (a : Nat) : (touchElem s a).contMasked = s.contMasked := by simp [touchElem]

@[simp] theorem touchElem_inState (s : State) (a : Nat) : (touchElem s a).inState = s.inState := by simp [touchElem]

@[simp] theorem touchElem_outState (s : State) (a : Nat) : (touchElem s a).outState = s.outState := by simp [touchElem]

@[simp] theorem touchElem_inPos (s : State) (a : Nat) : (touchElem s a).inPos = s.inPos := by simp [touchElem]

@[simp] theorem touchElem_outPos (s : State) (a : Nat) : (touchElem s a).outPos = s.outPos := by simp [touchElem]

@[simp] theorem touchElem_outTarget (s : State) (a : Nat) : (touchElem s a).outTarget = s.outTarget := by simp [touchElem]

@[simp] theorem touchElem_fresh0 (s : State) (a : Nat) : (touchElem s a).fresh0 = s.fresh0 := by simp [touchElem]

@[simp] theorem touchElem_fresh1 (s : State) (a : Nat) : (touchElem s a).fresh1 = s.fresh1 := by simp [touchElem]

@[simp] theorem touchElem_blk (s : State) (a : Nat) : (touchElem s a).blk = s.blk := by simp [touchElem]

@[simp] theorem touchElem_iir (s : State) (a : Nat) : (touchElem s a).iir = s.iir := by simp [touchElem]

@[simp] theorem touchElem_cic (s : State) (a : Nat) : (touchElem s a).cic = s.cic := by simp [touchElem]

@[simp] theorem touchElem_fir (s : State) (a : Nat) : (touchElem s a).fir = s.fir := by simp [touchElem]

@[simp] theorem touchElem_mem (s : State) (a : Nat) : (touchElem s a).mem = s.mem := by simp [touchElem]

@[simp] theorem touchElem_sink (s : State) (a : Nat) : (touchElem s a).sink = s.sink := by simp [touchElem]

/-! ### hostWriteByte -/

@[simp] theorem hostWriteByte_cfg (s : State) (a : Nat) (b : Byte) : (hostWriteByte s a b).cfg = s.cfg := by unfold hostWriteByte; split <;> rfl

@[simp] theorem hostWriteByte_inbox (s : State) (a : Nat) (b : Byte) : (hostWriteByte s a b).inbox = s.inbox := by unfold hostWriteByte; split <;> rfl

@[simp] theorem hostWriteByte_moves (s : State) (a : Nat) (b : Byte) : (hostWriteByte s a b).moves = s.moves := by unfold hostWriteByte; split <;> rfl

@[simp] theorem hostWriteByte_initDraws (s : State) (a : Nat) (b : Byte) : (hostWriteByte s a b).initDraws = s.initDraws := by unfold hostWriteByte; split <;> rfl

@[simp] theorem hostWriteByte_responses (s : State) (a : Nat) (b : Byte) : (hostWriteByte s a b).responses = s.responses := by unfold hostWriteByte; split <;> rfl

@[simp] theorem hostWriteByte_err (s : State) (a : Nat) (b : Byte) : (hostWriteByte s a b).err = s.err := by unfold hostWriteByte; split <;> rfl

@[simp] theorem hostWriteByte_underrunCnt (s : State) (a : Nat) (b : Byte) : (hostWriteByte s a b).underrunCnt = s.underrunCnt := by unfold hostWriteByte; split <;> rfl

@[simp] theorem hostWriteByte_overrunCnt (s : State) (a : Nat) (b : Byte) : (hostWriteByte s a b).overrunCnt = s.overrunCnt := by unfold hostWriteByte; split <;> rfl

@[simp] theorem hostWriteByte_satCnt (s : State) (a : Nat) (b : Byte) : (hostWriteByte s a b).satCnt = s.satCnt := by unfold hostWriteByte; split <;> rfl

@[simp] theorem hostWriteByte_contPending (s : State) (a : Nat) (b : Byte) : (hostWriteByte s a b).contPending = s.contPending := by unfold hostWriteByte; split <;> rfl

@[simp] theorem hostWriteByte_contActive (s : State) (a : Nat) (b : Byte) : (hostWriteByte s a b).contActive = s.contActive := by unfold hostWriteByte; split <;> rfl

@[simp] theorem hostWriteByte_contMasked (s : State) (a : Nat) (b : Byte) : (hostWriteByte s a b).contMasked = s.contMasked := by unfold hostWriteByte; split <;> rfl

@[simp] theorem hostWriteByte_inState (s : State) (a : Nat) (b : Byte) : (hostWriteByte s a b).inState = s.inState := by unfold hostWriteByte; split <;> rfl

@[simp] theorem hostWriteByte_outState (s : State) (a : Nat) (b : Byte) : (hostWriteByte s a b).outState = s.outState := by unfold hostWriteByte; split <;> rfl

@[simp] theorem hostWriteByte_inPos (s : State) (a : Nat) (b : Byte) : (hostWriteByte s a b).inPos = s.inPos := by unfold hostWriteByte; split <;> rfl

@[simp] theorem hostWriteByte_outPos (s : State) (a : Nat) (b : Byte) : (hostWriteByte s a b).outPos = s.outPos := by unfold hostWriteByte; split <;> rfl

@[simp] theorem hostWriteByte_outTarget (s : State) (a : Nat) (b : Byte) : (hostWriteByte s a b).outTarget = s.outTarget := by unfold hostWriteByte; split <;> rfl

@[simp] theorem hostWriteByte_fresh0 (s : State) (a : Nat) (b : Byte) : (hostWriteByte s a b).fresh0 = s.fresh0 := by unfold hostWriteByte; split <;> rfl

@[simp] theorem hostWriteByte_fresh1 (s : State) (a : Nat) (b : Byte) : (hostWriteByte s a b).fresh1 = s.fresh1 := by unfold hostWriteByte; split <;> rfl

@[simp] theorem hostWriteByte_blk (s : State) (a : Nat) (b : Byte) : (hostWriteByte s a b).blk = s.blk := by unfold hostWriteByte; split <;> rfl

@[simp] theorem hostWriteByte_iir (s : State) (a : Nat) (b : Byte) : (hostWriteByte s a b).iir = s.iir := by unfold hostWriteByte; split <;> rfl

@[simp] theorem hostWriteByte_cic (s : State) (a : Nat) (b : Byte) : (hostWriteByte s a b).cic = s.cic := by unfold hostWriteByte; split <;> rfl

@[simp] theorem hostWriteByte_fir (s : State) (a : Nat) (b : Byte) : (hostWriteByte s a b).fir = s.fir := by unfold hostWriteByte; split <;> rfl

@[simp] theorem hostWriteByte_mem (s : State) (a : Nat) (b : Byte) : (hostWriteByte s a b).mem = if s.cfg.cachePresent then s.mem else memSet s.mem a b := by unfold hostWriteByte; split <;> rfl

@[simp] theorem hostWriteByte_cache (s : State) (a : Nat) (b : Byte) : (hostWriteByte s a b).cache = if s.cfg.cachePresent then cachePut s.cache (writtenLine s a b) else s.cache := by unfold hostWriteByte; split <;> rfl

@[simp] theorem hostWriteByte_sink (s : State) (a : Nat) (b : Byte) : (hostWriteByte s a b).sink = s.sink := by unfold hostWriteByte; split <;> rfl

/-! ### hostWriteElem -/

@[simp] theorem hostWriteElem_cfg (s : State) (a : Nat) (v : BitVec 16) : (hostWriteElem s a v).cfg = s.cfg := by simp [hostWriteElem]

@[simp] theorem hostWriteElem_inbox (s : State) (a : Nat) (v : BitVec 16) : (hostWriteElem s a v).inbox = s.inbox := by simp [hostWriteElem]

@[simp] theorem hostWriteElem_moves (s : State) (a : Nat) (v : BitVec 16) : (hostWriteElem s a v).moves = s.moves := by simp [hostWriteElem]

@[simp] theorem hostWriteElem_initDraws (s : State) (a : Nat) (v : BitVec 16) : (hostWriteElem s a v).initDraws = s.initDraws := by simp [hostWriteElem]

@[simp] theorem hostWriteElem_responses (s : State) (a : Nat) (v : BitVec 16) : (hostWriteElem s a v).responses = s.responses := by simp [hostWriteElem]

@[simp] theorem hostWriteElem_err (s : State) (a : Nat) (v : BitVec 16) : (hostWriteElem s a v).err = s.err := by simp [hostWriteElem]

@[simp] theorem hostWriteElem_underrunCnt (s : State) (a : Nat) (v : BitVec 16) : (hostWriteElem s a v).underrunCnt = s.underrunCnt := by simp [hostWriteElem]

@[simp] theorem hostWriteElem_overrunCnt (s : State) (a : Nat) (v : BitVec 16) : (hostWriteElem s a v).overrunCnt = s.overrunCnt := by simp [hostWriteElem]

@[simp] theorem hostWriteElem_satCnt (s : State) (a : Nat) (v : BitVec 16) : (hostWriteElem s a v).satCnt = s.satCnt := by simp [hostWriteElem]

@[simp] theorem hostWriteElem_contPending (s : State) (a : Nat) (v : BitVec 16) : (hostWriteElem s a v).contPending = s.contPending := by simp [hostWriteElem]

@[simp] theorem hostWriteElem_contActive (s : State) (a : Nat) (v : BitVec 16) : (hostWriteElem s a v).contActive = s.contActive := by simp [hostWriteElem]

@[simp] theorem hostWriteElem_contMasked (s : State) (a : Nat) (v : BitVec 16) : (hostWriteElem s a v).contMasked = s.contMasked := by simp [hostWriteElem]

@[simp] theorem hostWriteElem_inState (s : State) (a : Nat) (v : BitVec 16) : (hostWriteElem s a v).inState = s.inState := by simp [hostWriteElem]

@[simp] theorem hostWriteElem_outState (s : State) (a : Nat) (v : BitVec 16) : (hostWriteElem s a v).outState = s.outState := by simp [hostWriteElem]

@[simp] theorem hostWriteElem_inPos (s : State) (a : Nat) (v : BitVec 16) : (hostWriteElem s a v).inPos = s.inPos := by simp [hostWriteElem]

@[simp] theorem hostWriteElem_outPos (s : State) (a : Nat) (v : BitVec 16) : (hostWriteElem s a v).outPos = s.outPos := by simp [hostWriteElem]

@[simp] theorem hostWriteElem_outTarget (s : State) (a : Nat) (v : BitVec 16) : (hostWriteElem s a v).outTarget = s.outTarget := by simp [hostWriteElem]

@[simp] theorem hostWriteElem_fresh0 (s : State) (a : Nat) (v : BitVec 16) : (hostWriteElem s a v).fresh0 = s.fresh0 := by simp [hostWriteElem]

@[simp] theorem hostWriteElem_fresh1 (s : State) (a : Nat) (v : BitVec 16) : (hostWriteElem s a v).fresh1 = s.fresh1 := by simp [hostWriteElem]

@[simp] theorem hostWriteElem_blk (s : State) (a : Nat) (v : BitVec 16) : (hostWriteElem s a v).blk = s.blk := by simp [hostWriteElem]

@[simp] theorem hostWriteElem_iir (s : State) (a : Nat) (v : BitVec 16) : (hostWriteElem s a v).iir = s.iir := by simp [hostWriteElem]

@[simp] theorem hostWriteElem_cic (s : State) (a : Nat) (v : BitVec 16) : (hostWriteElem s a v).cic = s.cic := by simp [hostWriteElem]

@[simp] theorem hostWriteElem_fir (s : State) (a : Nat) (v : BitVec 16) : (hostWriteElem s a v).fir = s.fir := by simp [hostWriteElem]

@[simp] theorem hostWriteElem_sink (s : State) (a : Nat) (v : BitVec 16) : (hostWriteElem s a v).sink = s.sink := by simp [hostWriteElem]

/-! ### invalidate -/

@[simp] theorem invalidate_cfg (s : State) (lo hi : Nat) : (invalidate s lo hi).cfg = s.cfg := by unfold invalidate; split <;> rfl

@[simp] theorem invalidate_inbox (s : State) (lo hi : Nat) : (invalidate s lo hi).inbox = s.inbox := by unfold invalidate; split <;> rfl

@[simp] theorem invalidate_moves (s : State) (lo hi : Nat) : (invalidate s lo hi).moves = s.moves := by unfold invalidate; split <;> rfl

@[simp] theorem invalidate_initDraws (s : State) (lo hi : Nat) : (invalidate s lo hi).initDraws = s.initDraws := by unfold invalidate; split <;> rfl

@[simp] theorem invalidate_responses (s : State) (lo hi : Nat) : (invalidate s lo hi).responses = s.responses := by unfold invalidate; split <;> rfl

@[simp] theorem invalidate_err (s : State) (lo hi : Nat) : (invalidate s lo hi).err = s.err := by unfold invalidate; split <;> rfl

@[simp] theorem invalidate_underrunCnt (s : State) (lo hi : Nat) : (invalidate s lo hi).underrunCnt = s.underrunCnt := by unfold invalidate; split <;> rfl

@[simp] theorem invalidate_overrunCnt (s : State) (lo hi : Nat) : (invalidate s lo hi).overrunCnt = s.overrunCnt := by unfold invalidate; split <;> rfl

@[simp] theorem invalidate_satCnt (s : State) (lo hi : Nat) : (invalidate s lo hi).satCnt = s.satCnt := by unfold invalidate; split <;> rfl

@[simp] theorem invalidate_contPending (s : State) (lo hi : Nat) : (invalidate s lo hi).contPending = s.contPending := by unfold invalidate; split <;> rfl

@[simp] theorem invalidate_contActive (s : State) (lo hi : Nat) : (invalidate s lo hi).contActive = s.contActive := by unfold invalidate; split <;> rfl

@[simp] theorem invalidate_contMasked (s : State) (lo hi : Nat) : (invalidate s lo hi).contMasked = s.contMasked := by unfold invalidate; split <;> rfl

@[simp] theorem invalidate_inState (s : State) (lo hi : Nat) : (invalidate s lo hi).inState = s.inState := by unfold invalidate; split <;> rfl

@[simp] theorem invalidate_outState (s : State) (lo hi : Nat) : (invalidate s lo hi).outState = s.outState := by unfold invalidate; split <;> rfl

@[simp] theorem invalidate_inPos (s : State) (lo hi : Nat) : (invalidate s lo hi).inPos = s.inPos := by unfold invalidate; split <;> rfl

@[simp] theorem invalidate_outPos (s : State) (lo hi : Nat) : (invalidate s lo hi).outPos = s.outPos := by unfold invalidate; split <;> rfl

@[simp] theorem invalidate_outTarget (s : State) (lo hi : Nat) : (invalidate s lo hi).outTarget = s.outTarget := by unfold invalidate; split <;> rfl

@[simp] theorem invalidate_fresh0 (s : State) (lo hi : Nat) : (invalidate s lo hi).fresh0 = s.fresh0 := by unfold invalidate; split <;> rfl

@[simp] theorem invalidate_fresh1 (s : State) (lo hi : Nat) : (invalidate s lo hi).fresh1 = s.fresh1 := by unfold invalidate; split <;> rfl

@[simp] theorem invalidate_blk (s : State) (lo hi : Nat) : (invalidate s lo hi).blk = s.blk := by unfold invalidate; split <;> rfl

@[simp] theorem invalidate_iir (s : State) (lo hi : Nat) : (invalidate s lo hi).iir = s.iir := by unfold invalidate; split <;> rfl

@[simp] theorem invalidate_cic (s : State) (lo hi : Nat) : (invalidate s lo hi).cic = s.cic := by unfold invalidate; split <;> rfl

@[simp] theorem invalidate_fir (s : State) (lo hi : Nat) : (invalidate s lo hi).fir = s.fir := by unfold invalidate; split <;> rfl

@[simp] theorem invalidate_mem (s : State) (lo hi : Nat) : (invalidate s lo hi).mem = s.mem := by unfold invalidate; split <;> rfl

@[simp] theorem invalidate_cache (s : State) (lo hi : Nat) : (invalidate s lo hi).cache = if s.cfg.cachePresent then s.cache.filter (fun l => !lineInRange s.cfg lo hi l) else s.cache := by unfold invalidate; split <;> rfl

@[simp] theorem invalidate_sink (s : State) (lo hi : Nat) : (invalidate s lo hi).sink = s.sink := by unfold invalidate; split <;> rfl

/-! ### clean -/

@[simp] theorem clean_cfg (s : State) (lo hi : Nat) : (clean s lo hi).cfg = s.cfg := by unfold clean; split <;> rfl

@[simp] theorem clean_inbox (s : State) (lo hi : Nat) : (clean s lo hi).inbox = s.inbox := by unfold clean; split <;> rfl

@[simp] theorem clean_moves (s : State) (lo hi : Nat) : (clean s lo hi).moves = s.moves := by unfold clean; split <;> rfl

@[simp] theorem clean_initDraws (s : State) (lo hi : Nat) : (clean s lo hi).initDraws = s.initDraws := by unfold clean; split <;> rfl

@[simp] theorem clean_responses (s : State) (lo hi : Nat) : (clean s lo hi).responses = s.responses := by unfold clean; split <;> rfl

@[simp] theorem clean_err (s : State) (lo hi : Nat) : (clean s lo hi).err = s.err := by unfold clean; split <;> rfl

@[simp] theorem clean_underrunCnt (s : State) (lo hi : Nat) : (clean s lo hi).underrunCnt = s.underrunCnt := by unfold clean; split <;> rfl

@[simp] theorem clean_overrunCnt (s : State) (lo hi : Nat) : (clean s lo hi).overrunCnt = s.overrunCnt := by unfold clean; split <;> rfl

@[simp] theorem clean_satCnt (s : State) (lo hi : Nat) : (clean s lo hi).satCnt = s.satCnt := by unfold clean; split <;> rfl

@[simp] theorem clean_contPending (s : State) (lo hi : Nat) : (clean s lo hi).contPending = s.contPending := by unfold clean; split <;> rfl

@[simp] theorem clean_contActive (s : State) (lo hi : Nat) : (clean s lo hi).contActive = s.contActive := by unfold clean; split <;> rfl

@[simp] theorem clean_contMasked (s : State) (lo hi : Nat) : (clean s lo hi).contMasked = s.contMasked := by unfold clean; split <;> rfl

@[simp] theorem clean_inState (s : State) (lo hi : Nat) : (clean s lo hi).inState = s.inState := by unfold clean; split <;> rfl

@[simp] theorem clean_outState (s : State) (lo hi : Nat) : (clean s lo hi).outState = s.outState := by unfold clean; split <;> rfl

@[simp] theorem clean_inPos (s : State) (lo hi : Nat) : (clean s lo hi).inPos = s.inPos := by unfold clean; split <;> rfl

@[simp] theorem clean_outPos (s : State) (lo hi : Nat) : (clean s lo hi).outPos = s.outPos := by unfold clean; split <;> rfl

@[simp] theorem clean_outTarget (s : State) (lo hi : Nat) : (clean s lo hi).outTarget = s.outTarget := by unfold clean; split <;> rfl

@[simp] theorem clean_fresh0 (s : State) (lo hi : Nat) : (clean s lo hi).fresh0 = s.fresh0 := by unfold clean; split <;> rfl

@[simp] theorem clean_fresh1 (s : State) (lo hi : Nat) : (clean s lo hi).fresh1 = s.fresh1 := by unfold clean; split <;> rfl

@[simp] theorem clean_blk (s : State) (lo hi : Nat) : (clean s lo hi).blk = s.blk := by unfold clean; split <;> rfl

@[simp] theorem clean_iir (s : State) (lo hi : Nat) : (clean s lo hi).iir = s.iir := by unfold clean; split <;> rfl

@[simp] theorem clean_cic (s : State) (lo hi : Nat) : (clean s lo hi).cic = s.cic := by unfold clean; split <;> rfl

@[simp] theorem clean_fir (s : State) (lo hi : Nat) : (clean s lo hi).fir = s.fir := by unfold clean; split <;> rfl

@[simp] theorem clean_sink (s : State) (lo hi : Nat) : (clean s lo hi).sink = s.sink := by unfold clean; split <;> rfl

/-! ### cleanInvalidate -/

@[simp] theorem cleanInvalidate_cfg (s : State) (lo hi : Nat) : (cleanInvalidate s lo hi).cfg = s.cfg := by simp [cleanInvalidate]

@[simp] theorem cleanInvalidate_inbox (s : State) (lo hi : Nat) : (cleanInvalidate s lo hi).inbox = s.inbox := by simp [cleanInvalidate]

@[simp] theorem cleanInvalidate_moves (s : State) (lo hi : Nat) : (cleanInvalidate s lo hi).moves = s.moves := by simp [cleanInvalidate]

@[simp] theorem cleanInvalidate_initDraws (s : State) (lo hi : Nat) : (cleanInvalidate s lo hi).initDraws = s.initDraws := by simp [cleanInvalidate]

@[simp] theorem cleanInvalidate_responses (s : State) (lo hi : Nat) : (cleanInvalidate s lo hi).responses = s.responses := by simp [cleanInvalidate]

@[simp] theorem cleanInvalidate_err (s : State) (lo hi : Nat) : (cleanInvalidate s lo hi).err = s.err := by simp [cleanInvalidate]

@[simp] theorem cleanInvalidate_underrunCnt (s : State) (lo hi : Nat) : (cleanInvalidate s lo hi).underrunCnt = s.underrunCnt := by simp [cleanInvalidate]

@[simp] theorem cleanInvalidate_overrunCnt (s : State) (lo hi : Nat) : (cleanInvalidate s lo hi).overrunCnt = s.overrunCnt := by simp [cleanInvalidate]

@[simp] theorem cleanInvalidate_satCnt (s : State) (lo hi : Nat) : (cleanInvalidate s lo hi).satCnt = s.satCnt := by simp [cleanInvalidate]

@[simp] theorem cleanInvalidate_contPending (s : State) (lo hi : Nat) : (cleanInvalidate s lo hi).contPending = s.contPending := by simp [cleanInvalidate]

@[simp] theorem cleanInvalidate_contActive (s : State) (lo hi : Nat) : (cleanInvalidate s lo hi).contActive = s.contActive := by simp [cleanInvalidate]

@[simp] theorem cleanInvalidate_contMasked (s : State) (lo hi : Nat) : (cleanInvalidate s lo hi).contMasked = s.contMasked := by simp [cleanInvalidate]

@[simp] theorem cleanInvalidate_inState (s : State) (lo hi : Nat) : (cleanInvalidate s lo hi).inState = s.inState := by simp [cleanInvalidate]

@[simp] theorem cleanInvalidate_outState (s : State) (lo hi : Nat) : (cleanInvalidate s lo hi).outState = s.outState := by simp [cleanInvalidate]

@[simp] theorem cleanInvalidate_inPos (s : State) (lo hi : Nat) : (cleanInvalidate s lo hi).inPos = s.inPos := by simp [cleanInvalidate]

@[simp] theorem cleanInvalidate_outPos (s : State) (lo hi : Nat) : (cleanInvalidate s lo hi).outPos = s.outPos := by simp [cleanInvalidate]

@[simp] theorem cleanInvalidate_outTarget (s : State) (lo hi : Nat) : (cleanInvalidate s lo hi).outTarget = s.outTarget := by simp [cleanInvalidate]

@[simp] theorem cleanInvalidate_fresh0 (s : State) (lo hi : Nat) : (cleanInvalidate s lo hi).fresh0 = s.fresh0 := by simp [cleanInvalidate]

@[simp] theorem cleanInvalidate_fresh1 (s : State) (lo hi : Nat) : (cleanInvalidate s lo hi).fresh1 = s.fresh1 := by simp [cleanInvalidate]

@[simp] theorem cleanInvalidate_blk (s : State) (lo hi : Nat) : (cleanInvalidate s lo hi).blk = s.blk := by simp [cleanInvalidate]

@[simp] theorem cleanInvalidate_iir (s : State) (lo hi : Nat) : (cleanInvalidate s lo hi).iir = s.iir := by simp [cleanInvalidate]

@[simp] theorem cleanInvalidate_cic (s : State) (lo hi : Nat) : (cleanInvalidate s lo hi).cic = s.cic := by simp [cleanInvalidate]

@[simp] theorem cleanInvalidate_fir (s : State) (lo hi : Nat) : (cleanInvalidate s lo hi).fir = s.fir := by simp [cleanInvalidate]

@[simp] theorem cleanInvalidate_sink (s : State) (lo hi : Nat) : (cleanInvalidate s lo hi).sink = s.sink := by simp [cleanInvalidate]

/-! ### evictLine -/

@[simp] theorem evictLine_cfg (s : State) (la : Nat) : (evictLine s la).cfg = s.cfg := by unfold evictLine; split <;> rfl

@[simp] theorem evictLine_inbox (s : State) (la : Nat) : (evictLine s la).inbox = s.inbox := by unfold evictLine; split <;> rfl

@[simp] theorem evictLine_moves (s : State) (la : Nat) : (evictLine s la).moves = s.moves := by unfold evictLine; split <;> rfl

@[simp] theorem evictLine_initDraws (s : State) (la : Nat) : (evictLine s la).initDraws = s.initDraws := by unfold evictLine; split <;> rfl

@[simp] theorem evictLine_responses (s : State) (la : Nat) : (evictLine s la).responses = s.responses := by unfold evictLine; split <;> rfl

@[simp] theorem evictLine_err (s : State) (la : Nat) : (evictLine s la).err = s.err := by unfold evictLine; split <;> rfl

@[simp] theorem evictLine_underrunCnt (s : State) (la : Nat) : (evictLine s la).underrunCnt = s.underrunCnt := by unfold evictLine; split <;> rfl

@[simp] theorem evictLine_overrunCnt (s : State) (la : Nat) : (evictLine s la).overrunCnt = s.overrunCnt := by unfold evictLine; split <;> rfl

@[simp] theorem evictLine_satCnt (s : State) (la : Nat) : (evictLine s la).satCnt = s.satCnt := by unfold evictLine; split <;> rfl

@[simp] theorem evictLine_contPending (s : State) (la : Nat) : (evictLine s la).contPending = s.contPending := by unfold evictLine; split <;> rfl

@[simp] theorem evictLine_contActive (s : State) (la : Nat) : (evictLine s la).contActive = s.contActive := by unfold evictLine; split <;> rfl

@[simp] theorem evictLine_contMasked (s : State) (la : Nat) : (evictLine s la).contMasked = s.contMasked := by unfold evictLine; split <;> rfl

@[simp] theorem evictLine_inState (s : State) (la : Nat) : (evictLine s la).inState = s.inState := by unfold evictLine; split <;> rfl

@[simp] theorem evictLine_outState (s : State) (la : Nat) : (evictLine s la).outState = s.outState := by unfold evictLine; split <;> rfl

@[simp] theorem evictLine_inPos (s : State) (la : Nat) : (evictLine s la).inPos = s.inPos := by unfold evictLine; split <;> rfl

@[simp] theorem evictLine_outPos (s : State) (la : Nat) : (evictLine s la).outPos = s.outPos := by unfold evictLine; split <;> rfl

@[simp] theorem evictLine_outTarget (s : State) (la : Nat) : (evictLine s la).outTarget = s.outTarget := by unfold evictLine; split <;> rfl

@[simp] theorem evictLine_fresh0 (s : State) (la : Nat) : (evictLine s la).fresh0 = s.fresh0 := by unfold evictLine; split <;> rfl

@[simp] theorem evictLine_fresh1 (s : State) (la : Nat) : (evictLine s la).fresh1 = s.fresh1 := by unfold evictLine; split <;> rfl

@[simp] theorem evictLine_blk (s : State) (la : Nat) : (evictLine s la).blk = s.blk := by unfold evictLine; split <;> rfl

@[simp] theorem evictLine_iir (s : State) (la : Nat) : (evictLine s la).iir = s.iir := by unfold evictLine; split <;> rfl

@[simp] theorem evictLine_cic (s : State) (la : Nat) : (evictLine s la).cic = s.cic := by unfold evictLine; split <;> rfl

@[simp] theorem evictLine_fir (s : State) (la : Nat) : (evictLine s la).fir = s.fir := by unfold evictLine; split <;> rfl

@[simp] theorem evictLine_sink (s : State) (la : Nat) : (evictLine s la).sink = s.sink := by unfold evictLine; split <;> rfl

/-! ### writeFrame -/

@[simp] theorem writeFrame_cfg (s : State) (a : Nat) (x : Sample) : (writeFrame s a x).cfg = s.cfg :=
  foldl_field (fun t : State => t.cfg) _ (by simp) _ s

@[simp] theorem writeFrame_inbox (s : State) (a : Nat) (x : Sample) : (writeFrame s a x).inbox = s.inbox :=
  foldl_field (fun t : State => t.inbox) _ (by simp) _ s

@[simp] theorem writeFrame_moves (s : State) (a : Nat) (x : Sample) : (writeFrame s a x).moves = s.moves :=
  foldl_field (fun t : State => t.moves) _ (by simp) _ s

@[simp] theorem writeFrame_initDraws (s : State) (a : Nat) (x : Sample) : (writeFrame s a x).initDraws = s.initDraws :=
  foldl_field (fun t : State => t.initDraws) _ (by simp) _ s

@[simp] theorem writeFrame_responses (s : State) (a : Nat) (x : Sample) : (writeFrame s a x).responses = s.responses :=
  foldl_field (fun t : State => t.responses) _ (by simp) _ s

@[simp] theorem writeFrame_err (s : State) (a : Nat) (x : Sample) : (writeFrame s a x).err = s.err :=
  foldl_field (fun t : State => t.err) _ (by simp) _ s

@[simp] theorem writeFrame_underrunCnt (s : State) (a : Nat) (x : Sample) : (writeFrame s a x).underrunCnt = s.underrunCnt :=
  foldl_field (fun t : State => t.underrunCnt) _ (by simp) _ s

@[simp] theorem writeFrame_overrunCnt (s : State) (a : Nat) (x : Sample) : (writeFrame s a x).overrunCnt = s.overrunCnt :=
  foldl_field (fun t : State => t.overrunCnt) _ (by simp) _ s

@[simp] theorem writeFrame_satCnt (s : State) (a : Nat) (x : Sample) : (writeFrame s a x).satCnt = s.satCnt :=
  foldl_field (fun t : State => t.satCnt) _ (by simp) _ s

@[simp] theorem writeFrame_contPending (s : State) (a : Nat) (x : Sample) : (writeFrame s a x).contPending = s.contPending :=
  foldl_field (fun t : State => t.contPending) _ (by simp) _ s

@[simp] theorem writeFrame_contActive (s : State) (a : Nat) (x : Sample) : (writeFrame s a x).contActive = s.contActive :=
  foldl_field (fun t : State => t.contActive) _ (by simp) _ s

@[simp] theorem writeFrame_contMasked (s : State) (a : Nat) (x : Sample) : (writeFrame s a x).contMasked = s.contMasked :=
  foldl_field (fun t : State => t.contMasked) _ (by simp) _ s

@[simp] theorem writeFrame_inState (s : State) (a : Nat) (x : Sample) : (writeFrame s a x).inState = s.inState :=
  foldl_field (fun t : State => t.inState) _ (by simp) _ s

@[simp] theorem writeFrame_outState (s : State) (a : Nat) (x : Sample) : (writeFrame s a x).outState = s.outState :=
  foldl_field (fun t : State => t.outState) _ (by simp) _ s

@[simp] theorem writeFrame_inPos (s : State) (a : Nat) (x : Sample) : (writeFrame s a x).inPos = s.inPos :=
  foldl_field (fun t : State => t.inPos) _ (by simp) _ s

@[simp] theorem writeFrame_outPos (s : State) (a : Nat) (x : Sample) : (writeFrame s a x).outPos = s.outPos :=
  foldl_field (fun t : State => t.outPos) _ (by simp) _ s

@[simp] theorem writeFrame_outTarget (s : State) (a : Nat) (x : Sample) : (writeFrame s a x).outTarget = s.outTarget :=
  foldl_field (fun t : State => t.outTarget) _ (by simp) _ s

@[simp] theorem writeFrame_fresh0 (s : State) (a : Nat) (x : Sample) : (writeFrame s a x).fresh0 = s.fresh0 :=
  foldl_field (fun t : State => t.fresh0) _ (by simp) _ s

@[simp] theorem writeFrame_fresh1 (s : State) (a : Nat) (x : Sample) : (writeFrame s a x).fresh1 = s.fresh1 :=
  foldl_field (fun t : State => t.fresh1) _ (by simp) _ s

@[simp] theorem writeFrame_blk (s : State) (a : Nat) (x : Sample) : (writeFrame s a x).blk = s.blk :=
  foldl_field (fun t : State => t.blk) _ (by simp) _ s

@[simp] theorem writeFrame_iir (s : State) (a : Nat) (x : Sample) : (writeFrame s a x).iir = s.iir :=
  foldl_field (fun t : State => t.iir) _ (by simp) _ s

@[simp] theorem writeFrame_cic (s : State) (a : Nat) (x : Sample) : (writeFrame s a x).cic = s.cic :=
  foldl_field (fun t : State => t.cic) _ (by simp) _ s

@[simp] theorem writeFrame_fir (s : State) (a : Nat) (x : Sample) : (writeFrame s a x).fir = s.fir :=
  foldl_field (fun t : State => t.fir) _ (by simp) _ s

@[simp] theorem writeFrame_sink (s : State) (a : Nat) (x : Sample) : (writeFrame s a x).sink = s.sink :=
  foldl_field (fun t : State => t.sink) _ (by simp) _ s

/-! ### writeFrames -/

@[simp] theorem writeFrames_cfg (xs : List Sample) (s : State) (a : Nat) : (writeFrames s a xs).cfg = s.cfg := by
  induction xs generalizing s a with
  | nil => rfl
  | cons x xs ih => simp [writeFrames, ih]

@[simp] theorem writeFrames_inbox (xs : List Sample) (s : State) (a : Nat) : (writeFrames s a xs).inbox = s.inbox := by
  induction xs generalizing s a with
  | nil => rfl
  | cons x xs ih => simp [writeFrames, ih]

@[simp] theorem writeFrames_moves (xs : List Sample) (s : State) (a : Nat) : (writeFrames s a xs).moves = s.moves := by
  induction xs generalizing s a with
  | nil => rfl
  | cons x xs ih => simp [writeFrames, ih]

@[simp] theorem writeFrames_initDraws (xs : List Sample) (s : State) (a : Nat) : (writeFrames s a xs).initDraws = s.initDraws := by
  induction xs generalizing s a with
  | nil => rfl
  | cons x xs ih => simp [writeFrames, ih]

@[simp] theorem writeFrames_responses (xs : List Sample) (s : State) (a : Nat) : (writeFrames s a xs).responses = s.responses := by
  induction xs generalizing s a with
  | nil => rfl
  | cons x xs ih => simp [writeFrames, ih]

@[simp] theorem writeFrames_err (xs : List Sample) (s : State) (a : Nat) : (writeFrames s a xs).err = s.err := by
  induction xs generalizing s a with
  | nil => rfl
  | cons x xs ih => simp [writeFrames, ih]

@[simp] theorem writeFrames_underrunCnt (xs : List Sample) (s : State) (a : Nat) : (writeFrames s a xs).underrunCnt = s.underrunCnt := by
  induction xs generalizing s a with
  | nil => rfl
  | cons x xs ih => simp [writeFrames, ih]

@[simp] theorem writeFrames_overrunCnt (xs : List Sample) (s : State) (a : Nat) : (writeFrames s a xs).overrunCnt = s.overrunCnt := by
  induction xs generalizing s a with
  | nil => rfl
  | cons x xs ih => simp [writeFrames, ih]

@[simp] theorem writeFrames_satCnt (xs : List Sample) (s : State) (a : Nat) : (writeFrames s a xs).satCnt = s.satCnt := by
  induction xs generalizing s a with
  | nil => rfl
  | cons x xs ih => simp [writeFrames, ih]

@[simp] theorem writeFrames_contPending (xs : List Sample) (s : State) (a : Nat) : (writeFrames s a xs).contPending = s.contPending := by
  induction xs generalizing s a with
  | nil => rfl
  | cons x xs ih => simp [writeFrames, ih]

@[simp] theorem writeFrames_contActive (xs : List Sample) (s : State) (a : Nat) : (writeFrames s a xs).contActive = s.contActive := by
  induction xs generalizing s a with
  | nil => rfl
  | cons x xs ih => simp [writeFrames, ih]

@[simp] theorem writeFrames_contMasked (xs : List Sample) (s : State) (a : Nat) : (writeFrames s a xs).contMasked = s.contMasked := by
  induction xs generalizing s a with
  | nil => rfl
  | cons x xs ih => simp [writeFrames, ih]

@[simp] theorem writeFrames_inState (xs : List Sample) (s : State) (a : Nat) : (writeFrames s a xs).inState = s.inState := by
  induction xs generalizing s a with
  | nil => rfl
  | cons x xs ih => simp [writeFrames, ih]

@[simp] theorem writeFrames_outState (xs : List Sample) (s : State) (a : Nat) : (writeFrames s a xs).outState = s.outState := by
  induction xs generalizing s a with
  | nil => rfl
  | cons x xs ih => simp [writeFrames, ih]

@[simp] theorem writeFrames_inPos (xs : List Sample) (s : State) (a : Nat) : (writeFrames s a xs).inPos = s.inPos := by
  induction xs generalizing s a with
  | nil => rfl
  | cons x xs ih => simp [writeFrames, ih]

@[simp] theorem writeFrames_outPos (xs : List Sample) (s : State) (a : Nat) : (writeFrames s a xs).outPos = s.outPos := by
  induction xs generalizing s a with
  | nil => rfl
  | cons x xs ih => simp [writeFrames, ih]

@[simp] theorem writeFrames_outTarget (xs : List Sample) (s : State) (a : Nat) : (writeFrames s a xs).outTarget = s.outTarget := by
  induction xs generalizing s a with
  | nil => rfl
  | cons x xs ih => simp [writeFrames, ih]

@[simp] theorem writeFrames_fresh0 (xs : List Sample) (s : State) (a : Nat) : (writeFrames s a xs).fresh0 = s.fresh0 := by
  induction xs generalizing s a with
  | nil => rfl
  | cons x xs ih => simp [writeFrames, ih]

@[simp] theorem writeFrames_fresh1 (xs : List Sample) (s : State) (a : Nat) : (writeFrames s a xs).fresh1 = s.fresh1 := by
  induction xs generalizing s a with
  | nil => rfl
  | cons x xs ih => simp [writeFrames, ih]

@[simp] theorem writeFrames_blk (xs : List Sample) (s : State) (a : Nat) : (writeFrames s a xs).blk = s.blk := by
  induction xs generalizing s a with
  | nil => rfl
  | cons x xs ih => simp [writeFrames, ih]

@[simp] theorem writeFrames_iir (xs : List Sample) (s : State) (a : Nat) : (writeFrames s a xs).iir = s.iir := by
  induction xs generalizing s a with
  | nil => rfl
  | cons x xs ih => simp [writeFrames, ih]

@[simp] theorem writeFrames_cic (xs : List Sample) (s : State) (a : Nat) : (writeFrames s a xs).cic = s.cic := by
  induction xs generalizing s a with
  | nil => rfl
  | cons x xs ih => simp [writeFrames, ih]

@[simp] theorem writeFrames_fir (xs : List Sample) (s : State) (a : Nat) : (writeFrames s a xs).fir = s.fir := by
  induction xs generalizing s a with
  | nil => rfl
  | cons x xs ih => simp [writeFrames, ih]

@[simp] theorem writeFrames_sink (xs : List Sample) (s : State) (a : Nat) : (writeFrames s a xs).sink = s.sink := by
  induction xs generalizing s a with
  | nil => rfl
  | cons x xs ih => simp [writeFrames, ih]

/-! ### touchInHalf -/

@[simp] theorem touchInHalf_cfg (s : State) (h : Half) : (touchInHalf s h).cfg = s.cfg :=
  foldl_field (fun t : State => t.cfg) _ (by simp) _ s

@[simp] theorem touchInHalf_inbox (s : State) (h : Half) : (touchInHalf s h).inbox = s.inbox :=
  foldl_field (fun t : State => t.inbox) _ (by simp) _ s

@[simp] theorem touchInHalf_moves (s : State) (h : Half) : (touchInHalf s h).moves = s.moves :=
  foldl_field (fun t : State => t.moves) _ (by simp) _ s

@[simp] theorem touchInHalf_initDraws (s : State) (h : Half) : (touchInHalf s h).initDraws = s.initDraws :=
  foldl_field (fun t : State => t.initDraws) _ (by simp) _ s

@[simp] theorem touchInHalf_responses (s : State) (h : Half) : (touchInHalf s h).responses = s.responses :=
  foldl_field (fun t : State => t.responses) _ (by simp) _ s

@[simp] theorem touchInHalf_err (s : State) (h : Half) : (touchInHalf s h).err = s.err :=
  foldl_field (fun t : State => t.err) _ (by simp) _ s

@[simp] theorem touchInHalf_underrunCnt (s : State) (h : Half) : (touchInHalf s h).underrunCnt = s.underrunCnt :=
  foldl_field (fun t : State => t.underrunCnt) _ (by simp) _ s

@[simp] theorem touchInHalf_overrunCnt (s : State) (h : Half) : (touchInHalf s h).overrunCnt = s.overrunCnt :=
  foldl_field (fun t : State => t.overrunCnt) _ (by simp) _ s

@[simp] theorem touchInHalf_satCnt (s : State) (h : Half) : (touchInHalf s h).satCnt = s.satCnt :=
  foldl_field (fun t : State => t.satCnt) _ (by simp) _ s

@[simp] theorem touchInHalf_contPending (s : State) (h : Half) : (touchInHalf s h).contPending = s.contPending :=
  foldl_field (fun t : State => t.contPending) _ (by simp) _ s

@[simp] theorem touchInHalf_contActive (s : State) (h : Half) : (touchInHalf s h).contActive = s.contActive :=
  foldl_field (fun t : State => t.contActive) _ (by simp) _ s

@[simp] theorem touchInHalf_contMasked (s : State) (h : Half) : (touchInHalf s h).contMasked = s.contMasked :=
  foldl_field (fun t : State => t.contMasked) _ (by simp) _ s

@[simp] theorem touchInHalf_inState (s : State) (h : Half) : (touchInHalf s h).inState = s.inState :=
  foldl_field (fun t : State => t.inState) _ (by simp) _ s

@[simp] theorem touchInHalf_outState (s : State) (h : Half) : (touchInHalf s h).outState = s.outState :=
  foldl_field (fun t : State => t.outState) _ (by simp) _ s

@[simp] theorem touchInHalf_inPos (s : State) (h : Half) : (touchInHalf s h).inPos = s.inPos :=
  foldl_field (fun t : State => t.inPos) _ (by simp) _ s

@[simp] theorem touchInHalf_outPos (s : State) (h : Half) : (touchInHalf s h).outPos = s.outPos :=
  foldl_field (fun t : State => t.outPos) _ (by simp) _ s

@[simp] theorem touchInHalf_outTarget (s : State) (h : Half) : (touchInHalf s h).outTarget = s.outTarget :=
  foldl_field (fun t : State => t.outTarget) _ (by simp) _ s

@[simp] theorem touchInHalf_fresh0 (s : State) (h : Half) : (touchInHalf s h).fresh0 = s.fresh0 :=
  foldl_field (fun t : State => t.fresh0) _ (by simp) _ s

@[simp] theorem touchInHalf_fresh1 (s : State) (h : Half) : (touchInHalf s h).fresh1 = s.fresh1 :=
  foldl_field (fun t : State => t.fresh1) _ (by simp) _ s

@[simp] theorem touchInHalf_blk (s : State) (h : Half) : (touchInHalf s h).blk = s.blk :=
  foldl_field (fun t : State => t.blk) _ (by simp) _ s

@[simp] theorem touchInHalf_iir (s : State) (h : Half) : (touchInHalf s h).iir = s.iir :=
  foldl_field (fun t : State => t.iir) _ (by simp) _ s

@[simp] theorem touchInHalf_cic (s : State) (h : Half) : (touchInHalf s h).cic = s.cic :=
  foldl_field (fun t : State => t.cic) _ (by simp) _ s

@[simp] theorem touchInHalf_fir (s : State) (h : Half) : (touchInHalf s h).fir = s.fir :=
  foldl_field (fun t : State => t.fir) _ (by simp) _ s

@[simp] theorem touchInHalf_mem (s : State) (h : Half) : (touchInHalf s h).mem = s.mem :=
  foldl_field (fun t : State => t.mem) _ (by simp) _ s

@[simp] theorem touchInHalf_sink (s : State) (h : Half) : (touchInHalf s h).sink = s.sink :=
  foldl_field (fun t : State => t.sink) _ (by simp) _ s

/-! ### putBlock -/

@[simp] theorem putBlock_cfg (h : Half) (xs : List Sample) (s : State) : (putBlock h xs s).cfg = s.cfg := by simp [putBlock]

@[simp] theorem putBlock_inbox (h : Half) (xs : List Sample) (s : State) : (putBlock h xs s).inbox = s.inbox := by simp [putBlock]

@[simp] theorem putBlock_moves (h : Half) (xs : List Sample) (s : State) : (putBlock h xs s).moves = s.moves := by simp [putBlock]

@[simp] theorem putBlock_initDraws (h : Half) (xs : List Sample) (s : State) : (putBlock h xs s).initDraws = s.initDraws := by simp [putBlock]

@[simp] theorem putBlock_responses (h : Half) (xs : List Sample) (s : State) : (putBlock h xs s).responses = s.responses := by simp [putBlock]

@[simp] theorem putBlock_err (h : Half) (xs : List Sample) (s : State) : (putBlock h xs s).err = s.err := by simp [putBlock]

@[simp] theorem putBlock_underrunCnt (h : Half) (xs : List Sample) (s : State) : (putBlock h xs s).underrunCnt = s.underrunCnt := by simp [putBlock]

@[simp] theorem putBlock_overrunCnt (h : Half) (xs : List Sample) (s : State) : (putBlock h xs s).overrunCnt = s.overrunCnt := by simp [putBlock]

@[simp] theorem putBlock_satCnt (h : Half) (xs : List Sample) (s : State) : (putBlock h xs s).satCnt = s.satCnt := by simp [putBlock]

@[simp] theorem putBlock_contPending (h : Half) (xs : List Sample) (s : State) : (putBlock h xs s).contPending = s.contPending := by simp [putBlock]

@[simp] theorem putBlock_contActive (h : Half) (xs : List Sample) (s : State) : (putBlock h xs s).contActive = s.contActive := by simp [putBlock]

@[simp] theorem putBlock_contMasked (h : Half) (xs : List Sample) (s : State) : (putBlock h xs s).contMasked = s.contMasked := by simp [putBlock]

@[simp] theorem putBlock_inState (h : Half) (xs : List Sample) (s : State) : (putBlock h xs s).inState = s.inState := by simp [putBlock]

@[simp] theorem putBlock_outState (h : Half) (xs : List Sample) (s : State) : (putBlock h xs s).outState = s.outState := by simp [putBlock]

@[simp] theorem putBlock_inPos (h : Half) (xs : List Sample) (s : State) : (putBlock h xs s).inPos = s.inPos := by simp [putBlock]

@[simp] theorem putBlock_outPos (h : Half) (xs : List Sample) (s : State) : (putBlock h xs s).outPos = s.outPos := by simp [putBlock]

@[simp] theorem putBlock_outTarget (h : Half) (xs : List Sample) (s : State) : (putBlock h xs s).outTarget = s.outTarget := by simp [putBlock]

@[simp] theorem putBlock_fresh0 (h : Half) (xs : List Sample) (s : State) : (putBlock h xs s).fresh0 = if h = .half0 then true else s.fresh0 := by simp [putBlock]

@[simp] theorem putBlock_fresh1 (h : Half) (xs : List Sample) (s : State) : (putBlock h xs s).fresh1 = if h = .half1 then true else s.fresh1 := by simp [putBlock]

@[simp] theorem putBlock_blk (h : Half) (xs : List Sample) (s : State) : (putBlock h xs s).blk = s.blk := by simp [putBlock]

@[simp] theorem putBlock_iir (h : Half) (xs : List Sample) (s : State) : (putBlock h xs s).iir = s.iir := by simp [putBlock]

@[simp] theorem putBlock_cic (h : Half) (xs : List Sample) (s : State) : (putBlock h xs s).cic = s.cic := by simp [putBlock]

@[simp] theorem putBlock_fir (h : Half) (xs : List Sample) (s : State) : (putBlock h xs s).fir = s.fir := by simp [putBlock]

@[simp] theorem putBlock_sink (h : Half) (xs : List Sample) (s : State) : (putBlock h xs s).sink = s.sink := by simp [putBlock]

/-! ### getBlock -/

@[simp] theorem getBlock_cfg (d : Nat) (s : State) : (getBlock d s).cfg = s.cfg := by simp [getBlock, inHalfReady]

@[simp] theorem getBlock_inbox (d : Nat) (s : State) : (getBlock d s).inbox = s.inbox := by simp [getBlock, inHalfReady]

@[simp] theorem getBlock_moves (d : Nat) (s : State) : (getBlock d s).moves = s.moves := by simp [getBlock, inHalfReady]

@[simp] theorem getBlock_initDraws (d : Nat) (s : State) : (getBlock d s).initDraws = s.initDraws := by simp [getBlock, inHalfReady]

@[simp] theorem getBlock_responses (d : Nat) (s : State) : (getBlock d s).responses = s.responses := by simp [getBlock, inHalfReady]

@[simp] theorem getBlock_err (d : Nat) (s : State) : (getBlock d s).err = s.err := by simp [getBlock, inHalfReady]

@[simp] theorem getBlock_underrunCnt (d : Nat) (s : State) : (getBlock d s).underrunCnt = s.underrunCnt := by simp [getBlock, inHalfReady]

@[simp] theorem getBlock_overrunCnt (d : Nat) (s : State) : (getBlock d s).overrunCnt = s.overrunCnt := by simp [getBlock, inHalfReady]

@[simp] theorem getBlock_satCnt (d : Nat) (s : State) : (getBlock d s).satCnt = s.satCnt := by simp [getBlock, inHalfReady]

@[simp] theorem getBlock_contPending (d : Nat) (s : State) : (getBlock d s).contPending = s.contPending := by simp [getBlock, inHalfReady]

@[simp] theorem getBlock_contActive (d : Nat) (s : State) : (getBlock d s).contActive = s.contActive := by simp [getBlock, inHalfReady]

@[simp] theorem getBlock_contMasked (d : Nat) (s : State) : (getBlock d s).contMasked = s.contMasked := by simp [getBlock, inHalfReady]

@[simp] theorem getBlock_inState (d : Nat) (s : State) : (getBlock d s).inState = s.inState := by simp [getBlock, inHalfReady]

@[simp] theorem getBlock_outState (d : Nat) (s : State) : (getBlock d s).outState = s.outState := by simp [getBlock, inHalfReady]

@[simp] theorem getBlock_inPos (d : Nat) (s : State) : (getBlock d s).inPos = s.inPos := by simp [getBlock, inHalfReady]

@[simp] theorem getBlock_outPos (d : Nat) (s : State) : (getBlock d s).outPos = s.outPos := by simp [getBlock, inHalfReady]

@[simp] theorem getBlock_outTarget (d : Nat) (s : State) : (getBlock d s).outTarget = s.outTarget := by simp [getBlock, inHalfReady]

@[simp] theorem getBlock_fresh0 (d : Nat) (s : State) : (getBlock d s).fresh0 = s.fresh0 := by simp [getBlock, inHalfReady]

@[simp] theorem getBlock_fresh1 (d : Nat) (s : State) : (getBlock d s).fresh1 = s.fresh1 := by simp [getBlock, inHalfReady]

@[simp] theorem getBlock_iir (d : Nat) (s : State) : (getBlock d s).iir = s.iir := by simp [getBlock, inHalfReady]

@[simp] theorem getBlock_cic (d : Nat) (s : State) : (getBlock d s).cic = s.cic := by simp [getBlock, inHalfReady]

@[simp] theorem getBlock_fir (d : Nat) (s : State) : (getBlock d s).fir = s.fir := by simp [getBlock, inHalfReady]

@[simp] theorem getBlock_mem (d : Nat) (s : State) : (getBlock d s).mem = s.mem := by simp [getBlock, inHalfReady]

@[simp] theorem getBlock_sink (d : Nat) (s : State) : (getBlock d s).sink = s.sink := by simp [getBlock, inHalfReady]

/-! ### clearInRegion -/

@[simp] theorem clearInRegion_cfg (s : State) : (clearInRegion s).cfg = s.cfg := by simp [clearInRegion]

@[simp] theorem clearInRegion_inbox (s : State) : (clearInRegion s).inbox = s.inbox := by simp [clearInRegion]

@[simp] theorem clearInRegion_moves (s : State) : (clearInRegion s).moves = s.moves := by simp [clearInRegion]

@[simp] theorem clearInRegion_initDraws (s : State) : (clearInRegion s).initDraws = s.initDraws := by simp [clearInRegion]

@[simp] theorem clearInRegion_responses (s : State) : (clearInRegion s).responses = s.responses := by simp [clearInRegion]

@[simp] theorem clearInRegion_err (s : State) : (clearInRegion s).err = s.err := by simp [clearInRegion]

@[simp] theorem clearInRegion_underrunCnt (s : State) : (clearInRegion s).underrunCnt = s.underrunCnt := by simp [clearInRegion]

@[simp] theorem clearInRegion_overrunCnt (s : State) : (clearInRegion s).overrunCnt = s.overrunCnt := by simp [clearInRegion]

@[simp] theorem clearInRegion_satCnt (s : State) : (clearInRegion s).satCnt = s.satCnt := by simp [clearInRegion]

@[simp] theorem clearInRegion_contPending (s : State) : (clearInRegion s).contPending = s.contPending := by simp [clearInRegion]

@[simp] theorem clearInRegion_contActive (s : State) : (clearInRegion s).contActive = s.contActive := by simp [clearInRegion]

@[simp] theorem clearInRegion_contMasked (s : State) : (clearInRegion s).contMasked = s.contMasked := by simp [clearInRegion]

@[simp] theorem clearInRegion_inState (s : State) : (clearInRegion s).inState = s.inState := by simp [clearInRegion]

@[simp] theorem clearInRegion_outState (s : State) : (clearInRegion s).outState = s.outState := by simp [clearInRegion]

@[simp] theorem clearInRegion_inPos (s : State) : (clearInRegion s).inPos = s.inPos := by simp [clearInRegion]

@[simp] theorem clearInRegion_outPos (s : State) : (clearInRegion s).outPos = s.outPos := by simp [clearInRegion]

@[simp] theorem clearInRegion_outTarget (s : State) : (clearInRegion s).outTarget = s.outTarget := by simp [clearInRegion]

@[simp] theorem clearInRegion_fresh0 (s : State) : (clearInRegion s).fresh0 = s.fresh0 := by simp [clearInRegion]

@[simp] theorem clearInRegion_fresh1 (s : State) : (clearInRegion s).fresh1 = s.fresh1 := by simp [clearInRegion]

@[simp] theorem clearInRegion_blk (s : State) : (clearInRegion s).blk = s.blk := by simp [clearInRegion]

@[simp] theorem clearInRegion_iir (s : State) : (clearInRegion s).iir = s.iir := by simp [clearInRegion]

@[simp] theorem clearInRegion_cic (s : State) : (clearInRegion s).cic = s.cic := by simp [clearInRegion]

@[simp] theorem clearInRegion_fir (s : State) : (clearInRegion s).fir = s.fir := by simp [clearInRegion]

@[simp] theorem clearInRegion_mem (s : State) : (clearInRegion s).mem = memZero s.mem s.cfg.inBase (2 * inHalfBytes s.cfg) := by simp [clearInRegion]

@[simp] theorem clearInRegion_sink (s : State) : (clearInRegion s).sink = s.sink := by simp [clearInRegion]

/-! ### clearOutRegion -/

@[simp] theorem clearOutRegion_cfg (s : State) : (clearOutRegion s).cfg = s.cfg := by simp [clearOutRegion]

@[simp] theorem clearOutRegion_inbox (s : State) : (clearOutRegion s).inbox = s.inbox := by simp [clearOutRegion]

@[simp] theorem clearOutRegion_moves (s : State) : (clearOutRegion s).moves = s.moves := by simp [clearOutRegion]

@[simp] theorem clearOutRegion_initDraws (s : State) : (clearOutRegion s).initDraws = s.initDraws := by simp [clearOutRegion]

@[simp] theorem clearOutRegion_responses (s : State) : (clearOutRegion s).responses = s.responses := by simp [clearOutRegion]

@[simp] theorem clearOutRegion_err (s : State) : (clearOutRegion s).err = s.err := by simp [clearOutRegion]

@[simp] theorem clearOutRegion_underrunCnt (s : State) : (clearOutRegion s).underrunCnt = s.underrunCnt := by simp [clearOutRegion]

@[simp] theorem clearOutRegion_overrunCnt (s : State) : (clearOutRegion s).overrunCnt = s.overrunCnt := by simp [clearOutRegion]

@[simp] theorem clearOutRegion_satCnt (s : State) : (clearOutRegion s).satCnt = s.satCnt := by simp [clearOutRegion]

@[simp] theorem clearOutRegion_contPending (s : State) : (clearOutRegion s).contPending = s.contPending := by simp [clearOutRegion]

@[simp] theorem clearOutRegion_contActive (s : State) : (clearOutRegion s).contActive = s.contActive := by simp [clearOutRegion]

@[simp] theorem clearOutRegion_contMasked (s : State) : (clearOutRegion s).contMasked = s.contMasked := by simp [clearOutRegion]

@[simp] theorem clearOutRegion_inState (s : State) : (clearOutRegion s).inState = s.inState := by simp [clearOutRegion]

@[simp] theorem clearOutRegion_outState (s : State) : (clearOutRegion s).outState = s.outState := by simp [clearOutRegion]

@[simp] theorem clearOutRegion_inPos (s : State) : (clearOutRegion s).inPos = s.inPos := by simp [clearOutRegion]

@[simp] theorem clearOutRegion_outPos (s : State) : (clearOutRegion s).outPos = s.outPos := by simp [clearOutRegion]

@[simp] theorem clearOutRegion_outTarget (s : State) : (clearOutRegion s).outTarget = s.outTarget := by simp [clearOutRegion]

@[simp] theorem clearOutRegion_fresh0 (s : State) : (clearOutRegion s).fresh0 = s.fresh0 := by simp [clearOutRegion]

@[simp] theorem clearOutRegion_fresh1 (s : State) : (clearOutRegion s).fresh1 = s.fresh1 := by simp [clearOutRegion]

@[simp] theorem clearOutRegion_blk (s : State) : (clearOutRegion s).blk = s.blk := by simp [clearOutRegion]

@[simp] theorem clearOutRegion_iir (s : State) : (clearOutRegion s).iir = s.iir := by simp [clearOutRegion]

@[simp] theorem clearOutRegion_cic (s : State) : (clearOutRegion s).cic = s.cic := by simp [clearOutRegion]

@[simp] theorem clearOutRegion_fir (s : State) : (clearOutRegion s).fir = s.fir := by simp [clearOutRegion]

@[simp] theorem clearOutRegion_mem (s : State) : (clearOutRegion s).mem = memZero s.mem s.cfg.outBase (2 * outHalfBytes s.cfg) := by simp [clearOutRegion]

@[simp] theorem clearOutRegion_sink (s : State) : (clearOutRegion s).sink = s.sink := by simp [clearOutRegion]

/-! ### inInitDone -/

@[simp] theorem inInitDone_cfg (s : State) : (inInitDone s).cfg = s.cfg := by simp [inInitDone]

@[simp] theorem inInitDone_inbox (s : State) : (inInitDone s).inbox = s.inbox := by simp [inInitDone]

@[simp] theorem inInitDone_moves (s : State) : (inInitDone s).moves = s.moves := by simp [inInitDone]

@[simp] theorem inInitDone_initDraws (s : State) : (inInitDone s).initDraws = s.initDraws := by simp [inInitDone]

@[simp] theorem inInitDone_responses (s : State) : (inInitDone s).responses = s.responses := by simp [inInitDone]

@[simp] theorem inInitDone_err (s : State) : (inInitDone s).err = s.err := by simp [inInitDone]

@[simp] theorem inInitDone_underrunCnt (s : State) : (inInitDone s).underrunCnt = s.underrunCnt := by simp [inInitDone]

@[simp] theorem inInitDone_overrunCnt (s : State) : (inInitDone s).overrunCnt = s.overrunCnt := by simp [inInitDone]

@[simp] theorem inInitDone_satCnt (s : State) : (inInitDone s).satCnt = s.satCnt := by simp [inInitDone]

@[simp] theorem inInitDone_contPending (s : State) : (inInitDone s).contPending = s.contPending := by simp [inInitDone]

@[simp] theorem inInitDone_contActive (s : State) : (inInitDone s).contActive = s.contActive := by simp [inInitDone]

@[simp] theorem inInitDone_contMasked (s : State) : (inInitDone s).contMasked = s.contMasked := by simp [inInitDone]

@[simp] theorem inInitDone_inState (s : State) : (inInitDone s).inState = .init := by simp [inInitDone]

@[simp] theorem inInitDone_outState (s : State) : (inInitDone s).outState = s.outState := by simp [inInitDone]

@[simp] theorem inInitDone_inPos (s : State) : (inInitDone s).inPos = 0 := by simp [inInitDone]

@[simp] theorem inInitDone_outPos (s : State) : (inInitDone s).outPos = s.outPos := by simp [inInitDone]

@[simp] theorem inInitDone_outTarget (s : State) : (inInitDone s).outTarget = s.outTarget := by simp [inInitDone]

@[simp] theorem inInitDone_fresh0 (s : State) : (inInitDone s).fresh0 = s.fresh0 := by simp [inInitDone]

@[simp] theorem inInitDone_fresh1 (s : State) : (inInitDone s).fresh1 = s.fresh1 := by simp [inInitDone]

@[simp] theorem inInitDone_blk (s : State) : (inInitDone s).blk = s.blk := by simp [inInitDone]

@[simp] theorem inInitDone_iir (s : State) : (inInitDone s).iir = s.iir := by simp [inInitDone]

@[simp] theorem inInitDone_cic (s : State) : (inInitDone s).cic = s.cic := by simp [inInitDone]

@[simp] theorem inInitDone_fir (s : State) : (inInitDone s).fir = s.fir := by simp [inInitDone]

@[simp] theorem inInitDone_mem (s : State) : (inInitDone s).mem = memZero s.mem s.cfg.inBase (2 * inHalfBytes s.cfg) := by simp [inInitDone]

@[simp] theorem inInitDone_sink (s : State) : (inInitDone s).sink = s.sink := by simp [inInitDone]

/-! ### outInitDone -/

@[simp] theorem outInitDone_cfg (s : State) : (outInitDone s).cfg = s.cfg := by simp [outInitDone]

@[simp] theorem outInitDone_inbox (s : State) : (outInitDone s).inbox = s.inbox := by simp [outInitDone]

@[simp] theorem outInitDone_moves (s : State) : (outInitDone s).moves = s.moves := by simp [outInitDone]

@[simp] theorem outInitDone_initDraws (s : State) : (outInitDone s).initDraws = s.initDraws := by simp [outInitDone]

@[simp] theorem outInitDone_responses (s : State) : (outInitDone s).responses = s.responses := by simp [outInitDone]

@[simp] theorem outInitDone_err (s : State) : (outInitDone s).err = s.err := by simp [outInitDone]

@[simp] theorem outInitDone_underrunCnt (s : State) : (outInitDone s).underrunCnt = s.underrunCnt := by simp [outInitDone]

@[simp] theorem outInitDone_overrunCnt (s : State) : (outInitDone s).overrunCnt = s.overrunCnt := by simp [outInitDone]

@[simp] theorem outInitDone_satCnt (s : State) : (outInitDone s).satCnt = s.satCnt := by simp [outInitDone]

@[simp] theorem outInitDone_contPending (s : State) : (outInitDone s).contPending = s.contPending := by simp [outInitDone]

@[simp] theorem outInitDone_contActive (s : State) : (outInitDone s).contActive = s.contActive := by simp [outInitDone]

@[simp] theorem outInitDone_contMasked (s : State) : (outInitDone s).contMasked = s.contMasked := by simp [outInitDone]

@[simp] theorem outInitDone_inState (s : State) : (outInitDone s).inState = s.inState := by simp [outInitDone]

@[simp] theorem outInitDone_outState (s : State) : (outInitDone s).outState = .init := by simp [outInitDone]

@[simp] theorem outInitDone_inPos (s : State) : (outInitDone s).inPos = s.inPos := by simp [outInitDone]

@[simp] theorem outInitDone_outPos (s : State) : (outInitDone s).outPos = 0 := by simp [outInitDone]

@[simp] theorem outInitDone_outTarget (s : State) : (outInitDone s).outTarget = .half1 := by simp [outInitDone]

@[simp] theorem outInitDone_fresh0 (s : State) : (outInitDone s).fresh0 = true := by simp [outInitDone]

@[simp] theorem outInitDone_fresh1 (s : State) : (outInitDone s).fresh1 = true := by simp [outInitDone]

@[simp] theorem outInitDone_blk (s : State) : (outInitDone s).blk = s.blk := by simp [outInitDone]

@[simp] theorem outInitDone_iir (s : State) : (outInitDone s).iir = s.iir := by simp [outInitDone]

@[simp] theorem outInitDone_cic (s : State) : (outInitDone s).cic = s.cic := by simp [outInitDone]

@[simp] theorem outInitDone_fir (s : State) : (outInitDone s).fir = s.fir := by simp [outInitDone]

@[simp] theorem outInitDone_mem (s : State) : (outInitDone s).mem = memZero s.mem s.cfg.outBase (2 * outHalfBytes s.cfg) := by simp [outInitDone]

@[simp] theorem outInitDone_sink (s : State) : (outInitDone s).sink = s.sink := by simp [outInitDone]

/-! ### iirProcess -/

@[simp] theorem iirProcess_cfg (d : Nat) (xs : List Sample) (s : State) : (iirProcess d xs s).cfg = s.cfg := rfl

@[simp] theorem iirProcess_inbox (d : Nat) (xs : List Sample) (s : State) : (iirProcess d xs s).inbox = s.inbox := rfl

@[simp] theorem iirProcess_moves (d : Nat) (xs : List Sample) (s : State) : (iirProcess d xs s).moves = s.moves := rfl

@[simp] theorem iirProcess_initDraws (d : Nat) (xs : List Sample) (s : State) : (iirProcess d xs s).initDraws = s.initDraws := rfl

@[simp] theorem iirProcess_responses (d : Nat) (xs : List Sample) (s : State) : (iirProcess d xs s).responses = s.responses := rfl

@[simp] theorem iirProcess_err (d : Nat) (xs : List Sample) (s : State) : (iirProcess d xs s).err = s.err := rfl

@[simp] theorem iirProcess_underrunCnt (d : Nat) (xs : List Sample) (s : State) : (iirProcess d xs s).underrunCnt = s.underrunCnt := rfl

@[simp] theorem iirProcess_overrunCnt (d : Nat) (xs : List Sample) (s : State) : (iirProcess d xs s).overrunCnt = s.overrunCnt := rfl

@[simp] theorem iirProcess_satCnt (d : Nat) (xs : List Sample) (s : State) : (iirProcess d xs s).satCnt = (iirRun s.cfg (iirRecompute s.cfg s.iir) s.satCnt xs).2.2 := rfl

@[simp] theorem iirProcess_contPending (d : Nat) (xs : List Sample) (s : State) : (iirProcess d xs s).contPending = s.contPending := rfl

@[simp] theorem iirProcess_contActive (d : Nat) (xs : List Sample) (s : State) : (iirProcess d xs s).contActive = s.contActive := rfl

@[simp] theorem iirProcess_contMasked (d : Nat) (xs : List Sample) (s : State) : (iirProcess d xs s).contMasked = s.contMasked := rfl

@[simp] theorem iirProcess_inState (d : Nat) (xs : List Sample) (s : State) : (iirProcess d xs s).inState = s.inState := rfl

@[simp] theorem iirProcess_outState (d : Nat) (xs : List Sample) (s : State) : (iirProcess d xs s).outState = s.outState := rfl

@[simp] theorem iirProcess_inPos (d : Nat) (xs : List Sample) (s : State) : (iirProcess d xs s).inPos = s.inPos := rfl

@[simp] theorem iirProcess_outPos (d : Nat) (xs : List Sample) (s : State) : (iirProcess d xs s).outPos = s.outPos := rfl

@[simp] theorem iirProcess_outTarget (d : Nat) (xs : List Sample) (s : State) : (iirProcess d xs s).outTarget = s.outTarget := rfl

@[simp] theorem iirProcess_fresh0 (d : Nat) (xs : List Sample) (s : State) : (iirProcess d xs s).fresh0 = s.fresh0 := rfl

@[simp] theorem iirProcess_fresh1 (d : Nat) (xs : List Sample) (s : State) : (iirProcess d xs s).fresh1 = s.fresh1 := rfl

@[simp] theorem iirProcess_blk (d : Nat) (xs : List Sample) (s : State) : (iirProcess d xs s).blk = s.blk.set d ((iirRun s.cfg (iirRecompute s.cfg s.iir) s.satCnt xs).1.map some) := rfl

@[simp] theorem iirProcess_iir (d : Nat) (xs : List Sample) (s : State) : (iirProcess d xs s).iir = (iirRun s.cfg (iirRecompute s.cfg s.iir) s.satCnt xs).2.1 := rfl

@[simp] theorem iirProcess_cic (d : Nat) (xs : List Sample) (s : State) : (iirProcess d xs s).cic = s.cic := rfl

@[simp] theorem iirProcess_fir (d : Nat) (xs : List Sample) (s : State) : (iirProcess d xs s).fir = s.fir := rfl

@[simp] theorem iirProcess_mem (d : Nat) (xs : List Sample) (s : State) : (iirProcess d xs s).mem = s.mem := rfl

@[simp] theorem iirProcess_cache (d : Nat) (xs : List Sample) (s : State) : (iirProcess d xs s).cache = s.cache := rfl

@[simp] theorem iirProcess_sink (d : Nat) (xs : List Sample) (s : State) : (iirProcess d xs s).sink = s.sink := rfl

/-! ### cicProcess -/

@[simp] theorem cicProcess_cfg (d : Nat) (xs : List Sample) (s : State) : (cicProcess d xs s).cfg = s.cfg := rfl

@[simp] theorem cicProcess_inbox (d : Nat) (xs : List Sample) (s : State) : (cicProcess d xs s).inbox = s.inbox := rfl

@[simp] theorem cicProcess_moves (d : Nat) (xs : List Sample) (s : State) : (cicProcess d xs s).moves = s.moves := rfl

@[simp] theorem cicProcess_initDraws (d : Nat) (xs : List Sample) (s : State) : (cicProcess d xs s).initDraws = s.initDraws := rfl

@[simp] theorem cicProcess_responses (d : Nat) (xs : List Sample) (s : State) : (cicProcess d xs s).responses = s.responses := rfl

@[simp] theorem cicProcess_err (d : Nat) (xs : List Sample) (s : State) : (cicProcess d xs s).err = s.err := rfl

@[simp] theorem cicProcess_underrunCnt (d : Nat) (xs : List Sample) (s : State) : (cicProcess d xs s).underrunCnt = s.underrunCnt := rfl

@[simp] theorem cicProcess_overrunCnt (d : Nat) (xs : List Sample) (s : State) : (cicProcess d xs s).overrunCnt = s.overrunCnt := rfl

@[simp] theorem cicProcess_satCnt (d : Nat) (xs : List Sample) (s : State) : (cicProcess d xs s).satCnt = s.satCnt := rfl

@[simp] theorem cicProcess_contPending (d : Nat) (xs : List Sample) (s : State) : (cicProcess d xs s).contPending = s.contPending := rfl

@[simp] theorem cicProcess_contActive (d : Nat) (xs : List Sample) (s : State) : (cicProcess d xs s).contActive = s.contActive := rfl

@[simp] theorem cicProcess_contMasked (d : Nat) (xs : List Sample) (s : State) : (cicProcess d xs s).contMasked = s.contMasked := rfl

@[simp] theorem cicProcess_inState (d : Nat) (xs : List Sample) (s : State) : (cicProcess d xs s).inState = s.inState := rfl

@[simp] theorem cicProcess_outState (d : Nat) (xs : List Sample) (s : State) : (cicProcess d xs s).outState = s.outState := rfl

@[simp] theorem cicProcess_inPos (d : Nat) (xs : List Sample) (s : State) : (cicProcess d xs s).inPos = s.inPos := rfl

@[simp] theorem cicProcess_outPos (d : Nat) (xs : List Sample) (s : State) : (cicProcess d xs s).outPos = s.outPos := rfl

@[simp] theorem cicProcess_outTarget (d : Nat) (xs : List Sample) (s : State) : (cicProcess d xs s).outTarget = s.outTarget := rfl

@[simp] theorem cicProcess_fresh0 (d : Nat) (xs : List Sample) (s : State) : (cicProcess d xs s).fresh0 = s.fresh0 := rfl

@[simp] theorem cicProcess_fresh1 (d : Nat) (xs : List Sample) (s : State) : (cicProcess d xs s).fresh1 = s.fresh1 := rfl

@[simp] theorem cicProcess_blk (d : Nat) (xs : List Sample) (s : State) : (cicProcess d xs s).blk = s.blk.set d ((cicRun s.cfg s.cic xs).1.map some) := rfl

@[simp] theorem cicProcess_iir (d : Nat) (xs : List Sample) (s : State) : (cicProcess d xs s).iir = s.iir := rfl

@[simp] theorem cicProcess_cic (d : Nat) (xs : List Sample) (s : State) : (cicProcess d xs s).cic = (cicRun s.cfg s.cic xs).2 := rfl

@[simp] theorem cicProcess_fir (d : Nat) (xs : List Sample) (s : State) : (cicProcess d xs s).fir = s.fir := rfl

@[simp] theorem cicProcess_mem (d : Nat) (xs : List Sample) (s : State) : (cicProcess d xs s).mem = s.mem := rfl

@[simp] theorem cicProcess_cache (d : Nat) (xs : List Sample) (s : State) : (cicProcess d xs s).cache = s.cache := rfl

@[simp] theorem cicProcess_sink (d : Nat) (xs : List Sample) (s : State) : (cicProcess d xs s).sink = s.sink := rfl

/-! ### firProcess -/

@[simp] theorem firProcess_cfg (d : Nat) (xs : List Sample) (s : State) : (firProcess d xs s).cfg = s.cfg := rfl

@[simp] theorem firProcess_inbox (d : Nat) (xs : List Sample) (s : State) : (firProcess d xs s).inbox = s.inbox := rfl

@[simp] theorem firProcess_moves (d : Nat) (xs : List Sample) (s : State) : (firProcess d xs s).moves = s.moves := rfl

@[simp] theorem firProcess_initDraws (d : Nat) (xs : List Sample) (s : State) : (firProcess d xs s).initDraws = s.initDraws := rfl

@[simp] theorem firProcess_responses (d : Nat) (xs : List Sample) (s : State) : (firProcess d xs s).responses = s.responses := rfl

@[simp] theorem firProcess_err (d : Nat) (xs : List Sample) (s : State) : (firProcess d xs s).err = s.err := rfl

@[simp] theorem firProcess_underrunCnt (d : Nat) (xs : List Sample) (s : State) : (firProcess d xs s).underrunCnt = s.underrunCnt := rfl

@[simp] theorem firProcess_overrunCnt (d : Nat) (xs : List Sample) (s : State) : (firProcess d xs s).overrunCnt = s.overrunCnt := rfl

@[simp] theorem firProcess_satCnt (d : Nat) (xs : List Sample) (s : State) : (firProcess d xs s).satCnt = (firRun s.cfg s.fir s.satCnt xs).2.2 := rfl

@[simp] theorem firProcess_contPending (d : Nat) (xs : List Sample) (s : State) : (firProcess d xs s).contPending = s.contPending := rfl

@[simp] theorem firProcess_contActive (d : Nat) (xs : List Sample) (s : State) : (firProcess d xs s).contActive = s.contActive := rfl

@[simp] theorem firProcess_contMasked (d : Nat) (xs : List Sample) (s : State) : (firProcess d xs s).contMasked = s.contMasked := rfl

@[simp] theorem firProcess_inState (d : Nat) (xs : List Sample) (s : State) : (firProcess d xs s).inState = s.inState := rfl

@[simp] theorem firProcess_outState (d : Nat) (xs : List Sample) (s : State) : (firProcess d xs s).outState = s.outState := rfl

@[simp] theorem firProcess_inPos (d : Nat) (xs : List Sample) (s : State) : (firProcess d xs s).inPos = s.inPos := rfl

@[simp] theorem firProcess_outPos (d : Nat) (xs : List Sample) (s : State) : (firProcess d xs s).outPos = s.outPos := rfl

@[simp] theorem firProcess_outTarget (d : Nat) (xs : List Sample) (s : State) : (firProcess d xs s).outTarget = s.outTarget := rfl

@[simp] theorem firProcess_fresh0 (d : Nat) (xs : List Sample) (s : State) : (firProcess d xs s).fresh0 = s.fresh0 := rfl

@[simp] theorem firProcess_fresh1 (d : Nat) (xs : List Sample) (s : State) : (firProcess d xs s).fresh1 = s.fresh1 := rfl

@[simp] theorem firProcess_blk (d : Nat) (xs : List Sample) (s : State) : (firProcess d xs s).blk = s.blk.set d ((firRun s.cfg s.fir s.satCnt xs).1.map some) := rfl

@[simp] theorem firProcess_iir (d : Nat) (xs : List Sample) (s : State) : (firProcess d xs s).iir = s.iir := rfl

@[simp] theorem firProcess_cic (d : Nat) (xs : List Sample) (s : State) : (firProcess d xs s).cic = s.cic := rfl

@[simp] theorem firProcess_fir (d : Nat) (xs : List Sample) (s : State) : (firProcess d xs s).fir = (firRun s.cfg s.fir s.satCnt xs).2.1 := rfl

@[simp] theorem firProcess_mem (d : Nat) (xs : List Sample) (s : State) : (firProcess d xs s).mem = s.mem := rfl

@[simp] theorem firProcess_cache (d : Nat) (xs : List Sample) (s : State) : (firProcess d xs s).cache = s.cache := rfl

@[simp] theorem firProcess_sink (d : Nat) (xs : List Sample) (s : State) : (firProcess d xs s).sink = s.sink := rfl

end Sys2Proof.Machine
end

