-- ==== Sys2Proof/Laws/Cache.lean ====
section
/-! SUPPORT. The laws of the host data cache. -/

namespace Sys2Proof.Machine

open Sys2Proof

/-- A line that is found has the number asked for. -/
theorem cacheFind_la {ls : List CacheLine} {la : Nat} {l : CacheLine} (h : cacheFind ls la = some l) : l.la = la := by
  induction ls with
  | nil => simp [cacheFind] at h
  | cons k ls ih =>
    unfold cacheFind at h
    split at h
    · next hk => cases h; exact hk
    · exact ih h

/-- A line that is found is in the cache. -/
theorem cacheFind_mem {ls : List CacheLine} {la : Nat} {l : CacheLine} (h : cacheFind ls la = some l) : l ∈ ls := by
  induction ls with
  | nil => simp [cacheFind] at h
  | cons k ls ih =>
    unfold cacheFind at h
    split at h
    · cases h; exact List.mem_cons_self
    · exact List.mem_cons_of_mem _ (ih h)

/-- A number no line has is not found. -/
theorem cacheFind_none {ls : List CacheLine} {la : Nat} : cacheFind ls la = none ↔ ∀ l ∈ ls, l.la ≠ la := by
  induction ls with
  | nil => simp [cacheFind]
  | cons k ls ih =>
    unfold cacheFind
    split
    · next hk => simp [hk]
    · next hk => simp [ih, hk]

@[simp] theorem cacheFind_cachePut_same (ls : List CacheLine) (k : CacheLine) :
    cacheFind (cachePut ls k) k.la = some k := by
  induction ls with
  | nil => simp [cachePut, cacheFind]
  | cons l ls ih =>
    unfold cachePut
    split
    · simp [cacheFind]
    · split
      · simp [cacheFind]
      · have : l.la ≠ k.la := by omega
        simp [cacheFind, this, ih]

theorem cacheFind_cachePut_other (ls : List CacheLine) (k : CacheLine) (la : Nat) (h : la ≠ k.la) :
    cacheFind (cachePut ls k) la = cacheFind ls la := by
  induction ls with
  | nil => simp [cachePut, cacheFind, h.symm]
  | cons l ls ih =>
    unfold cachePut
    split
    · simp [cacheFind, h.symm]
    · split
      · next h1 h2 =>
        have : l.la ≠ la := by omega
        simp [cacheFind, h.symm, this]
      · simp [cacheFind, ih]

/-- Every line number of a cache is at least `lo`, and the numbers rise. -/
def cacheRisesFrom (lo : Nat) : List CacheLine → Prop
  | [] => True
  | l :: rest => lo ≤ l.la ∧ cacheRisesFrom (l.la + 1) rest

theorem cacheWf_cons (l : CacheLine) (ls : List CacheLine) :
    cacheWf (l :: ls) = true ↔ cacheRisesFrom (l.la + 1) ls := by
  induction ls generalizing l with
  | nil => simp [cacheWf, cacheRisesFrom]
  | cons k ls ih => simp [cacheWf, cacheRisesFrom, ih]

theorem cacheWf_iff (ls : List CacheLine) : cacheWf ls = true ↔ cacheRisesFrom 0 ls := by
  cases ls with
  | nil => simp [cacheWf, cacheRisesFrom]
  | cons l ls => simp [cacheWf_cons, cacheRisesFrom]

theorem cacheRisesFrom_le {ls : List CacheLine} {lo : Nat} (h : cacheRisesFrom lo ls) : ∀ l ∈ ls, lo ≤ l.la := by
  induction ls generalizing lo with
  | nil => simp
  | cons k ls ih =>
    intro l hl
    rcases List.mem_cons.1 hl with rfl | hl
    · exact h.1
    · have := ih h.2 l hl
      have := h.1
      omega

theorem cachePut_risesFrom (ls : List CacheLine) (lo : Nat) (k : CacheLine) (hk : lo ≤ k.la)
    (h : cacheRisesFrom lo ls) : cacheRisesFrom lo (cachePut ls k) := by
  induction ls generalizing lo with
  | nil => exact ⟨hk, trivial⟩
  | cons l ls ih =>
    unfold cachePut
    obtain ⟨h1, h2⟩ := h
    split
    · exact ⟨hk, by omega, h2⟩
    · split
      · next h3 => exact ⟨hk, by rw [h3]; exact h2⟩
      · exact ⟨h1, ih _ (by omega) h2⟩

/-- Putting a line keeps the canonical form. -/
theorem cachePut_wf (ls : List CacheLine) (k : CacheLine) (h : cacheWf ls = true) : cacheWf (cachePut ls k) = true := by
  rw [cacheWf_iff] at *
  exact cachePut_risesFrom ls 0 k (Nat.zero_le _) h

theorem cacheRisesFrom_mono {lo lo' : Nat} (h : lo' ≤ lo) {ls : List CacheLine} (hl : cacheRisesFrom lo ls) :
    cacheRisesFrom lo' ls := by
  cases ls with
  | nil => trivial
  | cons l ls =>
    obtain ⟨h1, h2⟩ := hl
    exact ⟨Nat.le_trans h h1, h2⟩

theorem filter_risesFrom (p : CacheLine → Bool) (ls : List CacheLine) (lo : Nat) (h : cacheRisesFrom lo ls) :
    cacheRisesFrom lo (ls.filter p) := by
  induction ls generalizing lo with
  | nil => trivial
  | cons l ls ih =>
    obtain ⟨h1, h2⟩ := h
    rw [List.filter_cons]
    split
    · exact ⟨h1, ih _ h2⟩
    · exact cacheRisesFrom_mono (by omega) (ih _ h2)

/-- Dropping lines keeps the canonical form. -/
theorem filter_wf (p : CacheLine → Bool) (ls : List CacheLine) (h : cacheWf ls = true) :
    cacheWf (ls.filter p) = true := by
  rw [cacheWf_iff] at *
  exact filter_risesFrom p ls 0 h

theorem map_risesFrom (f : CacheLine → CacheLine) (hf : ∀ l, (f l).la = l.la) (ls : List CacheLine) (lo : Nat)
    (h : cacheRisesFrom lo ls) : cacheRisesFrom lo (ls.map f) := by
  induction ls generalizing lo with
  | nil => trivial
  | cons l ls ih => exact ⟨by rw [hf]; exact h.1, by rw [hf]; exact ih _ h.2⟩

/-- Changing lines but not their numbers keeps the canonical form. -/
theorem map_wf (f : CacheLine → CacheLine) (hf : ∀ l, (f l).la = l.la) (ls : List CacheLine)
    (h : cacheWf ls = true) : cacheWf (ls.map f) = true := by
  rw [cacheWf_iff] at *
  exact map_risesFrom f hf ls 0 h

/-- A line after a put is the line put or a line that was there. -/
theorem mem_cachePut {ls : List CacheLine} {k l : CacheLine} (h : l ∈ cachePut ls k) : l = k ∨ l ∈ ls := by
  induction ls with
  | nil => left; simpa [cachePut] using h
  | cons j ls ih =>
    unfold cachePut at h
    split at h
    · rcases List.mem_cons.1 h with h | h
      · exact .inl h
      · exact .inr h
    · split at h
      · rcases List.mem_cons.1 h with h | h
        · exact .inl h
        · exact .inr (List.mem_cons_of_mem _ h)
      · rcases List.mem_cons.1 h with h | h
        · exact .inr (h ▸ List.mem_cons_self)
        · rcases ih h with h | h
          · exact .inl h
          · exact .inr (List.mem_cons_of_mem _ h)

/-- A put leaves every line of another number where it was. -/
theorem mem_cachePut_other {ls : List CacheLine} {k l : CacheLine} (hk : l.la ≠ k.la) :
    l ∈ cachePut ls k ↔ l ∈ ls := by
  have hne : l ≠ k := fun h => hk (h ▸ rfl)
  induction ls with
  | nil => simp [cachePut, hne]
  | cons j ls ih =>
    unfold cachePut
    split
    · simp [hne]
    · split
      · next h1 h2 =>
        have : l ≠ j := fun h => hk (by rw [h]; exact h2.symm)
        simp [hne, this]
      · simp [ih]

/-- A write-back keeps the canonical form of memory. -/
theorem writeBack_wf (c : Cfg) (m : Memory) (l : CacheLine) (h : Memory.wf m = true) :
    Memory.wf (writeBack c m l) = true := by
  unfold writeBack
  split
  · exact memWriteBytes_wf _ _ _ h
  · exact h

theorem foldl_writeBack_wf (c : Cfg) (ls : List CacheLine) (m : Memory) (h : Memory.wf m = true) :
    Memory.wf (ls.foldl (writeBack c) m) = true := by
  induction ls generalizing m with
  | nil => exact h
  | cons l ls ih => exact ih _ (writeBack_wf c m l h)

/-- A host byte write keeps the canonical form of memory. -/
theorem hostWriteByte_mem_wf (s : State) (a : Nat) (b : Byte) (h : Memory.wf s.mem = true) :
    Memory.wf (hostWriteByte s a b).mem = true := by
  rw [hostWriteByte_mem]
  split
  · exact h
  · exact memSet_wf _ _ _ h

/-- A host element write keeps the canonical form of memory. -/
theorem hostWriteElem_mem_wf (s : State) (a : Nat) (v : BitVec 16) (h : Memory.wf s.mem = true) :
    Memory.wf (hostWriteElem s a v).mem = true :=
  hostWriteByte_mem_wf _ _ _ (hostWriteByte_mem_wf _ _ _ h)

/-- Cleaning keeps the canonical form of memory. -/
theorem clean_mem_wf (s : State) (lo hi : Nat) (h : Memory.wf s.mem = true) :
    Memory.wf (clean s lo hi).mem = true := by
  unfold clean
  split
  · exact foldl_writeBack_wf _ _ _ h
  · exact h

/-- Cleaning and invalidating keeps the canonical form of memory. -/
theorem cleanInvalidate_mem_wf (s : State) (lo hi : Nat) (h : Memory.wf s.mem = true) :
    Memory.wf (cleanInvalidate s lo hi).mem = true := by
  simpa [cleanInvalidate] using clean_mem_wf s lo hi h

/-- An eviction keeps the canonical form of memory. -/
theorem evictLine_mem_wf (s : State) (la : Nat) (h : Memory.wf s.mem = true) :
    Memory.wf (evictLine s la).mem = true := by
  unfold evictLine
  split
  · exact h
  · exact writeBack_wf _ _ _ h

/-- Every frame write keeps the canonical form of memory. -/
theorem writeFrames_mem_wf (xs : List Sample) (s : State) (a : Nat) (h : Memory.wf s.mem = true) :
    Memory.wf (writeFrames s a xs).mem = true := by
  have frame : ∀ (cs : List Nat) (t : State) (b : Nat) (x : Sample), Memory.wf t.mem = true →
      Memory.wf (cs.foldl (fun t c => hostWriteElem t (b + 2 * c) x) t).mem = true := by
    intro cs
    induction cs with
    | nil => intro t b x ht; exact ht
    | cons c cs ih => intro t b x ht; exact ih _ _ _ (hostWriteElem_mem_wf _ _ _ ht)
  induction xs generalizing s a with
  | nil => exact h
  | cons x xs ih => exact ih _ _ (frame _ _ _ _ h)

/-- OUT_PUT_BLOCK's copy keeps the canonical form of memory. -/
theorem putBlock_mem_wf (h : Half) (xs : List Sample) (s : State) (hs : Memory.wf s.mem = true) :
    Memory.wf (putBlock h xs s).mem = true := by
  simpa [putBlock] using cleanInvalidate_mem_wf _ _ _ (writeFrames_mem_wf _ _ _ hs)

end Sys2Proof.Machine
end

