-- ==== Sys2Proof/Laws/HostRun.lean ====
section
/-! SUPPORT. What a step of a host program's run can do (R277). -/

namespace Sys2Proof.Machine

open Sys2Proof

/-- The one inversion of `hostStep`: its machine takes one step from what the host sent. -/
theorem hostStep_next {h h' : HostRun} (hs : hostStep h = .next h') :
    ∃ t, step (hostSend h).machine = .next t ∧ h' = hostAfter (hostSend h) t := by
  unfold hostStep at hs
  split at hs
  · next t ht => exact ⟨t, ht, by simpa using hs.symm⟩
  · cases hs
  · cases hs

/-- Sending changes nothing of the machine but the inbox. -/
theorem hostSend_machine (h : HostRun) :
    ∃ ws, (hostSend h).machine = { h.machine with inbox := ws } := by
  unfold hostSend
  split
  · split
    · unfold sendCycle
      split
      · exact ⟨_, rfl⟩
      · exact ⟨_, rfl⟩
    · unfold sendItem
      split
      · exact ⟨_, rfl⟩
      · exact ⟨_, rfl⟩
  · exact ⟨_, rfl⟩

/-- A dispatch is answered by the cycle program of the chain in force (R274). -/
theorem hostAfter_dispatch {h : HostRun} {t : State} (h0 : h.machine.contActive = false) (h1 : t.contActive = true) :
    (hostAfter h t).cycle = cycleProgram h.effects := by
  unfold hostAfter
  rw [h0, h1]
  rfl

/-- A run that has ended stays where it is, whatever steps are left (R277). -/
theorem hostRun_ended {h : HostRun} (he : runEnded h = true) (n : Nat) : hostRun n h = .next h := by
  cases n with
  | zero => rfl
  | succ n => rw [hostRun, if_pos he]

/-- A run that has not ended takes one step and runs on. -/
theorem hostRun_succ {h : HostRun} (he : runEnded h = false) (n : Nat) :
    hostRun (n + 1) h = hostThen (hostStep h) (hostRun n) := by
  rw [hostRun, if_neg (by rw [he]; exact Bool.false_ne_true)]

end Sys2Proof.Machine
end

