-- ==== Sys2Proof/Laws/Ops.lean ====
section
/-! SUPPORT. What each shared operation and each command can do, said once: the inversion lemmas that proofs
cite instead of unfolding a meaning. -/

namespace Sys2Proof.Machine

open Sys2Proof

/-- `respond` always goes on. -/
theorem respond_next {d : Word} {s t : State} : respond d s = .next t ↔ t = pushResponse ⟨.ok, d⟩ s := by
  simp [respond, eq_comm]

/-- `raise` always goes on. -/
theorem raise_next {e : Status} {d : Word} {s t : State} : raise e d s = .next t ↔ t = raised e d s := by
  simp [raise, eq_comm]

/-- The cells of a block all hold samples exactly when they read as those samples. -/
theorem readCells_ok {cells : List (Option Sample)} {xs : List Sample} :
    readCells cells = .ok xs ↔ cells = xs.map some := by
  induction cells generalizing xs with
  | nil => cases xs <;> simp [readCells]
  | cons c cells ih =>
    cases c with
    | none => cases xs <;> simp [readCells]
    | some x =>
      unfold readCells
      cases h : readCells cells with
      | ok ys =>
        have := ih.1 h
        subst this
        cases xs with
        | nil => simp
        | cons y zs =>
          simp only [Except.ok.injEq, List.cons.injEq, List.map_cons, Option.some.injEq]
          constructor
          · rintro ⟨rfl, rfl⟩; exact ⟨rfl, rfl⟩
          · rintro ⟨rfl, h2⟩
            exact ⟨rfl, List.map_injective_iff.2 (Option.some_injective _) h2⟩
      | error i =>
        simp only [reduceCtorEq, false_iff]
        intro h2
        cases xs with
        | nil => simp at h2
        | cons y zs =>
          simp only [List.map_cons, List.cons.injEq, Option.some.injEq] at h2
          have := ih.2 h2.2
          rw [h] at this
          cases this

/-- An error names the lowest unwritten cell. -/
theorem readCells_error {cells : List (Option Sample)} {i : Nat} :
    readCells cells = .error i ↔ i < cells.length ∧ cells.getD i none = none ∧ ∀ j < i, cells.getD j none ≠ none := by
  induction cells generalizing i with
  | nil => simp [readCells]
  | cons c cells ih =>
    cases c with
    | none =>
      simp only [readCells, Except.error.injEq, List.length_cons]
      constructor
      · rintro rfl; simp
      · rintro ⟨_, _, h⟩
        by_contra hne
        exact h 0 (by omega) (by simp)
    | some x =>
      unfold readCells
      cases h : readCells cells with
      | ok ys =>
        have hc := readCells_ok.1 h
        subst hc
        simp only [reduceCtorEq, false_iff]
        rintro ⟨h1, h2, _⟩
        cases i with
        | zero => simp at h2
        | succ i =>
          simp only [List.length_cons, List.length_map] at h1
          have : i < ys.length := by omega
          simp [this] at h2
      | error k =>
        have hk := ih.1 h
        simp only [Except.error.injEq, List.length_cons]
        constructor
        · rintro rfl
          refine ⟨by omega, by simpa using hk.2.1, ?_⟩
          intro j hj
          cases j with
          | zero => simp
          | succ j => simpa using hk.2.2 j (by omega)
        · rintro ⟨h1, h2, h3⟩
          cases i with
          | zero => simp at h2
          | succ i =>
            have : readCells cells = .error i := ih.2 ⟨by omega, by simpa using h2,
              fun j hj => by simpa using h3 (j + 1) (by omega)⟩
            rw [h] at this
            cases this
            rfl

/-- What a block operand's check can do. -/
theorem withBlock_next {b : Nat} {s t : State} {k : Result} (h : withBlock b s k = .next t) :
    (b < s.cfg.nblk ∧ k = .next t) ∨ (s.cfg.nblk ≤ b ∧ t = raised .eBlkIdx (wordOfNat b) s) := by
  unfold withBlock at h
  split at h
  · exact .inl ⟨‹_›, h⟩
  · exact .inr ⟨by omega, raise_next.1 h⟩

/-- What a sample index's check can do. -/
theorem withIdx_next {i : Nat} {s t : State} {k : Result} (h : withIdx i s k = .next t) :
    (i < s.cfg.n ∧ k = .next t) ∨ (s.cfg.n ≤ i ∧ t = raised .eRange (wordOfNat i) s) := by
  unfold withIdx at h
  split at h
  · exact .inl ⟨‹_›, h⟩
  · exact .inr ⟨by omega, raise_next.1 h⟩

/-- What reading a source buffer can do when the command goes on. -/
theorem withSamples_next {b : Nat} {s t : State} {k : List Sample → Result} (h : withSamples b s k = .next t) :
    ∃ xs, blockCells s b = xs.map some ∧ k xs = .next t := by
  unfold withSamples at h
  split at h
  · next xs hx => exact ⟨xs, readCells_ok.1 hx, h⟩
  · cases h

/-- A source buffer whose cells are all written is read as its samples. -/
theorem withSamples_eq {b : Nat} {s : State} {k : List Sample → Result} {xs : List Sample}
    (h : blockCells s b = xs.map some) : withSamples b s k = k xs := by
  unfold withSamples
  rw [readCells_ok.2 h]

/-- What reading one cell can do when the command goes on. -/
theorem withCell_next {b i : Nat} {s t : State} {k : Sample → Result} (h : withCell b i s k = .next t) :
    ∃ x, blockCell s b i = some x ∧ k x = .next t := by
  unfold withCell at h
  split at h
  · next x hx => exact ⟨x, hx, h⟩
  · cases h

/-- What a CSR operand's check can do. -/
theorem withCsr_next {n : Nat} {s t : State} {k : Csr → Result} (h : withCsr n s k = .next t) :
    (∃ c, csrOfNumber n = some c ∧ k c = .next t)
      ∨ (csrOfNumber n = none ∧ t = raised .eCsr (wordOfNat n) s) := by
  unfold withCsr at h
  split at h
  · next c hc => exact .inl ⟨c, hc, h⟩
  · next hc => exact .inr ⟨hc, raise_next.1 h⟩

/-- What a CSR write can do: clear ERR, set the mode, set a legal cutoff, or raise. -/
theorem csrWrite_next {n : Nat} {v : Word} {s t : State} {c : Csr} (h : csrWrite n v s c = .next t) :
    (c = .err ∧ t = pushResponse ⟨.ok, 0⟩ { s with err := 0x00#8 })
      ∨ (c = .iirCtrl ∧ t = pushResponse ⟨.ok, 0⟩ { s with iir := { s.iir with mode := modeOfBit (v.getLsbD 0) } })
      ∨ (c = .iirCutoff ∧ cutoffLegal s.cfg v = true
          ∧ t = pushResponse ⟨.ok, 0⟩ { s with iir := { s.iir with cutoff := v } })
      ∨ (c = .iirCutoff ∧ cutoffLegal s.cfg v = false ∧ t = raised .eRange v s)
      ∨ t = raised .eRo (wordOfNat n) s := by
  cases c <;> simp only [csrWrite] at h
  case err => exact .inl ⟨rfl, respond_next.1 h⟩
  case iirCtrl => exact .inr (.inl ⟨rfl, respond_next.1 h⟩)
  case iirCutoff =>
    split at h
    · exact .inr (.inr (.inl ⟨rfl, ‹_›, respond_next.1 h⟩))
    · next hc => exact .inr (.inr (.inr (.inl ⟨rfl, by simpa using hc, raise_next.1 h⟩)))
  all_goals exact .inr (.inr (.inr (.inr (raise_next.1 h))))

/-- What a command that goes on has done: a list of the effects, one line per effect. -/
inductive Effected (i : Instr) (s t : State) : Prop where
  | failed (e : Status) (d : Word) (he : e ≠ .ok) (hi : e ≠ .eInit) (h : t = raised e d s)
  | initFailed (hi : i = .inInit ∨ i = .outInit) (h : t = raised .eInit 0 (takeInitDraw s))
  | inInit (hi : i = .inInit) (hs : s.inState = .uninit) (h : t = pushResponse ⟨.ok, 0⟩ (inInitDone (takeInitDraw s)))
  | outInit (hi : i = .outInit) (hs : s.outState = .uninit)
      (h : t = pushResponse ⟨.ok, 0⟩ (outInitDone (takeInitDraw s)))
  | inStart (hi : i = .inStart) (hs : s.inState = .init)
      (h : t = pushResponse ⟨.ok, 0⟩ { s with inPos := 0, inState := .running })
  | outStart (hi : i = .outStart) (hs : s.outState = .init)
      (h : t = pushResponse ⟨.ok, 0⟩ { s with outPos := 0, outState := .running })
  | inGetBlock (dst : Nat) (hi : i = .inGetBlock dst) (hd : dst < s.cfg.nblk) (hs : s.inState = .running)
      (h : t = pushResponse ⟨.ok, wordOfNat (halfNumber (inHalf s))⟩ (getBlock dst s))
  | outPutBlock (src : Nat) (xs : List Sample) (hi : i = .outPutBlock src) (hd : src < s.cfg.nblk)
      (hs : s.outState ≠ .uninit) (hx : blockCells s src = xs.map some)
      (h : t = pushResponse ⟨.ok, wordOfNat (halfNumber s.outTarget)⟩ (putBlock s.outTarget xs s))
  | iirRested (h : t = pushResponse ⟨.ok, 0⟩ { s with iir := iirRest s.iir })
  | cicRested (h : t = pushResponse ⟨.ok, 0⟩ { s with cic := cicRest s.cfg })
  | firRested (h : t = pushResponse ⟨.ok, 0⟩ { s with fir := firRest s.cfg })
  | iirProcessed (src dst : Nat) (xs : List Sample) (hi : i = .iirProcess src dst) (hs : src < s.cfg.nblk)
      (hd : dst < s.cfg.nblk) (hx : blockCells s src = xs.map some)
      (h : t = pushResponse ⟨.ok, 0⟩ (iirProcess dst xs s))
  | cicProcessed (src dst : Nat) (xs : List Sample) (hi : i = .cicProcess src dst) (hs : src < s.cfg.nblk)
      (hd : dst < s.cfg.nblk) (hx : blockCells s src = xs.map some)
      (h : t = pushResponse ⟨.ok, 0⟩ (cicProcess dst xs s))
  | firProcessed (src dst : Nat) (xs : List Sample) (hi : i = .firProcess src dst) (hs : src < s.cfg.nblk)
      (hd : dst < s.cfg.nblk) (hx : blockCells s src = xs.map some)
      (h : t = pushResponse ⟨.ok, 0⟩ (firProcess dst xs s))
  | answered (d : Word) (h : t = pushResponse ⟨.ok, d⟩ s)
  | errCleared (n : Nat) (v : Word) (hi : i = .csrWrite n v) (hn : csrOfNumber n = some .err)
      (h : t = pushResponse ⟨.ok, 0⟩ { s with err := 0x00#8 })
  | modeSet (m : IirMode) (h : t = pushResponse ⟨.ok, 0⟩ { s with iir := { s.iir with mode := m } })
  | cutoffSet (v : Word) (hv : cutoffLegal s.cfg v = true)
      (h : t = pushResponse ⟨.ok, 0⟩ { s with iir := { s.iir with cutoff := v } })
  | cellWritten (b j : Nat) (x : Sample) (hb : b < s.cfg.nblk) (hj : j < s.cfg.n)
      (h : t = pushResponse ⟨.ok, 0⟩ (writeCell s b j x))
  | maskSet (m : Bool) (h : t = pushResponse ⟨.ok, 0⟩ { s with contMasked := m })
  | cycleEnded (hi : i = .contDone) (hs : s.contActive = true) (h : t = pushResponse ⟨.ok, 0⟩ (endCycle s))

/-- The one inversion of `exec`: a command that goes on has one of the listed effects. -/
theorem exec_next {i : Instr} {s t : State} (h : exec i s = .next t) : Effected i s t := by
  cases i with
  | inInit =>
    simp only [exec, execInInit] at h
    split at h
    · split at h
      · exact .inInit rfl ‹_› (respond_next.1 h)
      · exact .initFailed (.inl rfl) (raise_next.1 h)
    · exact .failed _ _ (by decide) (by decide) (raise_next.1 h)
  | inStart =>
    simp only [exec, execInStart] at h
    split at h
    · exact .inStart rfl ‹_› (respond_next.1 h)
    · exact .failed _ _ (by decide) (by decide) (raise_next.1 h)
  | inGetBlock dst =>
    simp only [exec, execInGetBlock] at h
    obtain ⟨hd, h⟩ | ⟨_, h⟩ := withBlock_next h
    · split at h
      · exact .inGetBlock dst rfl hd ‹_› (respond_next.1 h)
      · exact .failed _ _ (by decide) (by decide) (raise_next.1 h)
    · exact .failed _ _ (by decide) (by decide) h
  | outInit =>
    simp only [exec, execOutInit] at h
    split at h
    · split at h
      · exact .outInit rfl ‹_› (respond_next.1 h)
      · exact .initFailed (.inr rfl) (raise_next.1 h)
    · exact .failed _ _ (by decide) (by decide) (raise_next.1 h)
  | outStart =>
    simp only [exec, execOutStart] at h
    split at h
    · exact .outStart rfl ‹_› (respond_next.1 h)
    · exact .failed _ _ (by decide) (by decide) (raise_next.1 h)
  | outPutBlock src =>
    simp only [exec, execOutPutBlock] at h
    obtain ⟨hd, h⟩ | ⟨_, h⟩ := withBlock_next h
    · split at h
      · exact .failed _ _ (by decide) (by decide) (raise_next.1 h)
      · obtain ⟨xs, hx, h⟩ := withSamples_next h
        exact .outPutBlock src xs rfl hd ‹_› hx (respond_next.1 h)
    · exact .failed _ _ (by decide) (by decide) h
  | iirConnect => exact .iirRested (respond_next.1 h)
  | iirDisconnect => exact .iirRested (respond_next.1 h)
  | cicConnect => exact .cicRested (respond_next.1 h)
  | cicDisconnect => exact .cicRested (respond_next.1 h)
  | firConnect => exact .firRested (respond_next.1 h)
  | firDisconnect => exact .firRested (respond_next.1 h)
  | iirProcess src dst =>
    simp only [exec, execIirProcess] at h
    obtain ⟨hs, h⟩ | ⟨_, h⟩ := withBlock_next h
    · obtain ⟨hd, h⟩ | ⟨_, h⟩ := withBlock_next h
      · obtain ⟨xs, hx, h⟩ := withSamples_next h
        exact .iirProcessed src dst xs rfl hs hd hx (respond_next.1 h)
      · exact .failed _ _ (by decide) (by decide) h
    · exact .failed _ _ (by decide) (by decide) h
  | cicProcess src dst =>
    simp only [exec, execCicProcess] at h
    obtain ⟨hs, h⟩ | ⟨_, h⟩ := withBlock_next h
    · obtain ⟨hd, h⟩ | ⟨_, h⟩ := withBlock_next h
      · obtain ⟨xs, hx, h⟩ := withSamples_next h
        exact .cicProcessed src dst xs rfl hs hd hx (respond_next.1 h)
      · exact .failed _ _ (by decide) (by decide) h
    · exact .failed _ _ (by decide) (by decide) h
  | firProcess src dst =>
    simp only [exec, execFirProcess] at h
    obtain ⟨hs, h⟩ | ⟨_, h⟩ := withBlock_next h
    · obtain ⟨hd, h⟩ | ⟨_, h⟩ := withBlock_next h
      · obtain ⟨xs, hx, h⟩ := withSamples_next h
        exact .firProcessed src dst xs rfl hs hd hx (respond_next.1 h)
      · exact .failed _ _ (by decide) (by decide) h
    · exact .failed _ _ (by decide) (by decide) h
  | csrRead n =>
    simp only [exec, execCsrRead] at h
    obtain ⟨c, _, h⟩ | ⟨_, h⟩ := withCsr_next h
    · exact .answered _ (respond_next.1 h)
    · exact .failed _ _ (by decide) (by decide) h
  | csrWrite n v =>
    simp only [exec, execCsrWrite] at h
    obtain ⟨c, hc, h⟩ | ⟨_, h⟩ := withCsr_next h
    · obtain ⟨rfl, ht⟩ | ⟨rfl, ht⟩ | ⟨rfl, hv, ht⟩ | ⟨rfl, _, ht⟩ | ht := csrWrite_next h
      · exact .errCleared n v rfl hc ht
      · exact .modeSet _ ht
      · exact .cutoffSet v hv ht
      · exact .failed _ _ (by decide) (by decide) ht
      · exact .failed _ _ (by decide) (by decide) ht
    · exact .failed _ _ (by decide) (by decide) h
  | contMask => exact .maskSet _ (respond_next.1 h)
  | contUnmask => exact .maskSet _ (respond_next.1 h)
  | contDone =>
    simp only [exec, execContDone] at h
    split at h
    · exact .cycleEnded rfl ‹_› (respond_next.1 h)
    · exact .failed _ _ (by decide) (by decide) (raise_next.1 h)
  | blkRead b j =>
    simp only [exec, execBlkRead] at h
    obtain ⟨_, h⟩ | ⟨_, h⟩ := withBlock_next h
    · obtain ⟨_, h⟩ | ⟨_, h⟩ := withIdx_next h
      · obtain ⟨x, _, h⟩ := withCell_next h
        exact .answered _ (respond_next.1 h)
      · exact .failed _ _ (by decide) (by decide) h
    · exact .failed _ _ (by decide) (by decide) h
  | blkWrite b j d =>
    simp only [exec, execBlkWrite] at h
    obtain ⟨hb, h⟩ | ⟨_, h⟩ := withBlock_next h
    · obtain ⟨hj, h⟩ | ⟨_, h⟩ := withIdx_next h
      · exact .cellWritten b j _ hb hj (respond_next.1 h)
      · exact .failed _ _ (by decide) (by decide) h
    · exact .failed _ _ (by decide) (by decide) h

end Sys2Proof.Machine
end

