-- ==== Sys2Proof/Laws/PerInstr.lean ====
section
/-! SUPPORT. Statements about every command as syntax, one lemma per constructor. -/

/-- R94: a command is two words exactly when its first word's OPC is 0x41 or 0x46, and one word otherwise. -/
def Sys2Proof.Laws.EncodedLength.Statement (i : Sys2Proof.Instr) : Prop :=
  ∃ w rest, Sys2Proof.encode i = w :: rest ∧ rest.length = if Sys2Proof.twoWords w then 1 else 0

namespace Sys2Proof.Laws.EncodedLength

open Sys2Proof

/-- OPC of an assembled first word. -/
theorem opcField_firstWord (op : Opcode) (hi lo : BitVec 4) (imm : BitVec 16) :
    opcField (firstWord op hi lo imm) = opcodeByte op := by
  apply BitVec.eq_of_toNat_eq
  have h1 := hi.isLt
  have h2 := lo.isLt
  have h3 := imm.isLt
  have h4 := (opcodeByte op).isLt
  simp only [opcField, firstWord, BitVec.extractLsb'_toNat, BitVec.toNat_append, Nat.shiftRight_eq_div_pow]
  rw [← Nat.shiftLeft_add_eq_or_of_lt h1, ← Nat.shiftLeft_add_eq_or_of_lt h2, ← Nat.shiftLeft_add_eq_or_of_lt h3]
  simp only [Nat.shiftLeft_eq]
  omega

/-- The length of a command whose first word is assembled from an opcode. -/
theorem twoWords_firstWord (op : Opcode) (hi lo : BitVec 4) (imm : BitVec 16) :
    twoWords (firstWord op hi lo imm) = decide (op = .csrWrite ∨ op = .blkWrite) := by
  unfold twoWords
  rw [opcField_firstWord]
  cases op <;> decide

theorem inInit : Statement .inInit := ⟨_, _, rfl, by rw [twoWords_firstWord]; rfl⟩
theorem inStart : Statement .inStart := ⟨_, _, rfl, by rw [twoWords_firstWord]; rfl⟩
theorem inGetBlock (dst : Nat) : Statement (.inGetBlock dst) := ⟨_, _, rfl, by rw [twoWords_firstWord]; rfl⟩
theorem outInit : Statement .outInit := ⟨_, _, rfl, by rw [twoWords_firstWord]; rfl⟩
theorem outStart : Statement .outStart := ⟨_, _, rfl, by rw [twoWords_firstWord]; rfl⟩
theorem outPutBlock (src : Nat) : Statement (.outPutBlock src) := ⟨_, _, rfl, by rw [twoWords_firstWord]; rfl⟩
theorem iirConnect : Statement .iirConnect := ⟨_, _, rfl, by rw [twoWords_firstWord]; rfl⟩
theorem iirDisconnect : Statement .iirDisconnect := ⟨_, _, rfl, by rw [twoWords_firstWord]; rfl⟩
theorem iirProcess (src dst : Nat) : Statement (.iirProcess src dst) := ⟨_, _, rfl, by rw [twoWords_firstWord]; rfl⟩
theorem cicConnect : Statement .cicConnect := ⟨_, _, rfl, by rw [twoWords_firstWord]; rfl⟩
theorem cicDisconnect : Statement .cicDisconnect := ⟨_, _, rfl, by rw [twoWords_firstWord]; rfl⟩
theorem cicProcess (src dst : Nat) : Statement (.cicProcess src dst) := ⟨_, _, rfl, by rw [twoWords_firstWord]; rfl⟩
theorem firConnect : Statement .firConnect := ⟨_, _, rfl, by rw [twoWords_firstWord]; rfl⟩
theorem firDisconnect : Statement .firDisconnect := ⟨_, _, rfl, by rw [twoWords_firstWord]; rfl⟩
theorem firProcess (src dst : Nat) : Statement (.firProcess src dst) := ⟨_, _, rfl, by rw [twoWords_firstWord]; rfl⟩
theorem csrRead (csr : Nat) : Statement (.csrRead csr) := ⟨_, _, rfl, by rw [twoWords_firstWord]; rfl⟩
theorem csrWrite (csr : Nat) (data : Word) : Statement (.csrWrite csr data) :=
  ⟨_, _, rfl, by rw [twoWords_firstWord]; rfl⟩
theorem contMask : Statement .contMask := ⟨_, _, rfl, by rw [twoWords_firstWord]; rfl⟩
theorem contUnmask : Statement .contUnmask := ⟨_, _, rfl, by rw [twoWords_firstWord]; rfl⟩
theorem contDone : Statement .contDone := ⟨_, _, rfl, by rw [twoWords_firstWord]; rfl⟩
theorem blkRead (blk idx : Nat) : Statement (.blkRead blk idx) := ⟨_, _, rfl, by rw [twoWords_firstWord]; rfl⟩
theorem blkWrite (blk idx : Nat) (data : Word) : Statement (.blkWrite blk idx data) :=
  ⟨_, _, rfl, by rw [twoWords_firstWord]; rfl⟩

end Sys2Proof.Laws.EncodedLength
end

