-- ==== Sys2Proof/Laws/Step.lean ====
section
/-! SUPPORT. What one step can do, said once. -/

namespace Sys2Proof.Machine

open Sys2Proof

/-- A step that goes on was taken under an admitted configuration. -/
theorem step_admits {s t : State} (h : step s = .next t) : admits s.cfg = true := by
  unfold step at h
  split at h
  · assumption
  · cases h

/-- What the host's turn can do. -/
theorem hostTurn_cases (s : State) (rest : List Move) :
    (dispatchEnabled s = true ∧ hostTurn s rest = .moved (dispatch s))
      ∨ (dispatchEnabled s = false ∧
        ((∃ i ws, decode s.inbox = .command i ws ∧ hostTurn s rest = .command i { s with inbox := ws, moves := rest })
          ∨ (∃ why w ws, decode s.inbox = .illegal why w ws
              ∧ hostTurn s rest = .moved (rejectWord w { s with inbox := ws, moves := rest }))
          ∨ (decode s.inbox = .incomplete ∧ hostTurn s rest = .moved { s with moves := rest }))) := by
  unfold hostTurn
  split
  · next h => exact .inl ⟨h, rfl⟩
  · next h =>
    refine .inr ⟨by simpa using h, ?_⟩
    cases hd : decode s.inbox with
    | command i ws => exact .inl ⟨i, ws, rfl, rfl⟩
    | illegal why w ws => exact .inr (.inl ⟨why, w, ws, rfl, rfl⟩)
    | incomplete => exact .inr (.inr ⟨rfl, rfl⟩)

/-- What an agent's move can do. -/
theorem agentStep_cases (m : Move) (s : State) :
    agentStep m s = s
      ∨ (∃ raw, m = .inputEngine raw ∧ s.inState = .running ∧ agentStep m s = inputStep raw s)
      ∨ (m = .outputEngine ∧ s.outState = .running ∧ agentStep m s = outputStep s)
      ∨ (m = .dispatch ∧ dispatchEnabled s = true ∧ agentStep m s = dispatch s)
      ∨ (∃ la, m = .evict la ∧ agentStep m s = evictLine s la) := by
  cases m with
  | host => exact .inl rfl
  | inputEngine raw =>
    simp only [agentStep]
    split
    · exact .inr (.inl ⟨raw, rfl, ‹_›, rfl⟩)
    · exact .inl rfl
  | outputEngine =>
    simp only [agentStep]
    split
    · exact .inr (.inr (.inl ⟨trivial, ‹_›, rfl⟩))
    · exact .inl rfl
  | dispatch =>
    simp only [agentStep]
    split
    · exact .inr (.inr (.inr (.inl ⟨trivial, ‹_›, rfl⟩)))
    · exact .inl rfl
  | evict la => exact .inr (.inr (.inr (.inr ⟨la, rfl, rfl⟩)))

/-- The three ways the output-engine step can go. -/
theorem outputStep_cases (s : State) :
    (s.outPos + 1 = s.cfg.n ∧ outputStep s = event .half0 { emitFrame s with outPos := s.cfg.n })
      ∨ (s.outPos + 1 ≠ s.cfg.n ∧ s.outPos + 1 = 2 * s.cfg.n
          ∧ outputStep s = event .half1 { emitFrame s with outPos := 0 })
      ∨ (s.outPos + 1 ≠ s.cfg.n ∧ s.outPos + 1 ≠ 2 * s.cfg.n
          ∧ outputStep s = { emitFrame s with outPos := s.outPos + 1 }) := by
  unfold outputStep
  split
  · exact .inl ⟨‹_›, rfl⟩
  · split
    · exact .inr (.inl ⟨‹_›, ‹_›, rfl⟩)
    · exact .inr (.inr ⟨‹_›, ‹_›, rfl⟩)

/-- What a step that goes on has done; `u` is the state the agent's step started in. -/
inductive Stepped (s t : State) : Prop where
  | idle (ms : List Move) (h : t = { s with moves := ms })
  | command (i : Instr) (ws : List Word) (ms : List Move) (he : dispatchEnabled s = false)
      (hd : decode s.inbox = .command i ws) (h : Effected i { s with inbox := ws, moves := ms } t)
  | rejected (w : Word) (ws : List Word) (ms : List Move) (h : t = rejectWord w { s with inbox := ws, moves := ms })
  | dispatched (ms : List Move) (he : dispatchEnabled s = true) (h : t = dispatch { s with moves := ms })
  | input (raw : BitVec 16) (ms : List Move) (hs : s.inState = .running)
      (h : t = inputStep raw { s with moves := ms })
  | output (ms : List Move) (hm : s.moves = .outputEngine :: ms) (hs : s.outState = .running)
      (h : t = outputStep { s with moves := ms })
  | evicted (la : Nat) (ms : List Move) (h : t = evictLine { s with moves := ms } la)

theorem hostTurn_step {s t : State} {ms : List Move}
    (h : (match hostTurn s ms with
      | .moved u => Host.Outcome.next u
      | .command i u => exec i u) = .next t) : Stepped s t := by
  obtain ⟨he, hh⟩ | ⟨he, ⟨i, ws, hd, hh⟩ | ⟨why, w, ws, hd, hh⟩ | ⟨hd, hh⟩⟩ := hostTurn_cases s ms
  · rw [hh] at h
    simp only [Host.Outcome.next.injEq] at h
    exact .dispatched s.moves he h.symm
  · rw [hh] at h
    exact .command i ws ms he hd (exec_next h)
  · rw [hh] at h
    simp only [Host.Outcome.next.injEq] at h
    exact .rejected w ws ms h.symm
  · rw [hh] at h
    simp only [Host.Outcome.next.injEq] at h
    exact .idle ms h.symm

/-- An agent's move, as a step. -/
theorem agentStep_step {s : State} {m : Move} {ms : List Move} (hm : s.moves = m :: ms) :
    Stepped s (agentStep m { s with moves := ms }) := by
  obtain h | ⟨raw, _, hs, h⟩ | ⟨rfl, hs, h⟩ | ⟨_, he, h⟩ | ⟨la, _, h⟩ := agentStep_cases m { s with moves := ms }
  · exact .idle ms h
  · exact .input raw ms hs h
  · exact .output ms hm hs h
  · exact .dispatched ms he h
  · exact .evicted la ms h

/-- The one inversion of `step`: a step that goes on is one of the agents' steps. -/
theorem step_next {s t : State} (h : step s = .next t) : Stepped s t := by
  unfold step at h
  rw [if_pos (step_admits h)] at h
  unfold turn at h
  match hm : s.moves with
  | [] => rw [hm] at h; exact hostTurn_step h
  | .host :: ms => rw [hm] at h; exact hostTurn_step h
  | .inputEngine raw :: ms => rw [hm] at h; cases h; exact agentStep_step hm
  | .outputEngine :: ms => rw [hm] at h; cases h; exact agentStep_step hm
  | .dispatch :: ms => rw [hm] at h; cases h; exact agentStep_step hm
  | .evict la :: ms => rw [hm] at h; cases h; exact agentStep_step hm

end Sys2Proof.Machine
end

