-- ==== Sys2Proof/Laws/Units.lean ====
section
/-! SUPPORT. Small laws of the width functions and the effect units: lengths, empty and one-sample runs. -/

namespace Sys2Proof.Machine

open Sys2Proof

/-- A value in the 32-bit range is stored exactly. -/
theorem word32_toInt {v : Int} (h1 : -2147483648 ≤ v) (h2 : v ≤ 2147483647) : (word32 v).toInt = v := by
  unfold word32
  rw [BitVec.toInt_ofInt, Int.bmod_def]
  norm_num
  omega

/-- A value in the Sample range is stored exactly. -/
theorem sample16_toInt {v : Int} (h1 : -32768 ≤ v) (h2 : v ≤ 32767) : (sample16 v).toInt = v := by
  unfold sample16
  rw [BitVec.toInt_ofInt, Int.bmod_def]
  norm_num
  omega

/-- A saturated value is in the Sample range. -/
theorem sat16_range (v : Int) : -32768 ≤ sat16 v ∧ sat16 v ≤ 32767 := by
  unfold sat16
  omega

/-- A value in the Sample range does not saturate. -/
theorem sat16_eq {v : Int} (h1 : -32768 ≤ v) (h2 : v ≤ 32767) : sat16 v = v := by
  unfold sat16
  omega

@[simp] theorem iirRun_length (c : Cfg) (u : Iir) (sat : Word) (xs : List Sample) :
    (iirRun c u sat xs).1.length = xs.length := by
  induction xs generalizing u sat with
  | nil => rfl
  | cons x xs ih => simp [iirRun, ih]

@[simp] theorem cicRun_length (c : Cfg) (q : Cic) (xs : List Sample) : (cicRun c q xs).1.length = xs.length := by
  induction xs generalizing q with
  | nil => rfl
  | cons x xs ih => simp [cicRun, ih]

@[simp] theorem firRun_length (c : Cfg) (f : Fir) (sat : Word) (xs : List Sample) :
    (firRun c f sat xs).1.length = xs.length := by
  induction xs generalizing f sat with
  | nil => rfl
  | cons x xs ih => simp [firRun, ih]

@[simp] theorem combs_length (ds : List Word) (v : Word) : (combs ds v).1.length = ds.length := by
  induction ds generalizing v with
  | nil => rfl
  | cons d ds ih => simp [combs, ih]

@[simp] theorem integrators_length (as : List Word) (u : Word) : (integrators as u).1.length = as.length := by
  induction as generalizing u with
  | nil => rfl
  | cons a as ih => simp [integrators, ih]

/-- A counter after counting: one more, saturating at `2^32 - 1`. -/
theorem countUp_toNat (c : Word) : (countUp c).toNat = min (2 ^ 32 - 1) (c.toNat + 1) := by
  have := c.isLt
  simp only [countUp, wordOfNat, satU32, BitVec.toNat_ofNat]
  omega

/-- Counting never lowers a counter. -/
theorem le_countIf (b : Bool) (c : Word) : c.toNat ≤ (countIf b c).toNat := by
  have := c.isLt
  unfold countIf
  split
  · rw [countUp_toNat]; omega
  · exact Nat.le_refl _

/-- The slots after the first see zeros: slot `p + 1` from a unit is slot `p` of silence from the unit after slot 0. -/
theorem cicBeforeSlot_succ (c : Cfg) (q : Cic) (v : Word) (p : Nat) :
    cicBeforeSlot c q v (p + 1) = cicBeforeSlot c (cicSlot c q v).1 0#32 p := by
  induction p with
  | zero => rfl
  | succ p ih =>
    rw [cicBeforeSlot, ih]
    simp [cicBeforeSlot]

/-- `m + 1` slots are the slot before which `m` have gone, with the comb output in slot 0 only (R174). -/
theorem cicSlots_eq (c : Cfg) (q : Cic) (v : Word) (m : Nat) :
    cicSlots c q v m = cicSlot c (cicBeforeSlot c q v m) (if m = 0 then v else 0#32) := by
  induction m generalizing q v with
  | zero => rfl
  | succ m ih =>
    rw [cicSlots, ih, cicBeforeSlot_succ]
    simp

end Sys2Proof.Machine
end

