-- ==== Sys2Proof/Machine/Assembler.lean ====
section
/-! DEFINITION. The assembler syntax and the pseudo-commands (R102, R103, 30_encoding.md). -/

namespace Sys2Proof.Machine

open Sys2Proof

/-- The pseudo-commands and their expansions (R103). -/
inductive Pseudo where
  | clearErr
  | iirSetCutoff (f : Word)
  | iirSetMode (m : Word)
  | suspend
  | resume
  deriving DecidableEq, Repr

/-- The command a pseudo-command stands for (R103). -/
def expandPseudo : Pseudo → Instr
  | .clearErr => .csrWrite 0x02 0#32
  | .iirSetCutoff f => .csrWrite 0x11 f
  | .iirSetMode m => .csrWrite 0x10 m
  | .suspend => .contMask
  | .resume => .contUnmask

/-- A CSR's number (R40). -/
def csrNumber : Csr → Nat
  | .status => 0x01
  | .err => 0x02
  | .underrunCnt => 0x03
  | .overrunCnt => 0x04
  | .satCnt => 0x05
  | .inPos => 0x06
  | .outPos => 0x07
  | .iirCtrl => 0x10
  | .iirCutoff => 0x11
  | .iirCutoffCached => 0x12
  | .iirFb => 0x13
  | .iirFf => 0x14
  | .iirY => 0x15
  | .iirXprev => 0x16
  | .cicCfg => 0x20
  | .firHead => 0x30
  | .firLen => 0x31
  | .firGain => 0x32

/-- The CSR of a name of R40. -/
def csrOfName (name : String) : Option Csr :=
  match name with
  | "STATUS" => some .status
  | "ERR" => some .err
  | "UNDERRUN_CNT" => some .underrunCnt
  | "OVERRUN_CNT" => some .overrunCnt
  | "SAT_CNT" => some .satCnt
  | "IN_POS" => some .inPos
  | "OUT_POS" => some .outPos
  | "IIR_CTRL" => some .iirCtrl
  | "IIR_CUTOFF" => some .iirCutoff
  | "IIR_CUTOFF_CACHED" => some .iirCutoffCached
  | "IIR_FB" => some .iirFb
  | "IIR_FF" => some .iirFf
  | "IIR_Y" => some .iirY
  | "IIR_XPREV" => some .iirXprev
  | "CIC_CFG" => some .cicCfg
  | "FIR_HEAD" => some .firHead
  | "FIR_LEN" => some .firLen
  | "FIR_GAIN" => some .firGain
  | _ => none

/-- The value of a digit in a base up to 16. -/
def digitValue (base : Nat) (c : Char) : Option Nat :=
  let v :=
    if '0' ≤ c ∧ c ≤ '9' then c.toNat - '0'.toNat
    else if 'a' ≤ c ∧ c ≤ 'f' then c.toNat - 'a'.toNat + 10
    else if 'A' ≤ c ∧ c ≤ 'F' then c.toNat - 'A'.toNat + 10
    else base
  if v < base then some v else none

/-- The value of a run of digits, `acc` the value of those before it. -/
def digitsValue (base acc : Nat) : List Char → Option Nat
  | [] => some acc
  | c :: rest => (digitValue base c).bind (fun v => digitsValue base (acc * base + v) rest)

/-- A number: decimal, or hexadecimal with `0x` (R102). DESIGN CHOICE (log 20), safe: capital and small
hexadecimal digits are read alike. -/
def asmNumber (text : List Char) : Option Nat :=
  match text with
  | [] => none
  | '0' :: 'x' :: [] => none
  | '0' :: 'x' :: rest => digitsValue 16 0 rest
  | _ :: _ => digitsValue 10 0 text

/-- A 32-bit number (R102). -/
def asmWord (text : List Char) : Option Word :=
  (asmNumber text).bind (fun v => if v < 2 ^ 32 then some (BitVec.ofNat 32 v) else none)

/-- A sample: a signed decimal in `[-32768, 32767]` or a 16-bit hexadecimal pattern, as the DATA word that
holds it (R102, R104). -/
def asmSample (text : List Char) : Option Word :=
  match text with
  | '-' :: rest =>
    if rest = [] then none
    else (digitsValue 10 0 rest).bind
      (fun v => if v ≤ 32768 then some ((BitVec.ofInt 16 (-(v : Int))).setWidth 32) else none)
  | '0' :: 'x' :: _ => (asmNumber text).bind (fun v => if v < 65536 then some (BitVec.ofNat 32 v) else none)
  | _ => (asmNumber text).bind (fun v => if v ≤ 32767 then some (BitVec.ofNat 32 v) else none)

/-- A block buffer `b0` to `b15` (R102). -/
def asmBlock (text : List Char) : Option Nat :=
  match text with
  | [] => none
  | 'b' :: [] => none
  | 'b' :: rest => (digitsValue 10 0 rest).bind (fun v => if v < 16 then some v else none)
  | _ :: _ => none

/-- A CSR: a name of R40 or a number (R102). -/
def asmCsr (text : List Char) : Option Nat :=
  match csrOfName (String.ofList text) with
  | some c => some (csrNumber c)
  | none => (asmNumber text).bind (fun v => if v < 256 then some v else none)

/-- A sample index. -/
def asmIdx (text : List Char) : Option Nat :=
  (asmNumber text).bind (fun v => if v < 65536 then some v else none)

/-- A filter mode: LP, HP or a number (R103). -/
def asmMode (text : List Char) : Option Word :=
  if text = ['L', 'P'] then some 0#32 else if text = ['H', 'P'] then some 1#32 else asmWord text

/-- The command of a mnemonic (R97, R103) and its operands (R102). -/
def asmCommand (mnemonic : String) (ops : List (List Char)) : Option Instr :=
  match mnemonic, ops with
  | "IN_INIT", [] => some .inInit
  | "IN_START", [] => some .inStart
  | "IN_GET_BLOCK", [d] => (asmBlock d).map .inGetBlock
  | "OUT_INIT", [] => some .outInit
  | "OUT_START", [] => some .outStart
  | "OUT_PUT_BLOCK", [b] => (asmBlock b).map .outPutBlock
  | "IIR_CONNECT", [] => some .iirConnect
  | "IIR_DISCONNECT", [] => some .iirDisconnect
  | "IIR_PROCESS", [b, d] => (asmBlock b).bind (fun x => (asmBlock d).map (Instr.iirProcess x))
  | "CIC_CONNECT", [] => some .cicConnect
  | "CIC_DISCONNECT", [] => some .cicDisconnect
  | "CIC_PROCESS", [b, d] => (asmBlock b).bind (fun x => (asmBlock d).map (Instr.cicProcess x))
  | "FIR_CONNECT", [] => some .firConnect
  | "FIR_DISCONNECT", [] => some .firDisconnect
  | "FIR_PROCESS", [b, d] => (asmBlock b).bind (fun x => (asmBlock d).map (Instr.firProcess x))
  | "CSR_READ", [c] => (asmCsr c).map .csrRead
  | "CSR_WRITE", [c, v] => (asmCsr c).bind (fun n => (asmWord v).map (Instr.csrWrite n))
  | "CONT_MASK", [] => some .contMask
  | "CONT_UNMASK", [] => some .contUnmask
  | "CONT_DONE", [] => some .contDone
  | "BLK_READ", [b, i] => (asmBlock b).bind (fun x => (asmIdx i).map (Instr.blkRead x))
  | "BLK_WRITE", [b, i, v] =>
    (asmBlock b).bind (fun x => (asmIdx i).bind (fun j => (asmSample v).map (Instr.blkWrite x j)))
  | "CLEAR_ERR", [] => some (expandPseudo .clearErr)
  | "IIR_SET_CUTOFF", [f] => (asmWord f).map (fun v => expandPseudo (.iirSetCutoff v))
  | "IIR_SET_MODE", [m] => (asmMode m).map (fun v => expandPseudo (.iirSetMode v))
  | "SUSPEND", [] => some (expandPseudo .suspend)
  | "RESUME", [] => some (expandPseudo .resume)
  | _, _ => none

/-- White space in a line. -/
def asmSpace (c : Char) : Bool := c == ' ' || c == '\t'

/-- The text before a comment (R102). -/
def dropComment : List Char → List Char
  | [] => []
  | c :: rest => if c = ';' then [] else c :: dropComment rest

/-- A text without the white space around it. -/
def trimSpace (text : List Char) : List Char :=
  ((text.dropWhile asmSpace).reverse.dropWhile asmSpace).reverse

/-- The pieces of a text between commas; no piece of an empty text. -/
def splitCommas (text : List Char) : List (List Char) :=
  if text = [] then [] else (text.splitOnP (· == ',')).map trimSpace

/-- What a line of a program holds (R102). -/
inductive AsmLine where
  | blank
  | command (i : Instr)
  | error
  deriving DecidableEq, Repr

/-- Assemble one line: a mnemonic, white space, operands between commas, and a comment (R102). -/
def assembleLine (line : String) : AsmLine :=
  let text := trimSpace (dropComment line.toList)
  if text = [] then .blank
  else
    match asmCommand (String.ofList (text.takeWhile (fun c => !asmSpace c)))
        (splitCommas (trimSpace (text.dropWhile (fun c => !asmSpace c)))) with
    | some i => .command i
    | none => .error

end Sys2Proof.Machine
end

