-- ==== Sys2Proof/Tests/Slice0.lean ====
section
/-! SUPPORT. Tests: the well-formedness smoke tests, words written out from 30_encoding.md, vectors of
95_test_vectors.md, and for each obligation with hypotheses a witness that meets them. -/

namespace Sys2Proof.Tests

open Sys2Proof Sys2Proof.Machine

/-! ### Helpers -/

/-- A field of the next state, if there is one. -/
def look {α : Type} (f : State → α) : Result → Option α
  | .next t => some (f t)
  | .fault _ => none
  | .refused _ => none

/-- The last response of the next state. -/
def answer (r : Result) : Option (Status × Word) :=
  (look (fun t => t.responses.getLast?) r).join.map (fun a => (a.status, a.data))

/-- The fault, if the outcome is one. -/
def faultOf : Result → Option Fault
  | .next _ => none
  | .fault f => some f
  | .refused _ => none

theorem next_of_look {r : Result} (h : (look (fun _ => ()) r).isSome = true) : ∃ t, r = .next t := by
  cases r with
  | next t => exact ⟨t, rfl⟩
  | fault f => simp [look] at h
  | refused r => simp [look] at h

/-- Block cells holding the listed samples. -/
def cells (xs : List Int) : List (Option Sample) := xs.map (fun v => some (BitVec.ofInt 16 v))

/-- The samples as words of 16 bits. -/
def samples (xs : List Int) : List Sample := xs.map (BitVec.ofInt 16)

/-- A state whose buffer `b` holds the listed samples. -/
def put (b : Nat) (xs : List Int) (s : State) : State := { s with blk := s.blk.set b (cells xs) }

/-- Memory with the listed halfwords from `a` on, written as an engine writes them. -/
def halfwords (m : Memory) (a : Nat) : List Nat → Memory
  | [] => m
  | v :: rest => halfwords (memWrite m a 2 v) (a + 2) rest

/-- The halfwords from `a` on. -/
def readHalfwords (m : Memory) (a n : Nat) : List Nat := (List.range n).map (fun i => memRead m (a + 2 * i) 2)

/-- Reset, configuration E of 95_test_vectors.md. -/
def base : State := State.reset

/-- Both adapters running, both regions written, input as after V-IO-4 and output zero. -/
def live : State :=
  { base with
    inState := .running
    outState := .running
    mem := halfwords (halfwords [] 0x20000000 [0x800, 0x900, 0xA00, 0xB00, 0x700, 0x600, 0x500, 0x400])
      0x20000100 [0, 0, 0, 0, 0, 0, 0, 0] }

/-- `live` with buffer 0 loaded. -/
def loaded : State := put 0 [10000, 10000, 10000, 10000] live

/-- The host has sent the words. -/
def sent (ws : List Word) (s : State) : State := { s with inbox := ws }

/-! ### Well-formed commands: an ill-formed term for each check -/

theorem test_wellFormed_accepts_largest :
    (Instr.blkWrite 15 65535 0#32).wellFormed = true ∧ (Instr.csrRead 255).wellFormed = true
    ∧ (Instr.iirProcess 15 15).wellFormed = true := by decide
theorem test_wellFormed_refuses_block :
    (Instr.inGetBlock 16).wellFormed = false ∧ (Instr.outPutBlock 16).wellFormed = false
    ∧ (Instr.iirProcess 16 0).wellFormed = false ∧ (Instr.iirProcess 0 16).wellFormed = false
    ∧ (Instr.cicProcess 16 0).wellFormed = false ∧ (Instr.cicProcess 0 16).wellFormed = false
    ∧ (Instr.firProcess 16 0).wellFormed = false ∧ (Instr.firProcess 0 16).wellFormed = false
    ∧ (Instr.blkRead 16 0).wellFormed = false ∧ (Instr.blkWrite 16 0 0#32).wellFormed = false := by decide
theorem test_wellFormed_refuses_csr :
    (Instr.csrRead 256).wellFormed = false ∧ (Instr.csrWrite 256 0#32).wellFormed = false := by decide
theorem test_wellFormed_refuses_index :
    (Instr.blkRead 0 65536).wellFormed = false ∧ (Instr.blkWrite 0 65536 0#32).wellFormed = false := by decide

/-! ### Decoding: the words of V-ENC-1, V-ENC-2, V-ENC-3 and R104 -/

theorem test_decode_adapters :
    decode [0x01000000#32] = .command .inInit [] ∧ decode [0x02000000#32] = .command .inStart []
    ∧ decode [0x03030000#32] = .command (.inGetBlock 3) [] ∧ decode [0x04000000#32] = .command .outInit []
    ∧ decode [0x05000000#32] = .command .outStart [] ∧ decode [0x06200000#32] = .command (.outPutBlock 2) [] := by
  decide
theorem test_decode_units :
    decode [0x10000000#32] = .command .iirConnect [] ∧ decode [0x11000000#32] = .command .iirDisconnect []
    ∧ decode [0x12120000#32] = .command (.iirProcess 1 2) []
    ∧ decode [0x20000000#32] = .command .cicConnect [] ∧ decode [0x21000000#32] = .command .cicDisconnect []
    ∧ decode [0x22120000#32] = .command (.cicProcess 1 2) []
    ∧ decode [0x30000000#32] = .command .firConnect [] ∧ decode [0x31000000#32] = .command .firDisconnect []
    ∧ decode [0x32120000#32] = .command (.firProcess 1 2) [] := by
  decide
theorem test_decode_control :
    decode [0x40150000#32] = .command (.csrRead 0x15) []
    ∧ decode [0x41100000#32, 0x00000001#32] = .command (.csrWrite 0x10 1#32) []
    ∧ decode [0x42000000#32] = .command .contMask [] ∧ decode [0x43000000#32] = .command .contUnmask []
    ∧ decode [0x44000000#32] = .command .contDone []
    ∧ decode [0x45300003#32] = .command (.blkRead 3 3) []
    ∧ decode [0x46000002#32, 0x00008000#32] = .command (.blkWrite 0 2 0x8000#32) [] := by
  decide
theorem test_decode_illegal :
    decode [0x00000000#32] = .illegal .unassignedOpcode 0x00000000#32 []
    ∧ decode [0x07000000#32] = .illegal .unassignedOpcode 0x07000000#32 []
    ∧ decode [0xF0000000#32] = .illegal .unassignedOpcode 0xF0000000#32 []
    ∧ decode [0x12000001#32] = .illegal .reservedField 0x12000001#32 []
    ∧ decode [0x10010000#32] = .illegal .reservedField 0x10010000#32 []
    ∧ decode [0x03100000#32] = .illegal .reservedField 0x03100000#32 []
    ∧ decode [0x06010000#32] = .illegal .reservedField 0x06010000#32 []
    ∧ decode [0x45010000#32] = .illegal .reservedField 0x45010000#32 []
    ∧ decode [0x40000001#32] = .illegal .reservedField 0x40000001#32 [] := by decide
/-- V-ENC-3: an illegal two-word command takes its DATA word. -/
theorem test_decode_length :
    decode [0x41000001#32, 0x12345678#32, 0x44000000#32] = .illegal .reservedField 0x41000001#32 [0x44000000#32]
    ∧ decode [0x07000000#32, 0x44000000#32] = .illegal .unassignedOpcode 0x07000000#32 [0x44000000#32]
    ∧ decode [0x41110000#32] = .incomplete := by decide
theorem test_encode_examples :
    encode (.inGetBlock 2) = [0x03020000#32] ∧ encode (.iirProcess 0 1) = [0x12010000#32]
    ∧ encode (.outPutBlock 3) = [0x06300000#32] ∧ encode (.csrWrite 0x11 1000#32) = [0x41110000#32, 0x000003E8#32]
    ∧ encode (.blkWrite 1 5 0xFFFE#32) = [0x46100005#32, 0x0000FFFE#32] ∧ encode (.csrRead 1) = [0x40010000#32] := by
  decide
theorem test_table_word :
    decodeTableWord 32 0x41020000 = some (.csrWrite 2 0#32) ∧ decodeTableWord 32 0x45100005 = some (.blkRead 1 5)
    ∧ decodeTableWord 32 0x07000000 = none := by decide
theorem test_fetch_word :
    look id (step (base.withFetchWord 32 0x42000000))
      = some { base with contMasked := true, responses := [{ status := .ok, data := 0#32 }] } := by decide
/-- The assembler lines of R102 and R103. -/
theorem test_assemble :
    assembleLine "BLK_WRITE b1, 5, -2" = .command (.blkWrite 1 5 0xFFFE#32)
    ∧ assembleLine "IIR_SET_MODE HP ; high-pass" = .command (.csrWrite 0x10 1#32)
    ∧ assembleLine "CSR_WRITE IIR_CUTOFF, 1000" = .command (.csrWrite 0x11 1000#32)
    ∧ assembleLine "SUSPEND" = .command .contMask := by decide

/-! ### One step per instruction: vectors of 95_test_vectors.md and the rules' own examples -/

/-- V-IO-2, R111. -/
theorem test_inInit :
    look (fun t => (t.inState, readHalfwords t.mem 0x20000000 8)) (exec .inInit base)
      = some (.init, [0, 0, 0, 0, 0, 0, 0, 0]) := by decide
theorem test_inInit_failing_draw :
    look (fun t => (t.err, t.inState, t.mem.length)) (exec .inInit { base with initDraws := [false] })
      = some (0x07#8, .uninit, 0) := by decide
/-- V-IO-3. -/
theorem test_inStart :
    look (fun t => (t.inState, t.inPos)) (exec .inStart { base with inState := .init }) = some (.running, 0)
    ∧ answer (exec .inStart base) = some (.eState, 0#32) := by decide
/-- V-IO-5, second row. -/
theorem test_inGetBlock_half1 :
    look (fun t => blockCells t 0) (exec (.inGetBlock 0) live) = some (cells [-4096, -8192, -12288, -16384])
    ∧ answer (exec (.inGetBlock 0) live) = some (.ok, 1#32) := by decide
/-- V-IO-5, last row. -/
theorem test_inGetBlock_half0 :
    look (fun t => blockCells t 0) (exec (.inGetBlock 0)
      { live with inPos := 5, mem := halfwords live.mem 0x20000000 [0x000, 0x800, 0xFFF, 0x001] })
      = some (cells [-32768, 0, 32752, -32752]) := by decide
/-- V-IO-2, R118. -/
theorem test_outInit :
    look (fun t => (statusWord t, readHalfwords t.mem 0x20000100 8)) (exec .outInit base)
      = some (0x00000348#32, [0, 0, 0, 0, 0, 0, 0, 0]) := by decide
theorem test_outInit_twice : answer (exec .outInit live) = some (.eState, 0#32) := by decide
theorem test_outStart :
    look statusWord (exec .outStart { base with inState := .running, outState := .init }) = some 0x000003A8#32
    ∧ answer (exec .outStart live) = some (.eState, 0#32) := by decide
/-- R121's example. -/
theorem test_outPutBlock :
    look (fun t => (readHalfwords t.mem 0x20000100 8, t.cache, t.fresh0, t.fresh1))
      (exec (.outPutBlock 1) { put 1 [1, -1, 2, -2] live with outTarget := .half0, fresh0 := false, fresh1 := false })
      = some ([0x0001, 0xFFFF, 0x0002, 0xFFFE, 0, 0, 0, 0], [], true, false) := by decide
/-- V-MEM-4: two channels carry the same sample. -/
theorem test_outPutBlock_two_channels :
    look (fun t => readHalfwords t.mem 0x20000100 8)
      (exec (.outPutBlock 1) { put 1 [1, -1, 2, -2] live with
        cfg := { Cfg.exampleE with outCh := 2 }, outTarget := .half0 })
      = some [0x0001, 0x0001, 0xFFFF, 0xFFFF, 0x0002, 0x0002, 0xFFFE, 0xFFFE] := by decide
/-- V-IIR-10: the coefficients are kept. -/
theorem test_iirConnect :
    look (fun t => (t.iir.y, t.iir.xprev, t.iir.cutoffCached, t.iir.fb))
      (exec .iirConnect { base with iir := { base.iir with y := 5#32, xprev := 6#16, cutoffCached := 1000#32, fb := 7#32 } })
      = some (0#32, 0#16, 0#32, 7#32) := by decide
theorem test_iirDisconnect :
    look (fun t => (t.iir.y, t.iir.xprev, t.iir.cutoffCached))
      (exec .iirDisconnect { base with iir := { base.iir with y := 5#32, xprev := 6#16, cutoffCached := 1000#32 } })
      = some (0#32, 0#16, 0#32) := by decide
/-- V-IIR-2. -/
theorem test_iirProcess_lowPass :
    look (fun t => (blockCells t 1, t.iir.y, t.iir.xprev, t.iir.cutoffCached, t.iir.fb)) (exec (.iirProcess 0 1) loaded)
      = some (cells [1226, 2303, 3247, 4076], 267134667#32, 10000#16, 1000#32, 0x704B8E31#32) := by decide +kernel
/-- V-IIR-6, block 2: the saturated high-pass, the coefficients of cutoff 24000 already computed. -/
theorem test_iirProcess_highPass_saturates :
    look (fun t => (blockCells t 1, t.iir.y, t.satCnt))
      (exec (.iirProcess 0 1) { put 0 [32767, 32767, 32767, 32767] live with
        iir := { mode := .highPass, cutoff := 24000#32, cutoffCached := 24000#32, fb := 92801183#32,
                 ff := 2054682465#32, y := BitVec.ofInt 32 (-2147476159), xprev := 0x8000#16 } })
      = some (cells [-32768, 123, 6, 1], 2147403134#32, 1#32) := by decide
theorem test_cicConnect :
    look (fun t => t.cic) (exec .cicConnect { base with cic := { ic := [1#32], ii := [], di := [2#32], dc := [] } })
      = some base.cic := by decide
theorem test_cicDisconnect :
    look (fun t => t.cic) (exec .cicDisconnect { base with cic := { ic := [1#32], ii := [], di := [2#32], dc := [] } })
      = some base.cic := by decide
/-- V-CIC-3. -/
theorem test_cicProcess :
    look (fun t => (blockCells t 1, t.cic)) (exec (.cicProcess 0 1) (put 0 [1000, 1000, 1000, 1000] live))
      = some (cells [109, 999, 1890, 2000],
          { ic := [1000#32, 0#32, 0#32], ii := [0#32, 0#32, 16000#32],
            di := [25996#32, 184446#32, 944600#32], dc := [944600#32, 589808#32, 319936#32] }) := by decide
/-- V-CIC-2, the constant -32768. -/
theorem test_cicProcess_negative :
    look (fun t => blockCells t 1) (exec (.cicProcess 0 1) (put 0 [-32768, -32768, -32768, -32768] live))
      = some (cells [-3371, -22784, -32554, -32767]) := by decide
theorem test_firConnect :
    look (fun t => t.fir) (exec .firConnect { base with fir := { hist := samples [1, 2, 3, 4], head := 3 } })
      = some base.fir := by decide
theorem test_firDisconnect :
    look (fun t => t.fir) (exec .firDisconnect { base with fir := { hist := samples [1, 2, 3, 4], head := 3 } })
      = some base.fir := by decide
/-- Program P2, last line: the impulse again, in place, over a history that holds one. -/
theorem test_firProcess_in_place :
    look (fun t => (blockCells t 0, t.fir)) (exec (.firProcess 0 0)
      { put 0 [32767, 0, 0, 0] live with fir := { hist := samples [32767, 0, 0, 0], head := 0 } })
      = some (cells [16383, -8192, 4095, 2047], { hist := samples [32767, 0, 0, 0], head := 0 }) := by decide
/-- V-FIR-5, the first block. -/
theorem test_firProcess_saturates :
    look (fun t => (blockCells t 1, t.satCnt)) (exec (.firProcess 0 1)
      { put 0 [32767, -32768, 32767, -32768] live with
        cfg := { Cfg.exampleE with
          firTaps := [0x3FFFFFFE#32, 0xC0000002#32, 0x3FFFFFFE#32, 0xC0000002#32] } })
      = some (cells [16383, -32768, 32767, -32768], 2#32) := by decide
/-- V-CTL-1, V-CTL-2. -/
theorem test_csrRead :
    answer (exec (.csrRead 0x01) base) = some (.ok, 0x00000308#32)
    ∧ answer (exec (.csrRead 0x20) base) = some (.ok, 0x00000203#32)
    ∧ answer (exec (.csrRead 0x08) base) = some (.eCsr, 8#32) := by decide
/-- V-CTL-3: a signed read. -/
theorem test_csrRead_signed :
    answer (exec (.csrRead 0x16) { base with iir := { base.iir with xprev := 0xC000#16 } })
      = some (.ok, 0xFFFFC000#32) := by decide
/-- V-CTL-2. -/
theorem test_csrWrite :
    look (fun t => t.iir.mode) (exec (.csrWrite 0x10 0xFFFFFFFF#32) base) = some .highPass
    ∧ look (fun t => t.iir.cutoff) (exec (.csrWrite 0x11 24000#32) base) = some 24000#32
    ∧ look (fun t => t.err) (exec (.csrWrite 0x02 0x1234#32) { base with err := 5#8 }) = some 0#8 := by decide
theorem test_csrWrite_errors :
    answer (exec (.csrWrite 0x11 24001#32) base) = some (.eRange, 24001#32)
    ∧ answer (exec (.csrWrite 0x15 7#32) base) = some (.eRo, 0x15#32)
    ∧ answer (exec (.csrWrite 0x08 0#32) base) = some (.eCsr, 8#32) := by decide
/-- V-CTL-4. -/
theorem test_blkRead :
    answer (exec (.blkRead 1 3) (put 1 [0, 0, 0, -2] base)) = some (.ok, 0xFFFFFFFE#32)
    ∧ faultOf (exec (.blkRead 2 0) base) = some (.unwritten 2 0) := by decide
/-- V-ENC-4 and V-CTL-4. -/
theorem test_blkWrite :
    look (fun t => blockCells t 0) (exec (.blkWrite 0 0 0x12348000#32) base)
      = some [some 0x8000#16, none, none, none]
    ∧ answer (exec (.blkWrite 1 5 0xFFFE#32) base) = some (.eRange, 5#32)
    ∧ answer (exec (.blkWrite 4 9 0#32) base) = some (.eBlkIdx, 4#32) := by decide
/-- V-CTL-5. -/
theorem test_contMask : look statusWord (exec .contMask base) = some 0x0000030C#32 := by decide
theorem test_contUnmask :
    look statusWord (exec .contUnmask { base with contMasked := true, contPending := true }) = some 0x00000309#32 := by
  decide
theorem test_contDone :
    look statusWord (exec .contDone { base with contActive := true, contPending := true }) = some 0x00000309#32
    ∧ answer (exec .contDone base) = some (.eState, 0#32) := by decide

/-! ### Agent steps and the units' functions -/

/-- V-MEM-1. -/
theorem test_inputEngine :
    look (fun t => (memGet t.mem 0x2000000A, memGet t.mem 0x2000000B, t.inPos))
      (step { live with inPos := 5, moves := [.inputEngine 0x0ABC#16] }) = some (some 0xBC#8, some 0x0A#8, 6) := by decide
/-- V-IO-8, third row. -/
theorem test_outputEngine_event :
    look (fun t => (t.outTarget, t.fresh0, t.fresh1, t.contPending, t.underrunCnt, t.overrunCnt))
      (step { live with outPos := 7, outTarget := .half0, fresh0 := false, contPending := true,
                        moves := [.outputEngine] })
      = some (.half1, false, false, true, 1#32, 1#32) := by decide
/-- V-IO-8, the saturated counter. -/
theorem test_outputEngine_counter_stops :
    look (fun t => (t.outPos, t.underrunCnt))
      (step { live with outPos := 3, fresh1 := false, underrunCnt := 0xFFFFFFFF#32, moves := [.outputEngine] })
      = some (4, 0xFFFFFFFF#32) := by decide
/-- Program P4, step 4. -/
theorem test_dispatch :
    look statusWord (step { live with outTarget := .half0, fresh0 := false, contPending := true })
      = some 0x000002A2#32 := by decide
/-- V-IO-1. -/
theorem test_inTransform :
    inTransform 12 0x7FF#16 = BitVec.ofInt 16 (-16) ∧ inTransform 12 0xF800#16 = 0#16
    ∧ inTransform 8 0x00FF#16 = BitVec.ofInt 16 32512 ∧ inTransform 1 0xFFFE#16 = BitVec.ofInt 16 (-32768)
    ∧ inTransform 16 0xFFFF#16 = BitVec.ofInt 16 32767 := by decide
/-- V-CIC-1. -/
theorem test_clip :
    [0, 1, -1, 10921, 10922, 21844, 21845, 32767, -32768, -15000, 5000].map (clip 10922 21845)
      = [0, 2, -2, 21842, 21844, 32766, 32767, 32767, -32767, -25922, 10000] := by decide
/-- V-IIR-1. -/
theorem test_coefRef :
    coefRef 48000 1 = 2147202561 ∧ coefRef 48000 1000 = 1883999793 ∧ coefRef 48000 24000 = 92801183 := by
  decide +kernel
/-- R67: an odd base is refused even with one-byte lines, an even one is not. -/
theorem test_even_bases :
    admitsRegions { Cfg.exampleE with cacheLine := 1, inBase := 0x20000001 } = false
    ∧ admitsRegions { Cfg.exampleE with cacheLine := 1, outBase := 0x20000101 } = false
    ∧ admitsRegions { Cfg.exampleE with cacheLine := 1, inBase := 0x20000002 } = true := by decide
/-- R277: one command is sent and answered, and the run has then ended, not before. -/
theorem test_host_program_ends :
    let h := hostStart { items := hostItems [.contMask], effects := [.iir] } base
    let after := hostAfter (hostSend h) ((look id (step (hostSend h).machine)).getD base)
    runEnded h = false ∧ runEnded after = true
    ∧ (runObservation after).map (fun o => o.csrs.head?) = some (some (.status, 0x0000030C#32)) := by decide
/-- R274, program P4: the dispatch is answered by the cycle program. -/
theorem test_host_program_cycle :
    (hostAfter (hostStart { items := [], effects := [.iir] } base) { base with contActive := true }).cycle
      = [.inGetBlock 0, .iirProcess 0 1, .outPutBlock 1, .contDone] := by decide
/-- V-FIR-10. -/
theorem test_kernel_admission :
    admitsFir Cfg.exampleE = true
    ∧ admitsFir { Cfg.exampleE with firTaps := [0x40000000#32, 0xC0000000#32, 0x40000000#32, 0xC0000000#32] } = false
    ∧ admitsFir { Cfg.exampleE with firTaps := [0x3FFFFFFE#32, 0xC0000002#32, 0x3FFFFFFE#32, 0xC0000002#32] } = true := by
  decide

/-! ### Witnesses: for each obligation with hypotheses, states and operands that meet them, one per clause, at
the values where clauses meet -/

/-- The configuration E is admitted. -/
theorem test_hyp_admits : admits base.cfg = true ∧ admits live.cfg = true := by decide
/-- ResetMeetsInvariants. -/
theorem test_hyp_ResetMeetsInvariants : admits Cfg.exampleE = true := by decide
/-- StepRunsDecodedCommand: the host's turn listed, and no move listed. -/
theorem test_hyp_StepRunsDecodedCommand :
    let s := sent [0x43000000#32, 0x44000000#32] base
    admits s.cfg = true ∧ dispatchEnabled s = false ∧ decode s.inbox = .command .contUnmask [0x44000000#32]
    ∧ s.moves = [] ∧ { s with moves := [.host, .dispatch] }.moves = .host :: [.dispatch] := by decide
/-- IllegalWordRejected: a one-word illegal command alone, a two-word one with and without its DATA word. -/
theorem test_hyp_IllegalWordRejected :
    let s := sent [0x42000001#32] base
    admits s.cfg = true ∧ dispatchEnabled s = false ∧ s.moves = [] ∧ s.inbox = 0x42000001#32 :: []
    ∧ (sent [0x41000001#32, 7#32] base).inbox = 0x41000001#32 :: [7#32]
    ∧ (sent [0x46010000#32] base).inbox = 0x46010000#32 :: []
    ∧ ¬ inOpcodeTable 0x42000001#32 ∧ ¬ inOpcodeTable 0x41000001#32 ∧ ¬ inOpcodeTable 0x46010000#32 := by
  simp only [inOpcodeTable]
  decide
/-- RefusedExactlyForBadConfiguration: `k * r = 18` breaks R173, 16 does not. -/
theorem test_hyp_RefusedExactlyForBadConfiguration :
    admits { Cfg.exampleE with cicR := 6 } = false ∧ admits { Cfg.exampleE with cicK := 4, cicR := 4 } = true
    ∧ step { base with cfg := { Cfg.exampleE with cicR := 6 } } = .refused .badConfig := ⟨by decide, by decide, rfl⟩
/-- DispatchBeforeHostCommand. -/
theorem test_hyp_DispatchBeforeHostCommand :
    let s := { live with contPending := true }
    admits s.cfg = true ∧ dispatchEnabled s = true ∧ s.moves = []
    ∧ { s with moves := [.dispatch] }.moves = .dispatch :: [] := by decide
/-- DecodeEncodeRoundTrip, at the largest operands. -/
theorem test_hyp_DecodeEncodeRoundTrip :
    (Instr.blkWrite 15 65535 0xFFFFFFFF#32).wellFormed = true ∧ (Instr.csrWrite 255 0#32).wellFormed = true
    ∧ (Instr.firProcess 15 0).wellFormed = true := by decide
/-- EncodeDecodeRoundTrip. -/
theorem test_hyp_EncodeDecodeRoundTrip :
    decode [0x46F0FFFF#32, 1#32, 2#32] = .command (.blkWrite 15 65535 1#32) [2#32] := by decide
/-- The statements about every step: a command's step, an engine's, the dispatch's, in states that meet every
invariant. -/
theorem test_hyp_steps :
    (∃ t, step (sent [0x04000000#32] base) = .next t) ∧ (∃ t, step { live with moves := [.outputEngine] } = .next t)
    ∧ ∃ t, step { live with contPending := true } = .next t :=
  ⟨next_of_look (by decide), next_of_look (by decide), next_of_look (by decide)⟩
/-- StepKeepsMemoryCanonical, StepKeepsCacheForm, StepKeepsCacheClean, StepKeepsHalfOwnership, StepKeepsIirInvariant,
StepKeepsShapes, ErrorCodesStayDefined: the invariants hold of the states of test_hyp_steps. -/
theorem test_hyp_invariants :
    let ok := fun (s : State) => Memory.wf s.mem && cacheOk s && blocksShaped s && unitsShaped s && adaptersOk s
      && iirOk s && s.cache.all (fun l => !l.dirty) && decide (s.err.toNat ≤ 7)
    ok (sent [0x04000000#32] base) = true ∧ ok { live with moves := [.outputEngine] } = true
    ∧ ok { live with contPending := true } = true := by decide
/-- MemoryReadAfterWrite: the bytes just below and just above the written ones. -/
theorem test_hyp_MemoryReadAfterWrite :
    let m := memWrite (memWrite [] 4 4 0) 5 2 0x1234
    memRead m 5 2 = 0x1234 % 256 ^ 2 ∧ (4 < 5 ∧ 5 + 2 ≤ 7)
    ∧ memGet m 4 = some 0#8 ∧ memGet m 5 = some 0x34#8 ∧ memGet m 6 = some 0x12#8 ∧ memGet m 7 = some 0#8 := by decide
/-- A cache with a clean line (the input region's half 0) and a dirty one (half 1). -/
def cached : State :=
  { live with cache := [{ la := 0x4000000, data := List.replicate 8 0x11#8, dirty := false },
                        { la := 0x4000001, data := List.replicate 8 0x22#8, dirty := true }] }
/-- EvictionWritesBack: no line, a clean line, a dirty line. -/
theorem test_hyp_EvictionWritesBack :
    admits cached.cfg = true ∧ { cached with moves := [.evict 0x4000000] }.moves = .evict 0x4000000 :: []
    ∧ cacheFind cached.cache 0x4000002 = none
    ∧ cacheFind cached.cache 0x4000000 = some { la := 0x4000000, data := List.replicate 8 0x11#8, dirty := false }
    ∧ cacheFind cached.cache 0x4000001 = some { la := 0x4000001, data := List.replicate 8 0x22#8, dirty := true } := by
  decide
/-- InInitCompletes and OutInitCompletes, with a line in the region, and with no answer listed. -/
theorem test_hyp_InitCompletes :
    let s := { cached with inState := .uninit, outState := .uninit, initDraws := [true, false] }
    admits s.cfg = true ∧ cacheOk s = true ∧ s.inState = .uninit ∧ s.outState = .uninit
    ∧ s.initDraws.headD true = true ∧ base.initDraws.headD true = true := by decide
/-- InitErrors: out of UNINIT, and a failing draw. -/
theorem test_hyp_InitErrors :
    live.inState ≠ .uninit ∧ live.outState ≠ .uninit ∧ base.inState = .uninit ∧ base.outState = .uninit
    ∧ { base with initDraws := [false] }.initDraws.headD true = false := by decide
/-- StartCommands, CopyStateErrors: each clause. -/
theorem test_hyp_StartCommands :
    { base with inState := .init }.inState = .init ∧ { base with outState := .init }.outState = .init
    ∧ base.inState ≠ .init ∧ live.outState ≠ .init ∧ base.inState ≠ .running ∧ base.outState = .uninit
    ∧ 3 < base.cfg.nblk := by decide
/-- InGetBlockCompletes, on both sides of the midpoint, with valid lines in both halves. -/
theorem test_hyp_InGetBlockCompletes :
    admits cached.cfg = true ∧ 3 < cached.cfg.nblk ∧ cached.inState = .running
    ∧ { cached with inPos := 3 }.inPos < cached.cfg.n ∧ ¬ { cached with inPos := 4 }.inPos < cached.cfg.n := by decide
/-- OutPutBlockCompletes, for both targets. -/
theorem test_hyp_OutPutBlockCompletes :
    admits loaded.cfg = true ∧ cacheOk loaded = true ∧ 0 < loaded.cfg.nblk ∧ loaded.outState ≠ .uninit
    ∧ blockHolds loaded 0 (fun _ => 10000#16) ∧ loaded.outTarget = .half1
    ∧ blockHolds { loaded with outTarget := .half0 } 0 (fun _ => 10000#16) := by
  simp only [blockHolds]
  decide
/-- InputTransformExact, at both ends of the ADC width. -/
theorem test_hyp_InputTransformExact :
    (inTransform 1 0xFFFF#16).toInt = 0 ∧ (inTransform 16 0xFFFF#16).toInt = 32767 := by decide
/-- InputEngineStep, at the wrap. -/
theorem test_hyp_InputEngineStep :
    let s := { live with inPos := 7, moves := [.inputEngine 0x0ABC#16] }
    admits s.cfg = true ∧ s.moves = .inputEngine 0x0ABC#16 :: [] ∧ s.inState = .running
    ∧ (s.inPos + 1) % (2 * s.cfg.n) = 0 := by decide
/-- OutputEngineStep: inside a half, at the end of half 0, at the end of half 1. -/
theorem test_hyp_OutputEngineStep :
    let s := { live with moves := [.outputEngine] }
    admits s.cfg = true ∧ s.moves = .outputEngine :: [] ∧ s.outState = .running
    ∧ ({ s with outPos := 2 }.outPos + 1 ≠ s.cfg.n ∧ { s with outPos := 2 }.outPos + 1 ≠ 2 * s.cfg.n)
    ∧ { s with outPos := 3 }.outPos + 1 = s.cfg.n ∧ { s with outPos := 7 }.outPos + 1 = 2 * s.cfg.n := by decide
/-- CommandsSpareTheEngineHalf: OUT_PUT_BLOCK on a running adapter, at the ends of the engine's half. -/
theorem test_hyp_CommandsSpareTheEngineHalf :
    (∃ t, exec (.outPutBlock 0) loaded = .next t) ∧ cacheOk loaded = true ∧ blocksShaped loaded = true
    ∧ (∀ l ∈ loaded.cache, l.dirty = false) ∧ adaptersOk loaded = true ∧ loaded.outState = .running
    ∧ inOutHalf loaded.cfg (otherHalf loaded.outTarget) 0x20000100 = true
    ∧ inOutHalf loaded.cfg (otherHalf loaded.outTarget) 0x20000107 = true
    ∧ inOutHalf loaded.cfg (otherHalf loaded.outTarget) 0x20000108 = false :=
  ⟨next_of_look (by decide), by decide⟩
/-- IirProcessCompletes, CicProcessCompletes, FirProcessCompletes. -/
theorem test_hyp_ProcessCompletes :
    admits loaded.cfg = true ∧ iirOk loaded = true ∧ 0 < loaded.cfg.nblk ∧ 3 < loaded.cfg.nblk
    ∧ blockHolds loaded 0 (fun _ => 10000#16) := by
  simp only [blockHolds]
  decide
/-- IirLowPassBounded, at the corners of its ranges. -/
theorem test_hyp_IirLowPassBounded :
    iirNextY (-32768) (-2147483648) 1 2147483647 = -2147483648 ∧ iirNextY 32767 2147418112 2147483647 1 = 2147418112 := by
  decide
/-- IirOutputsAreComplementary: V-IIR-5's first sample. -/
theorem test_hyp_IirOutputsAreComplementary :
    let u := { base.iir with fb := 1883999793#32, ff := 263483855#32 }
    let lp := ((iirRun base.cfg { u with mode := .lowPass } 0#32 (samples [10000])).1.getD 0 0).toInt
    0 < (samples [10000]).length ∧ u.y.toInt ≤ 2147418112 ∧ 1 ≤ u.fb.toInt ∧ 1 ≤ u.ff.toInt
    ∧ u.ff.toInt + u.fb.toInt = 2147483648 ∧ u.xprev.toInt - lp ≤ 32767 ∧ -32768 ≤ u.xprev.toInt - lp := by decide
/-- CoefficientNearTheExponential, at the smallest rate and at the Nyquist frequency. -/
theorem test_hyp_CoefficientNearTheExponential :
    coefRef 2 1 = 92801183 ∧ coefRef 8000 4000 = 92801183 := by decide +kernel
/-- ClipSegments: the break points, and the values where the segments meet. -/
theorem test_hyp_ClipSegments :
    0 < 10922 ∧ 10922 < 21845 ∧ 21845 ≤ 32767 ∧ 10922 + 21845 = 32767
    ∧ [0, 10921, 10922, 21844, 21845].map (clip 10922 21845) = [0, 21842, 21844, 32766, 32767] := by decide
/-- CicRateOneIsClip: V-CIC-5. -/
theorem test_hyp_CicRateOneIsClip :
    let c := { Cfg.exampleE with cicR := 0 }
    c.cicR = 0 ∧ admitsCic c = true
    ∧ (cicRun c (cicRest c) (samples [5000, -15000, 32767, -32768])).1 = samples [10000, -25922, 32767, -32767] := by
  decide
/-- CicOutputNeverWraps, CicCascadesCongruent: at the largest order and at the largest rate that R173 admits together. -/
theorem test_hyp_CicOutputNeverWraps :
    admitsCic { Cfg.exampleE with cicK := 16, cicR := 1 } = true
    ∧ admitsCic { Cfg.exampleE with cicK := 1, cicR := 16 } = true
    ∧ admitsCic { Cfg.exampleE with cicK := 16, cicR := 2 } = false := by decide
/-- FirIsConvolution and FirHeadRuns: the first and the last sample of a block. -/
theorem test_hyp_FirIsConvolution :
    admitsFir Cfg.exampleE = true ∧ 1 ≤ Cfg.exampleE.firTaps.length
    ∧ 0 < (samples [32767, 0, 0, 0]).length ∧ 3 < (samples [32767, 0, 0, 0]).length := by decide
/-- CsrWriteCompletes and CsrErrors: the cutoffs where the clauses meet, unassigned and read-only numbers. -/
theorem test_hyp_Csr :
    (1 ≤ (1#32).toNat ∧ (24000#32).toNat ≤ base.cfg.fs / 2) ∧ ((0#32).toNat < 1 ∧ base.cfg.fs / 2 < (24001#32).toNat)
    ∧ (∀ n ∈ [0x00, 0x08, 0x0F, 0x17, 0x33, 0xFF], csrOfNumber n = none)
    ∧ ∀ n ∈ [0x01, 0x03, 0x16, 0x20, 0x32], answer (exec (.csrWrite n 5#32) base) = some (.eRo, BitVec.ofNat 32 n) := by
  decide
/-- BlkReadCompletes and BlkWriteCompletes, at the last cell of the last buffer. -/
theorem test_hyp_BlkCells :
    let s := put 3 [1, 2, 3, -4] base
    3 < s.cfg.nblk ∧ 3 < s.cfg.n ∧ blockCell s 3 3 = some (BitVec.ofInt 16 (-4)) ∧ blocksShaped s = true := by decide
/-- OperandErrors: the numbers where the clauses meet. -/
theorem test_hyp_OperandErrors : base.cfg.nblk ≤ 4 ∧ 3 < base.cfg.nblk ∧ base.cfg.n ≤ 4 := by decide
/-- A state whose buffer 0 is written but for its cells 1 and 3. -/
def holed : State := { live with blk := live.blk.set 0 [some 1#16, none, some 2#16, none] }
/-- UnwrittenCellFaults and FaultsNameAnUnwrittenCell: the lowest unwritten cell, and BLK_READ at a higher one. -/
theorem test_hyp_UnwrittenCellFaults :
    0 < holed.cfg.nblk ∧ holed.outState ≠ .uninit ∧ 3 < holed.cfg.n ∧ blockCell holed 0 3 = none
    ∧ lowestUnwritten holed 0 1 ∧ faultOf (exec (.outPutBlock 0) holed) = some (.unwritten 0 1)
    ∧ faultOf (exec (.firProcess 0 2) holed) = some (.unwritten 0 1)
    ∧ faultOf (exec (.blkRead 0 3) holed) = some (.unwritten 0 3) := by
  simp only [lowestUnwritten]
  decide
/-- ContinuationCommands: both values of the active bit. -/
theorem test_hyp_ContinuationCommands :
    base.contActive = false ∧ { base with contActive := true }.contActive = true := by decide
/-- ErrorsArePrecise: a failing command, a failing draw, a successful command, and the write that clears ERR. -/
theorem test_hyp_ErrorsArePrecise :
    (∃ t, exec .contDone base = .next t) ∧ (∃ t, exec .outInit { base with initDraws := [false, true] } = .next t)
    ∧ (∃ t, exec .contMask base = .next t) ∧ ∃ t, exec (.csrWrite 0x02 5#32) { base with err := 6#8 } = .next t :=
  ⟨next_of_look (by decide), next_of_look (by decide), next_of_look (by decide), next_of_look (by decide)⟩
/-- ContinuationBitsChangeOnlyByRule: the event raises, the dispatch lowers and starts, CONT_DONE ends. -/
theorem test_hyp_ContinuationBits :
    let bits := fun (t : State) => (t.contPending, t.contActive)
    look bits (step { live with outPos := 3, moves := [.outputEngine] }) = some (true, false)
    ∧ look bits (step { live with contPending := true }) = some (false, true)
    ∧ look bits (step (sent [0x44000000#32] { live with contActive := true })) = some (false, false) := by decide

end Sys2Proof.Tests
end

section
/-! The host's turn as a step: what `step` is when the host's next command decodes (R78, R253). -/

namespace Sys2Proof.Machine

open Sys2Proof

/-- The host's turn, listed first among the moves. -/
theorem turn_of_moves_host {s : State} {ms : List Move} (hm : s.moves = .host :: ms) : turn s = hostTurn s ms := by
  simp only [turn, hm]

/-- With no move listed the turn is the host's (log 2). -/
theorem turn_of_moves_nil {s : State} (hm : s.moves = []) : turn s = hostTurn s [] := by
  simp only [turn, hm]

theorem hostTurn_of_decode_command {s : State} {i : Instr} {ws : List Word} (rest : List Move)
    (he : dispatchEnabled s = false) (hd : decode s.inbox = .command i ws) :
    hostTurn s rest = .command i { s with inbox := ws, moves := rest } := by
  simp [hostTurn, he, hd]

theorem step_of_turn_command {s t : State} {i : Instr} (ha : admits s.cfg = true) (ht : turn s = .command i t) :
    step s = exec i t := by
  simp [step, ha, ht]

/-- Settles O3: on both forms of the host's turn, `turn` hands the decoded command to `exec`. -/
theorem stepRunsDecodedCommand : Obligations.StepRunsDecodedCommand := by
  intro s i ws ms ha he hd
  refine ⟨fun hm => step_of_turn_command ha ?_, fun hm => step_of_turn_command ha ?_⟩
  · rw [turn_of_moves_host hm, hostTurn_of_decode_command ms he hd]
  · rw [turn_of_moves_nil hm, hostTurn_of_decode_command [] he hd]

end Sys2Proof.Machine
end

section
/-! What a step changes of the configuration, the block buffers, the effect units and the counters (R24, R27), said
once for commands and once for the steps that run none. -/

namespace Sys2Proof.Machine

open Sys2Proof

/-- A command changes no configuration field (R24). -/
theorem Effected.cfg_eq {i : Instr} {s t : State} (h : Effected i s t) : t.cfg = s.cfg := by
  cases h <;> subst t <;> simp

/-- Only the output engine's event counts an underrun, never a command (R125). -/
theorem Effected.underrunCnt_eq {i : Instr} {s t : State} (h : Effected i s t) :
    t.underrunCnt = s.underrunCnt := by
  cases h <;> subst t <;> simp

/-- Only the output engine's event counts an overrun, never a command (R125). -/
theorem Effected.overrunCnt_eq {i : Instr} {s t : State} (h : Effected i s t) : t.overrunCnt = s.overrunCnt := by
  cases h <;> subst t <;> simp

/-- What a command does to the saturation counter. -/
theorem Effected.satCnt_cases {i : Instr} {s t : State} (h : Effected i s t) :
    t.satCnt = s.satCnt
      ∨ (∃ xs, t.satCnt = (iirRun s.cfg (iirRecompute s.cfg s.iir) s.satCnt xs).2.2)
      ∨ ∃ xs, t.satCnt = (firRun s.cfg s.fir s.satCnt xs).2.2 := by
  cases h <;> subst t
  case iirProcessed _ _ xs _ _ _ _ => exact .inr (.inl ⟨xs, rfl⟩)
  case firProcessed _ _ xs _ _ _ _ => exact .inr (.inr ⟨xs, rfl⟩)
  all_goals exact .inl (by simp)

/-- What a command does to the IIR unit. -/
theorem Effected.iir_cases {i : Instr} {s t : State} (h : Effected i s t) :
    t.iir = s.iir ∨ t.iir = iirRest s.iir ∨ (∃ m, t.iir = { s.iir with mode := m })
      ∨ (∃ v, cutoffLegal s.cfg v = true ∧ t.iir = { s.iir with cutoff := v })
      ∨ ∃ xs, t.iir = (iirRun s.cfg (iirRecompute s.cfg s.iir) s.satCnt xs).2.1 := by
  cases h <;> subst t
  case iirRested => exact .inr (.inl rfl)
  case modeSet m => exact .inr (.inr (.inl ⟨m, rfl⟩))
  case cutoffSet v hv => exact .inr (.inr (.inr (.inl ⟨v, hv, rfl⟩)))
  case iirProcessed _ _ xs _ _ _ _ => exact .inr (.inr (.inr (.inr ⟨xs, rfl⟩)))
  all_goals exact .inl (by simp)

/-- What a command does to the CIC unit. -/
theorem Effected.cic_cases {i : Instr} {s t : State} (h : Effected i s t) :
    t.cic = s.cic ∨ t.cic = cicRest s.cfg ∨ ∃ xs, t.cic = (cicRun s.cfg s.cic xs).2 := by
  cases h <;> subst t
  case cicRested => exact .inr (.inl rfl)
  case cicProcessed _ _ xs _ _ _ _ => exact .inr (.inr ⟨xs, rfl⟩)
  all_goals exact .inl (by simp)

/-- What a command does to the FIR unit. -/
theorem Effected.fir_cases {i : Instr} {s t : State} (h : Effected i s t) :
    t.fir = s.fir ∨ t.fir = firRest s.cfg ∨ ∃ xs, t.fir = (firRun s.cfg s.fir s.satCnt xs).2.1 := by
  cases h <;> subst t
  case firRested => exact .inr (.inl rfl)
  case firProcessed _ _ xs _ _ _ _ => exact .inr (.inr ⟨xs, rfl⟩)
  all_goals exact .inl (by simp)

@[simp] theorem getBlock_blk (d : Nat) (s : State) :
    (getBlock d s).blk = s.blk.set d ((inSamples (inHalfReady s (inHalf s)) (inHalf s)).map some) := by
  simp [getBlock, inHalfReady]

@[simp] theorem inSamples_length (s : State) (h : Half) : (inSamples s h).length = s.cfg.n := by simp [inSamples]

@[simp] theorem inHalfReady_cfg (s : State) (h : Half) : (inHalfReady s h).cfg = s.cfg := by simp [inHalfReady]

/-- What a command does to the block buffers: it leaves them, or replaces one by `N` cells or by as many cells as
some buffer has. -/
theorem Effected.blk_cases {i : Instr} {s t : State} (h : Effected i s t) :
    t.blk = s.blk
      ∨ ∃ b cells, t.blk = s.blk.set b cells
        ∧ (cells.length = s.cfg.n ∨ ∃ src < s.cfg.nblk, cells.length = (blockCells s src).length) := by
  cases h <;> subst t
  case inGetBlock dst _ _ _ => exact .inr ⟨dst, _, getBlock_blk dst s, .inl (by simp)⟩
  case iirProcessed src dst xs _ hs _ hx => exact .inr ⟨dst, _, rfl, .inr ⟨src, hs, by simp [hx]⟩⟩
  case cicProcessed src dst xs _ hs _ hx => exact .inr ⟨dst, _, rfl, .inr ⟨src, hs, by simp [hx]⟩⟩
  case firProcessed src dst xs _ hs _ hx => exact .inr ⟨dst, _, rfl, .inr ⟨src, hs, by simp [hx]⟩⟩
  case cellWritten b j x hb _ => exact .inr ⟨b, _, rfl, .inr ⟨b, hb, by simp⟩⟩
  all_goals exact .inl (by simp)

/-- The fields that only commands write, all as they were. -/
structure CommandFieldsKept (s t : State) : Prop where
  cfg : t.cfg = s.cfg
  satCnt : t.satCnt = s.satCnt
  blk : t.blk = s.blk
  iir : t.iir = s.iir
  cic : t.cic = s.cic
  fir : t.fir = s.fir

/-- The output-engine step writes none of the fields that commands write (R124, R125). -/
theorem outputStep_keeps (s : State) : CommandFieldsKept s (outputStep s) := by
  obtain ⟨_, h⟩ | ⟨_, _, h⟩ | ⟨_, _, h⟩ := outputStep_cases s <;> rw [h] <;> constructor <;> simp

/-- A step runs a command, its words and its turn taken, or keeps every field that only commands write. -/
theorem Stepped.command_or_kept {s t : State} (h : Stepped s t) :
    (∃ i ws ms, Effected i { s with inbox := ws, moves := ms } t) ∨ CommandFieldsKept s t := by
  cases h
  case command i ws ms _ _ h => exact .inl ⟨i, ws, ms, h⟩
  all_goals subst t; right
  case output ms _ _ =>
    obtain ⟨hcfg, hsat, hblk, hiir, hcic, hfir⟩ := outputStep_keeps { s with moves := ms }
    exact ⟨hcfg, hsat, hblk, hiir, hcic, hfir⟩
  case evicted => constructor <;> simp
  all_goals exact ⟨rfl, rfl, rfl, rfl, rfl, rfl⟩

theorem Stepped.cfg_eq {s t : State} (h : Stepped s t) : t.cfg = s.cfg := by
  obtain ⟨i, ws, ms, he⟩ | hk := h.command_or_kept
  · exact he.cfg_eq
  · exact hk.cfg

/-- Settles O57: no agent's step writes the configuration. -/
theorem configurationIsFixed : Obligations.ConfigurationIsFixed :=
  fun _ _ h => (step_next h).cfg_eq

end Sys2Proof.Machine
end

section
/-! The counters never decrease (R27). -/

namespace Sys2Proof.Machine

open Sys2Proof

theorem le_iirRun_satCnt (c : Cfg) (u : Iir) (sat : Word) (xs : List Sample) :
    sat.toNat ≤ (iirRun c u sat xs).2.2.toNat := by
  induction xs generalizing u sat with
  | nil => exact Nat.le_refl _
  | cons x xs ih => exact (le_countIf _ sat).trans (ih _ _)

theorem le_firRun_satCnt (c : Cfg) (f : Fir) (sat : Word) (xs : List Sample) :
    sat.toNat ≤ (firRun c f sat xs).2.2.toNat := by
  induction xs generalizing f sat with
  | nil => exact Nat.le_refl _
  | cons x xs ih => exact (le_countIf _ sat).trans (ih _ _)

theorem Effected.satCnt_le {i : Instr} {s t : State} (h : Effected i s t) : s.satCnt.toNat ≤ t.satCnt.toNat := by
  obtain he | ⟨xs, he⟩ | ⟨xs, he⟩ := h.satCnt_cases <;> rw [he]
  · exact le_iirRun_satCnt _ _ _ _
  · exact le_firRun_satCnt _ _ _ _

theorem Stepped.satCnt_le {s t : State} (h : Stepped s t) : s.satCnt.toNat ≤ t.satCnt.toNat := by
  obtain ⟨i, ws, ms, he⟩ | hk := h.command_or_kept
  · exact he.satCnt_le
  · rw [hk.satCnt]

/-- The event counts in both of its counters, upwards (R125). -/
theorem outputStep_counters_le (s : State) :
    s.underrunCnt.toNat ≤ (outputStep s).underrunCnt.toNat
      ∧ s.overrunCnt.toNat ≤ (outputStep s).overrunCnt.toNat := by
  obtain ⟨_, h⟩ | ⟨_, _, h⟩ | ⟨_, _, h⟩ := outputStep_cases s <;> rw [h]
  · exact ⟨le_countIf _ _, le_countIf _ _⟩
  · exact ⟨le_countIf _ _, le_countIf _ _⟩
  · exact ⟨Nat.le_refl _, Nat.le_refl _⟩

/-- Of the steps only the output engine's writes the underrun and overrun counters. -/
theorem Stepped.event_counters_le {s t : State} (h : Stepped s t) :
    s.underrunCnt.toNat ≤ t.underrunCnt.toNat ∧ s.overrunCnt.toNat ≤ t.overrunCnt.toNat := by
  cases h
  case command i ws ms _ _ h => rw [h.underrunCnt_eq, h.overrunCnt_eq]; exact ⟨Nat.le_refl _, Nat.le_refl _⟩
  all_goals subst t
  case output ms _ _ => exact outputStep_counters_le { s with moves := ms }
  case evicted => simp
  all_goals exact ⟨Nat.le_refl _, Nat.le_refl _⟩

/-- Settles O56: the event counts up, a run of a unit counts up, and nothing else writes a counter. -/
theorem countersNeverDecrease : Obligations.CountersNeverDecrease := by
  intro s t h
  obtain ⟨hu, ho⟩ := (step_next h).event_counters_le
  exact ⟨hu, ho, (step_next h).satCnt_le⟩

end Sys2Proof.Machine
end

section
/-! The IIR invariant: the bound on the state and the coefficients once computed (R33, R147, R149, R150, R158). -/

namespace Sys2Proof.Machine

open Sys2Proof

theorem admits_iff {c : Cfg} : admits c = true ↔
    admitsSizes c = true ∧ admitsRegions c = true ∧ admitsIir c = true ∧ admitsCic c = true ∧ admitsFir c = true := by
  simp [admits, and_assoc]

/-- A Q1.31 feedback coefficient: between `1` and `2^31 - 1` (R149, R150). -/
def FeedbackInRange (fb : Int) : Prop := 1 ≤ fb ∧ fb ≤ 2147483647

theorem coefRef_inRange (fs fc : Nat) : FeedbackInRange (coefRef fs fc) := by
  simp only [FeedbackInRange, coefRef, coefClamp]
  omega

theorem mem_of_coefTableValue {ps : List (Nat × Int)} {fc : Nat} {v : Int} (h : coefTableValue ps fc = some v) :
    (fc, v) ∈ ps := by
  induction ps with
  | nil => cases h
  | cons p ps ih =>
    obtain ⟨fc', v'⟩ := p
    simp only [coefTableValue] at h
    split at h
    · next hfc => simp_all
    · exact List.mem_cons_of_mem _ (ih h)

theorem coefDevOk_inRange {fs : Nat} {p : Nat × Int} (h : coefDevOk fs p = true) : FeedbackInRange p.2 := by
  simp only [coefDevOk, Bool.and_eq_true, decide_eq_true_eq] at h
  obtain ⟨⟨⟨⟨_, hlo⟩, hhi⟩, _⟩, _⟩ := h
  exact ⟨hlo, hhi⟩

theorem admitsIir_iff {c : Cfg} : admitsIir c = true ↔
    cutoffLegal c c.iirCutoffReset = true ∧ ∀ p ∈ c.coefDev, coefDevOk c.fs p = true := by
  simp only [admitsIir, cutoffLegal, Bool.and_eq_true, List.all_eq_true]

theorem coefFn_inRange {c : Cfg} (hc : admitsIir c = true) (fc : Nat) : FeedbackInRange (coefFn c fc) := by
  obtain ⟨_, hdev⟩ := admitsIir_iff.1 hc
  unfold coefFn
  split
  · next v hv => exact coefDevOk_inRange (hdev _ (mem_of_coefTableValue hv))
  · exact coefRef_inRange _ _

/-- The coefficients once computed: a feedback coefficient in range and its complement (R33, R147). -/
structure CoefsOk (u : Iir) : Prop where
  fb_inRange : FeedbackInRange u.fb.toInt
  sum : u.ff.toInt + u.fb.toInt = 2147483648

/-- The invariant of R33 on the unit itself. -/
structure IirUnitOk (c : Cfg) (u : Iir) : Prop where
  y_le : u.y.toInt ≤ 2147418112
  cutoff_legal : cutoffLegal c u.cutoff = true
  coefs : u.cutoffCached = 0#32 ∨ CoefsOk u

theorem iirOk_iff {s : State} : iirOk s = true ↔ IirUnitOk s.cfg s.iir := by
  simp only [iirOk, Bool.and_eq_true, Bool.or_eq_true, decide_eq_true_eq, beq_iff_eq]
  constructor
  · rintro ⟨⟨hy, hl⟩, hc⟩
    exact ⟨hy, hl, hc.imp_right fun ⟨h1, h2, h3⟩ => ⟨⟨h1, h2⟩, h3⟩⟩
  · rintro ⟨hy, hl, hc⟩
    exact ⟨⟨hy, hl⟩, hc.imp_right fun ⟨⟨h1, h2⟩, h3⟩ => ⟨h1, h2, h3⟩⟩

theorem cutoffLegal_ne_zero {c : Cfg} {v : Word} (h : cutoffLegal c v = true) : v ≠ 0#32 := by
  rintro rfl
  simp [cutoffLegal] at h

/-- A legal cutoff's coefficients are in force after the recompute: it computes them, or the cached cutoff is the
legal one and so not 0 (R147). -/
theorem iirRecompute_coefsOk {c : Cfg} {u : Iir} (hc : admitsIir c = true) (h : IirUnitOk c u) :
    CoefsOk (iirRecompute c u) := by
  unfold iirRecompute
  split
  · next heq =>
    exact h.coefs.resolve_left fun hz => cutoffLegal_ne_zero h.cutoff_legal (heq.trans hz)
  · obtain ⟨h1, h2⟩ := coefFn_inRange hc u.cutoff.toNat
    have hfb := word32_toInt (by omega) h2
    have hff : (word32 (2147483648 - coefFn c u.cutoff.toNat)).toInt = 2147483648 - coefFn c u.cutoff.toNat :=
      word32_toInt (by omega) (by omega)
    exact ⟨by rw [hfb]; exact ⟨h1, h2⟩, by rw [hfb, hff]; omega⟩

@[simp] theorem iirRecompute_y (c : Cfg) (u : Iir) : (iirRecompute c u).y = u.y := by
  unfold iirRecompute; split <;> rfl

@[simp] theorem iirRecompute_cutoff (c : Cfg) (u : Iir) : (iirRecompute c u).cutoff = u.cutoff := by
  unfold iirRecompute; split <;> rfl

/-- R158: the weights `ff` and `fb` sum to `2^31`, so the accumulator is a weighted mean of `2^16 * x` and `y`, and
rounding keeps it in their common range. -/
theorem iirNextY_inRange {x y fb ff : Int} (hx1 : -32768 ≤ x) (hx2 : x ≤ 32767) (hy1 : -2147483648 ≤ y)
    (hy2 : y ≤ 2147418112) (hfb : FeedbackInRange fb) (hsum : ff + fb = 2147483648) :
    -2147483648 ≤ iirNextY x y fb ff ∧ iirNextY x y fb ff ≤ 2147418112 := by
  obtain ⟨hf1, hf2⟩ := hfb
  have hff : 0 ≤ ff := by omega
  have hxl : ff * -32768 ≤ ff * x := mul_le_mul_of_nonneg_left hx1 hff
  have hxu : ff * x ≤ ff * 32767 := mul_le_mul_of_nonneg_left hx2 hff
  have hyl : fb * -2147483648 ≤ fb * y := mul_le_mul_of_nonneg_left hy1 (by omega)
  have hyu : fb * y ≤ fb * 2147418112 := mul_le_mul_of_nonneg_left hy2 (by omega)
  simp only [iirNextY, asr]
  omega

theorem iirY_inRange {u : Iir} (x : Sample) (hy : u.y.toInt ≤ 2147418112) (hk : CoefsOk u) :
    -2147483648 ≤ iirY u x ∧ iirY u x ≤ 2147418112 :=
  iirNextY_inRange x.le_toInt (by have := x.toInt_lt; omega) u.y.le_toInt hy hk.fb_inRange hk.sum

/-- One sample keeps the bound on `y` (R33, R152). -/
theorem iirStep_y_le {c : Cfg} {u : Iir} {sat : Word} (x : Sample) (hy : u.y.toInt ≤ 2147418112) (hk : CoefsOk u) :
    (iirStep c u sat x).2.1.y.toInt ≤ 2147418112 := by
  obtain ⟨h1, h2⟩ := iirY_inRange x hy hk
  exact (word32_toInt h1 (by omega)).trans_le h2

/-- A run keeps the invariant once the coefficients are computed (R33). -/
theorem iirRun_unitOk {c : Cfg} {u : Iir} {sat : Word} (xs : List Sample) (hy : u.y.toInt ≤ 2147418112)
    (hl : cutoffLegal c u.cutoff = true) (hk : CoefsOk u) : IirUnitOk c (iirRun c u sat xs).2.1 := by
  induction xs generalizing u sat with
  | nil => exact ⟨hy, hl, .inr hk⟩
  | cons x xs ih => exact ih (iirStep_y_le x hy hk) hl ⟨hk.fb_inRange, hk.sum⟩

theorem iirRest_y_le (u : Iir) : (iirRest u).y.toInt ≤ 2147418112 := by
  simp [iirRest]

/-- A command keeps the invariant of R33. -/
theorem Effected.iirUnitOk {i : Instr} {s t : State} (h : Effected i s t) (hc : admitsIir s.cfg = true)
    (hs : IirUnitOk s.cfg s.iir) : IirUnitOk s.cfg t.iir := by
  obtain he | he | ⟨m, he⟩ | ⟨v, hv, he⟩ | ⟨xs, he⟩ := h.iir_cases <;> rw [he]
  · exact hs
  · exact ⟨iirRest_y_le s.iir, hs.cutoff_legal, .inl rfl⟩
  · exact ⟨hs.y_le, hs.cutoff_legal, hs.coefs.imp_right fun hk => ⟨hk.fb_inRange, hk.sum⟩⟩
  · exact ⟨hs.y_le, hv, hs.coefs.imp_right fun hk => ⟨hk.fb_inRange, hk.sum⟩⟩
  · exact iirRun_unitOk xs (by simpa using hs.y_le) (by simpa using hs.cutoff_legal) (iirRecompute_coefsOk hc hs)

/-- Settles O31: commands keep the unit's invariant, every other step keeps the unit. -/
theorem stepKeepsIirInvariant : Obligations.StepKeepsIirInvariant := by
  intro s t hs h
  obtain ⟨_, _, hc, _, _⟩ := admits_iff.1 (step_admits h)
  rw [iirOk_iff] at hs ⊢
  rw [(step_next h).cfg_eq]
  obtain ⟨i, ws, ms, he⟩ | hk := (step_next h).command_or_kept
  · exact he.iirUnitOk hc hs
  · rwa [hk.iir]

end Sys2Proof.Machine
end

section
/-! The shapes of the block buffers, the CIC arrays and the FIR history (R23, R30, R34, R35). -/

namespace Sys2Proof.Machine

open Sys2Proof

/-- The buffer file has `nblk` buffers of `n` cells (R30). -/
structure BlkShaped (nblk n : Nat) (blk : List (List (Option Sample))) : Prop where
  count : blk.length = nblk
  size : ∀ cells ∈ blk, cells.length = n

/-- The four arrays have `k` words each (R34). -/
structure CicShaped (k : Nat) (q : Cic) : Prop where
  ic : q.ic.length = k
  ii : q.ii.length = k
  di : q.di.length = k
  dc : q.dc.length = k

/-- The history has `l` samples and the head is one of them (R35). -/
structure FirShaped (l : Nat) (f : Fir) : Prop where
  hist : f.hist.length = l
  head : f.head < l

theorem blocksShaped_iff {s : State} : blocksShaped s = true ↔ BlkShaped s.cfg.nblk s.cfg.n s.blk := by
  simp only [blocksShaped, Bool.and_eq_true, beq_iff_eq, List.all_eq_true]
  exact ⟨fun ⟨h1, h2⟩ => ⟨h1, h2⟩, fun ⟨h1, h2⟩ => ⟨h1, h2⟩⟩

theorem unitsShaped_iff {s : State} :
    unitsShaped s = true ↔ CicShaped s.cfg.cicK s.cic ∧ FirShaped s.cfg.firL s.fir := by
  simp only [unitsShaped, Bool.and_eq_true, beq_iff_eq, decide_eq_true_eq]
  constructor
  · rintro ⟨⟨⟨⟨⟨h1, h2⟩, h3⟩, h4⟩, h5⟩, h6⟩
    exact ⟨⟨h1, h2, h3, h4⟩, h5, h6⟩
  · rintro ⟨⟨h1, h2, h3, h4⟩, h5, h6⟩
    exact ⟨⟨⟨⟨⟨h1, h2⟩, h3⟩, h4⟩, h5⟩, h6⟩

theorem blockCells_length {s : State} {b : Nat} (h : BlkShaped s.cfg.nblk s.cfg.n s.blk) (hb : b < s.cfg.nblk) :
    (blockCells s b).length = s.cfg.n := by
  rw [blockCells, List.getD_eq_getElem _ _ (h.count ▸ hb)]
  exact h.size _ (List.getElem_mem _)

theorem BlkShaped.set {nblk n : Nat} {blk : List (List (Option Sample))} (h : BlkShaped nblk n blk) (b : Nat)
    {cells : List (Option Sample)} (hn : cells.length = n) : BlkShaped nblk n (blk.set b cells) where
  count := by rw [List.length_set, h.count]
  size ds hds := by
    obtain hd | rfl := List.mem_or_eq_of_mem_set hds
    · exact h.size ds hd
    · exact hn

theorem Effected.blkShaped {i : Instr} {s t : State} (h : Effected i s t)
    (hs : BlkShaped s.cfg.nblk s.cfg.n s.blk) : BlkShaped s.cfg.nblk s.cfg.n t.blk := by
  obtain he | ⟨b, cells, he, hn | ⟨src, hsrc, hn⟩⟩ := h.blk_cases <;> rw [he]
  · exact hs
  · exact hs.set b hn
  · exact hs.set b (hn.trans (blockCells_length hs hsrc))

theorem cicRest_shaped (c : Cfg) : CicShaped c.cicK (cicRest c) := by constructor <;> simp [cicRest]

theorem CicShaped.cicSlot {k : Nat} {q : Cic} (h : CicShaped k q) (c : Cfg) (u : Word) :
    CicShaped k (cicSlot c q u).1 where
  ic := h.ic
  ii := (integrators_length _ _).trans h.ii
  di := (integrators_length _ _).trans h.di
  dc := h.dc

theorem CicShaped.cicSlots {k : Nat} {q : Cic} (h : CicShaped k q) (c : Cfg) (u : Word) (m : Nat) :
    CicShaped k (cicSlots c q u m).1 := by
  induction m generalizing q u with
  | zero => exact h.cicSlot c u
  | succ m ih => exact ih (h.cicSlot c u) _

theorem CicShaped.cicStep {k : Nat} {q : Cic} (h : CicShaped k q) (c : Cfg) (x : Sample) :
    CicShaped k (cicStep c q x).2 := by
  have hups : CicShaped k { q with ic := (combs q.ic (x.signExtend 32)).1 } :=
    ⟨(combs_length _ _).trans h.ic, h.ii, h.di, h.dc⟩
  obtain ⟨hic, hii, hdi, hdc⟩ := hups.cicSlots c (combs q.ic (x.signExtend 32)).2 (2 ^ c.cicR - 1)
  exact ⟨hic, hii, hdi, (combs_length _ _).trans hdc⟩

theorem CicShaped.cicRun {k : Nat} {q : Cic} (h : CicShaped k q) (c : Cfg) (xs : List Sample) :
    CicShaped k (cicRun c q xs).2 := by
  induction xs generalizing q with
  | nil => exact h
  | cons x xs ih => exact ih (h.cicStep c x)

theorem Effected.cicShaped {i : Instr} {s t : State} (h : Effected i s t) (hs : CicShaped s.cfg.cicK s.cic) :
    CicShaped s.cfg.cicK t.cic := by
  obtain he | he | ⟨xs, he⟩ := h.cic_cases <;> rw [he]
  · exact hs
  · exact cicRest_shaped s.cfg
  · exact hs.cicRun s.cfg xs

theorem firRest_shaped {c : Cfg} (hl : 0 < c.firL) : FirShaped c.firL (firRest c) := ⟨by simp [firRest], hl⟩

theorem FirShaped.firRun {c : Cfg} {f : Fir} (h : FirShaped c.firL f) (sat : Word) (xs : List Sample) :
    FirShaped c.firL (firRun c f sat xs).2.1 := by
  induction xs generalizing f sat with
  | nil => exact h
  | cons x xs ih =>
    exact ih ⟨List.length_set.trans h.hist, Nat.mod_lt _ (Nat.zero_lt_of_lt h.head)⟩ _

theorem Effected.firShaped {i : Instr} {s t : State} (h : Effected i s t) (hs : FirShaped s.cfg.firL s.fir) :
    FirShaped s.cfg.firL t.fir := by
  obtain he | he | ⟨xs, he⟩ := h.fir_cases <;> rw [he]
  · exact hs
  · exact firRest_shaped (Nat.zero_lt_of_lt hs.head)
  · exact hs.firRun s.satCnt xs

/-- Settles O58: a command replaces a buffer by one of its size and keeps the lengths of the units' arrays; every
other step keeps them all. -/
theorem stepKeepsShapes : Obligations.StepKeepsShapes := by
  intro s t hb hu h
  rw [blocksShaped_iff] at hb ⊢
  rw [unitsShaped_iff] at hu ⊢
  obtain ⟨hc, hf⟩ := hu
  rw [(step_next h).cfg_eq]
  obtain ⟨i, ws, ms, he⟩ | hk := (step_next h).command_or_kept
  · exact ⟨he.blkShaped hb, he.cicShaped hc, he.firShaped hf⟩
  · rw [hk.blk, hk.cic, hk.fir]
    exact ⟨hb, hc, hf⟩

end Sys2Proof.Machine
end

section
/-! The errors of the CSR commands (R40, R43, R217, R218). -/

namespace Sys2Proof.Machine

open Sys2Proof

/-- The assigned CSR numbers (R40). -/
theorem csrOfNumber_isSome_iff {n : Nat} : (csrOfNumber n).isSome = true ↔
    n ∈ [0x01, 0x02, 0x03, 0x04, 0x05, 0x06, 0x07, 0x10, 0x11, 0x12, 0x13, 0x14, 0x15, 0x16,
      0x20, 0x30, 0x31, 0x32] := by
  unfold csrOfNumber
  split <;> simp_all

/-- The number of a CSR is the one that selects it. -/
theorem csrNumber_of_csrOfNumber {n : Nat} {c : Csr} (h : csrOfNumber n = some c) : csrNumber c = n := by
  unfold csrOfNumber at h
  split at h <;> cases h <;> rfl

/-- Every CSR but ERR, IIR_CTRL and IIR_CUTOFF is read-only (R217, R218). -/
theorem csrWrite_readOnly {c : Csr} (n : Nat) (v : Word) (s : State) (hc : csrNumber c ∉ [0x02, 0x10, 0x11]) :
    csrWrite n v s c = raise .eRo (wordOfNat n) s := by
  cases c
  case err | iirCtrl | iirCutoff => exact absurd (by decide) hc
  all_goals rfl

theorem withCsr_of_none {n : Nat} {s : State} {k : Csr → Result} (h : csrOfNumber n = none) :
    withCsr n s k = raise .eCsr (wordOfNat n) s := by
  simp only [withCsr, h]

theorem withCsr_of_some {n : Nat} {s : State} {k : Csr → Result} {c : Csr} (h : csrOfNumber n = some c) :
    withCsr n s k = k c := by
  simp only [withCsr, h]

/-- A cutoff that is not legal is E_RANGE (R43, R218). -/
theorem csrWrite_cutoff_illegal (n : Nat) {v : Word} {s : State} (h : cutoffLegal s.cfg v = false) :
    csrWrite n v s .iirCutoff = raise .eRange v s := by
  simp [csrWrite, h]

theorem cutoffLegal_eq_false_iff {c : Cfg} {v : Word} :
    cutoffLegal c v = false ↔ v.toNat < 1 ∨ c.fs / 2 < v.toNat := by
  simp only [cutoffLegal, Bool.and_eq_false_iff, decide_eq_false_iff_not, not_le]

/-- Settles O47: the number's look-up fails, or finds a read-only CSR, or finds the cutoff with a value out of range. -/
theorem csrErrors : Obligations.CsrErrors := by
  intro n v s raises assigned
  refine ⟨fun hn => ?_, fun hn hw => ?_, fun hv => ?_⟩
  · have hnone : csrOfNumber n = none := by
      rwa [← csrOfNumber_isSome_iff, Bool.not_eq_true, Option.isSome_eq_false_iff, Option.isNone_iff_eq_none] at hn
    exact ⟨withCsr_of_none hnone, withCsr_of_none hnone⟩
  · obtain ⟨c, hc⟩ := Option.isSome_iff_exists.1 (csrOfNumber_isSome_iff.2 hn)
    exact (withCsr_of_some hc).trans (csrWrite_readOnly n v s (by rwa [csrNumber_of_csrOfNumber hc]))
  · exact csrWrite_cutoff_illegal 0x11 (cutoffLegal_eq_false_iff.2 hv)

end Sys2Proof.Machine
end

section
/-! The fault F_UNWRITTEN (R31, R245): the operands' checks when they pass, and the read that faults. -/

namespace Sys2Proof.Machine

open Sys2Proof

theorem withBlock_of_lt {b : Nat} {s : State} (k : Result) (hb : b < s.cfg.nblk) : withBlock b s k = k :=
  if_pos hb

theorem withIdx_of_lt {i : Nat} {s : State} (k : Result) (hi : i < s.cfg.n) : withIdx i s k = k :=
  if_pos hi

theorem withSamples_of_lowestUnwritten {s : State} {b i : Nat} (k : List Sample → Result)
    (h : lowestUnwritten s b i) : withSamples b s k = .fault (.unwritten b i) := by
  simp only [withSamples, readCells_error.2 h]

theorem withCell_of_none {s : State} {b i : Nat} (k : Sample → Result) (h : blockCell s b i = none) :
    withCell b i s k = .fault (.unwritten b i) := by
  simp only [withCell, h]

/-- Settles O51: with the operands' checks passed, the command's own read is what answers. -/
theorem unwrittenCellFaults : Obligations.UnwrittenCellFaults := by
  intro b d k s hb
  refine ⟨fun hk hs => ?_, fun hk hd => ?_, fun hi hk => ?_⟩
  · simp only [exec, execOutPutBlock, withBlock_of_lt _ hb, if_neg hs, withSamples_of_lowestUnwritten _ hk]
  · simp only [exec, execIirProcess, execCicProcess, execFirProcess, withBlock_of_lt _ hb, withBlock_of_lt _ hd,
      withSamples_of_lowestUnwritten _ hk, and_self]
  · simp only [exec, execBlkRead, withBlock_of_lt _ hb, withIdx_of_lt _ hi, withCell_of_none _ hk]

end Sys2Proof.Machine
end

section
/-! The invariants at reset (R23, R33, R128, R271). -/

namespace Sys2Proof.Machine

open Sys2Proof

theorem resetOf_cacheOk (c : Cfg) : cacheOk (State.resetOf c) = true := by
  simp [cacheOk, cacheWf, State.resetOf]

theorem resetOf_blkShaped (c : Cfg) : BlkShaped c.nblk c.n (State.resetOf c).blk where
  count := List.length_replicate
  size cells hc := by rw [List.eq_of_mem_replicate hc, List.length_replicate]

theorem resetOf_adaptersOk {c : Cfg} (hc : admitsSizes c = true) : adaptersOk (State.resetOf c) = true := by
  have hn : 1 ≤ c.n := by simp_all [admitsSizes]
  simpa [adaptersOk, State.resetOf] using Nat.zero_lt_of_lt hn

theorem resetOf_iirUnitOk {c : Cfg} (hc : admitsIir c = true) : IirUnitOk c (State.resetOf c).iir where
  y_le := by simp [State.resetOf]
  cutoff_legal := (admitsIir_iff.1 hc).1
  coefs := .inl rfl

/-- Settles O2: memory and cache are empty, the arrays have the configuration's lengths, both engines stand at 0,
and the cutoff is the admitted one with nothing computed yet. -/
theorem resetMeetsInvariants : Obligations.ResetMeetsInvariants := by
  intro c hc
  obtain ⟨hsizes, _, hiir, _, hfir⟩ := admits_iff.1 hc
  have hl : 0 < c.firL := by simp_all [admitsFir, Nat.succ_le_iff]
  exact ⟨rfl, resetOf_cacheOk c, blocksShaped_iff.2 (resetOf_blkShaped c),
    unitsShaped_iff.2 ⟨cicRest_shaped c, firRest_shaped hl⟩, resetOf_adaptersOk hsizes,
    iirOk_iff.2 (resetOf_iirUnitOk hiir), Nat.zero_le 7⟩

end Sys2Proof.Machine
end

section
/-! What a step changes of region memory (R61, R62, R73, R111, R114, R118, R121), and its canonical form. -/

namespace Sys2Proof.Machine

open Sys2Proof

/-- What a command does to region memory: it leaves it, zeroes a region, or is OUT_PUT_BLOCK's copy. -/
theorem Effected.mem_cases {i : Instr} {s t : State} (h : Effected i s t) :
    t.mem = s.mem
      ∨ t.mem = memZero s.mem s.cfg.inBase (2 * inHalfBytes s.cfg)
      ∨ (s.outState = .uninit ∧ t.mem = memZero s.mem s.cfg.outBase (2 * outHalfBytes s.cfg))
      ∨ ∃ src xs, src < s.cfg.nblk ∧ blockCells s src = xs.map some ∧ t.mem = (putBlock s.outTarget xs s).mem := by
  cases h <;> subst t
  case inInit => exact .inr (.inl (by simp))
  case outInit _ hs => exact .inr (.inr (.inl ⟨hs, by simp⟩))
  case outPutBlock src xs _ hsrc _ hx => exact .inr (.inr (.inr ⟨src, xs, hsrc, hx, rfl⟩))
  all_goals exact .inl (by simp)

theorem Effected.mem_wf {i : Instr} {s t : State} (h : Effected i s t) (hs : Memory.wf s.mem = true) :
    Memory.wf t.mem = true := by
  obtain he | he | ⟨_, he⟩ | ⟨_, xs, _, _, he⟩ := h.mem_cases <;> rw [he]
  · exact hs
  · exact memZero_wf _ _ _ hs
  · exact memZero_wf _ _ _ hs
  · exact putBlock_mem_wf _ xs s hs

/-- The output engine only reads region memory (R124). -/
@[simp] theorem outputStep_mem (s : State) : (outputStep s).mem = s.mem := by
  obtain ⟨_, h⟩ | ⟨_, _, h⟩ | ⟨_, _, h⟩ := outputStep_cases s <;> rw [h] <;> simp

/-- Settles O12: memory is changed by commands, by the input engine's element and by an eviction's write-back, and
each of them writes byte by byte. -/
theorem stepKeepsMemoryCanonical : Obligations.StepKeepsMemoryCanonical := by
  intro s t hs h
  cases step_next h
  case command i ws ms _ _ he => exact he.mem_wf hs
  all_goals subst t
  case input raw ms _ => exact memWrite_wf _ _ _ _ hs
  case output ms _ _ => simpa using hs
  case evicted la ms => exact evictLine_mem_wf _ la hs
  all_goals exact hs

end Sys2Proof.Machine
end

section
/-! What a step changes of the cache (R70 to R75): a host access puts a line, every other change drops lines. -/

namespace Sys2Proof.Machine

open Sys2Proof

/-- Invalidating drops lines (R74). -/
theorem invalidate_cache_eq_filter (s : State) (lo hi : Nat) :
    ∃ p : CacheLine → Bool, (invalidate s lo hi).cache = s.cache.filter p := by
  rw [invalidate_cache]
  split
  · exact ⟨_, rfl⟩
  · exact ⟨fun _ => true, by simp⟩

/-- Evicting drops a line (R73). -/
theorem evictLine_cache_eq_filter (s : State) (la : Nat) :
    ∃ p : CacheLine → Bool, (evictLine s la).cache = s.cache.filter p := by
  unfold evictLine
  split
  · exact ⟨fun _ => true, by simp⟩
  · exact ⟨_, rfl⟩

/-- What a command does to the cache: it drops lines, or is IN_GET_BLOCK's reads or OUT_PUT_BLOCK's copy. -/
theorem Effected.cache_cases {i : Instr} {s t : State} (h : Effected i s t) :
    (∃ p, t.cache = s.cache.filter p)
      ∨ (∃ dst, t.cache = (getBlock dst s).cache)
      ∨ ∃ src xs, src < s.cfg.nblk ∧ blockCells s src = xs.map some
          ∧ t.cache = (putBlock s.outTarget xs s).cache := by
  cases h <;> subst t
  case inInit => exact .inl (invalidate_cache_eq_filter _ _ _)
  case outInit => exact .inl (invalidate_cache_eq_filter _ _ _)
  case inGetBlock dst _ _ _ => exact .inr (.inl ⟨dst, rfl⟩)
  case outPutBlock src xs _ hsrc _ hx => exact .inr (.inr ⟨src, xs, hsrc, hx, rfl⟩)
  all_goals exact .inl ⟨fun _ => true, by simp⟩

/-- The engines do not go through the cache (R70, R124). -/
@[simp] theorem outputStep_cache (s : State) : (outputStep s).cache = s.cache := by
  obtain ⟨_, h⟩ | ⟨_, _, h⟩ | ⟨_, _, h⟩ := outputStep_cases s <;> rw [h] <;> simp

/-- A step runs a command, its words and its turn taken, or does no more to the cache than drop lines. -/
theorem Stepped.command_or_cache_filter {s t : State} (h : Stepped s t) :
    (∃ i ws ms, Effected i { s with inbox := ws, moves := ms } t) ∨ ∃ p, t.cache = s.cache.filter p := by
  cases h
  case command i ws ms _ _ h => exact .inl ⟨i, ws, ms, h⟩
  all_goals subst t; right
  case evicted la ms => exact evictLine_cache_eq_filter { s with moves := ms } la
  all_goals exact ⟨fun _ => true, by simp [rejectWord]⟩

/-- What the reading of a half does line by line, the whole reading does. -/
theorem touchInHalf_induction {P : State → Prop} (hline : ∀ t a, P t → P (touchLine t a)) {s : State} (h : Half)
    (hs : P s) : P (touchInHalf s h) :=
  List.foldlRecOn _ _ hs fun _ ht _ _ => hline _ _ (hline _ _ ht)

/-- What one byte written among a frame's bytes keeps, the frame keeps. -/
theorem writeFrame_induction {P : State → Prop} {s : State} {a : Nat}
    (hbyte : ∀ t b v, a ≤ b → b < a + 2 * s.cfg.outCh → P t → P (hostWriteByte t b v)) (x : Sample) (hs : P s) :
    P (writeFrame s a x) := by
  refine List.foldlRecOn _ _ hs fun t ht c hc => ?_
  have hc : c < s.cfg.outCh := List.mem_range.1 hc
  exact hbyte _ _ _ (by omega) (by omega) (hbyte _ _ _ (by omega) (by omega) ht)

/-- What one byte written among the frames' bytes keeps, the whole copy keeps (R121, R122). -/
theorem writeFrames_induction {P : State → Prop} {c : Cfg} {xs : List Sample} {a : Nat}
    (hbyte : ∀ t b v, t.cfg = c → a ≤ b → b < a + 2 * c.outCh * xs.length → P t → P (hostWriteByte t b v))
    {s : State} (hc : s.cfg = c) (hs : P s) : P (writeFrames s a xs) := by
  induction xs generalizing s a with
  | nil => exact hs
  | cons x xs ih =>
    have hlen : 2 * c.outCh * (x :: xs).length = 2 * c.outCh + 2 * c.outCh * xs.length := by
      rw [List.length_cons, Nat.mul_succ, Nat.add_comm]
    rw [hlen] at hbyte
    rw [writeFrames, hc]
    have hframe : (writeFrame s a x).cfg = c ∧ P (writeFrame s a x) :=
      writeFrame_induction (P := fun t => t.cfg = c ∧ P t)
        (fun t b v h1 h2 ht => ⟨by simp [ht.1], hbyte t b v ht.1 h1 (by rw [hc] at h2; omega) ht.2⟩) x ⟨hc, hs⟩
    exact ih (fun t b v htc h1 h2 => hbyte t b v htc (by omega) (by omega)) hframe.1 hframe.2

end Sys2Proof.Machine
end

section
/-! The cache's form is kept (R70 to R75). -/

namespace Sys2Proof.Machine

open Sys2Proof

/-- The lines rise by number, hold CACHE_LINE bytes each, and are none without a cache (R70). -/
structure CacheFormed (c : Cfg) (ls : List CacheLine) : Prop where
  rises : cacheWf ls = true
  size : ∀ l ∈ ls, l.data.length = c.cacheLine
  absent : c.cachePresent = false → ls = []

theorem cacheOk_iff {s : State} : cacheOk s = true ↔ CacheFormed s.cfg s.cache := by
  have habsent : (s.cfg.cachePresent || s.cache.isEmpty) = true ↔ (s.cfg.cachePresent = false → s.cache = []) := by
    cases s.cfg.cachePresent <;> simp
  simp only [cacheOk, Bool.and_eq_true, List.all_eq_true, beq_iff_eq, habsent]
  exact ⟨fun ⟨⟨h1, h2⟩, h3⟩ => ⟨h1, h2, h3⟩, fun ⟨h1, h2, h3⟩ => ⟨⟨h1, h2⟩, h3⟩⟩

theorem CacheFormed.filter {c : Cfg} {ls : List CacheLine} (h : CacheFormed c ls) (p : CacheLine → Bool) :
    CacheFormed c (ls.filter p) where
  rises := filter_wf p ls h.rises
  size l hl := h.size l (List.mem_filter.1 hl).1
  absent hp := by rw [h.absent hp, List.filter_nil]

theorem CacheFormed.put {c : Cfg} {ls : List CacheLine} (h : CacheFormed c ls) (hp : c.cachePresent = true)
    {k : CacheLine} (hk : k.data.length = c.cacheLine) : CacheFormed c (cachePut ls k) where
  rises := cachePut_wf ls k h.rises
  size l hl := by
    obtain rfl | hl := mem_cachePut hl
    · exact hk
    · exact h.size l hl
  absent hp' := by rw [hp] at hp'; cases hp'

theorem seenLine_cases (s : State) (a : Nat) :
    seenLine s a ∈ s.cache ∨ seenLine s a = filledLine s (lineOf s.cfg a) := by
  unfold seenLine
  cases h : cacheFind s.cache (lineOf s.cfg a) with
  | none => exact .inr rfl
  | some l => exact .inl (cacheFind_mem h)

theorem CacheFormed.seenLine_length {s : State} (h : CacheFormed s.cfg s.cache) (a : Nat) :
    (seenLine s a).data.length = s.cfg.cacheLine := by
  obtain hl | hl := seenLine_cases s a
  · exact h.size _ hl
  · rw [hl]; exact memBytes_length _ _ _

theorem touchLine_cacheFormed {s : State} (h : CacheFormed s.cfg s.cache) (a : Nat) :
    CacheFormed (touchLine s a).cfg (touchLine s a).cache := by
  rw [touchLine_cfg, touchLine_cache]
  split
  · next hp => exact h.put hp (h.seenLine_length a)
  · exact h

theorem hostWriteByte_cacheFormed {s : State} (h : CacheFormed s.cfg s.cache) (a : Nat) (v : Byte) :
    CacheFormed (hostWriteByte s a v).cfg (hostWriteByte s a v).cache := by
  rw [hostWriteByte_cfg, hostWriteByte_cache]
  split
  · next hp => exact h.put hp (List.length_set.trans (h.seenLine_length a))
  · exact h

theorem invalidate_cacheFormed {s : State} (h : CacheFormed s.cfg s.cache) (lo hi : Nat) :
    CacheFormed s.cfg (invalidate s lo hi).cache := by
  obtain ⟨p, hp⟩ := invalidate_cache_eq_filter s lo hi
  rw [hp]
  exact h.filter p

theorem writeFrames_cacheFormed {s : State} (h : CacheFormed s.cfg s.cache) (a : Nat) (xs : List Sample) :
    CacheFormed s.cfg (writeFrames s a xs).cache := by
  have hw : CacheFormed (writeFrames s a xs).cfg (writeFrames s a xs).cache :=
    writeFrames_induction (P := fun t => CacheFormed t.cfg t.cache)
      (fun _ b v _ _ _ ht => hostWriteByte_cacheFormed ht b v) rfl h
  rwa [writeFrames_cfg] at hw

/-- A line is left by `CleanInvalidate` exactly when its range misses the bytes (R75). -/
theorem cleanInvalidate_cache_eq_filter {s : State} (hp : s.cfg.cachePresent = true) (lo hi : Nat) :
    (cleanInvalidate s lo hi).cache = s.cache.filter (fun l => !lineInRange s.cfg lo hi l) := by
  rw [cleanInvalidate, invalidate_cache, clean_cfg, if_pos hp, clean, if_pos hp]
  induction s.cache with
  | nil => rfl
  | cons l ls ih =>
    cases hl : lineInRange s.cfg lo hi l
    · simp [hl, ih]
    · have hclean : lineInRange s.cfg lo hi { l with dirty := false } = true := hl
      simp [hl, hclean, ih]

/-- With no cache the maintenance operations do nothing (R70). -/
theorem cleanInvalidate_of_absent {s : State} (hp : s.cfg.cachePresent = false) (lo hi : Nat) :
    cleanInvalidate s lo hi = s := by
  simp [cleanInvalidate, invalidate, clean, hp]

theorem cleanInvalidate_cacheFormed {s : State} (h : CacheFormed s.cfg s.cache) (lo hi : Nat) :
    CacheFormed s.cfg (cleanInvalidate s lo hi).cache := by
  cases hp : s.cfg.cachePresent
  · rwa [cleanInvalidate_of_absent hp]
  · rw [cleanInvalidate_cache_eq_filter hp]
    exact h.filter _

theorem getBlock_cache (dst : Nat) (s : State) :
    (getBlock dst s).cache = (touchInHalf (inHalfReady s (inHalf s)) (inHalf s)).cache := rfl

theorem putBlock_cache (h : Half) (xs : List Sample) (s : State) :
    (putBlock h xs s).cache = (cleanInvalidate (writeFrames s (outHalfBase s.cfg h) xs) (outHalfBase s.cfg h)
      (outHalfBase s.cfg h + outHalfBytes s.cfg - 1)).cache := by
  simp [putBlock]

theorem getBlock_cacheFormed {s : State} (h : CacheFormed s.cfg s.cache) (dst : Nat) :
    CacheFormed s.cfg (getBlock dst s).cache := by
  have hready : CacheFormed (inHalfReady s (inHalf s)).cfg (inHalfReady s (inHalf s)).cache := by
    rw [inHalfReady_cfg]; exact invalidate_cacheFormed h _ _
  have ht := touchInHalf_induction (P := fun t => CacheFormed t.cfg t.cache) (fun _ a ht => touchLine_cacheFormed ht a)
    (inHalf s) hready
  rwa [touchInHalf_cfg, inHalfReady_cfg] at ht

theorem putBlock_cacheFormed {s : State} (h : CacheFormed s.cfg s.cache) (half : Half) (xs : List Sample) :
    CacheFormed s.cfg (putBlock half xs s).cache := by
  have hw := cleanInvalidate_cacheFormed (s := writeFrames s (outHalfBase s.cfg half) xs)
    (by rw [writeFrames_cfg]; exact writeFrames_cacheFormed h _ xs) (outHalfBase s.cfg half)
    (outHalfBase s.cfg half + outHalfBytes s.cfg - 1)
  rwa [writeFrames_cfg, ← putBlock_cache] at hw

theorem Effected.cacheFormed {i : Instr} {s t : State} (h : Effected i s t) (hs : CacheFormed s.cfg s.cache) :
    CacheFormed s.cfg t.cache := by
  obtain ⟨p, he⟩ | ⟨dst, he⟩ | ⟨_, xs, _, _, he⟩ := h.cache_cases <;> rw [he]
  · exact hs.filter p
  · exact getBlock_cacheFormed hs dst
  · exact putBlock_cacheFormed hs s.outTarget xs

/-- Settles O13: dropping lines keeps the form, and so does every line a host access puts: it is a valid line, a
filled one, or one of these with a byte replaced. -/
theorem stepKeepsCacheForm : Obligations.StepKeepsCacheForm := by
  intro s t hs h
  rw [cacheOk_iff] at hs ⊢
  rw [(step_next h).cfg_eq]
  obtain ⟨i, ws, ms, he⟩ | ⟨p, he⟩ := (step_next h).command_or_cache_filter
  · exact he.cacheFormed hs
  · rw [he]; exact hs.filter p

end Sys2Proof.Machine
end

section
/-! No line is dirty between steps (R72, R75, R121). -/

namespace Sys2Proof.Machine

open Sys2Proof

/-- No line is dirty. -/
def CacheClean (ls : List CacheLine) : Prop := ∀ l ∈ ls, l.dirty = false

/-- Every dirty line's range meets the bytes `lo .. hi`. -/
def DirtyWithin (c : Cfg) (lo hi : Nat) (ls : List CacheLine) : Prop :=
  ∀ l ∈ ls, l.dirty = true → lineInRange c lo hi l = true

theorem CacheClean.filter {ls : List CacheLine} (h : CacheClean ls) (p : CacheLine → Bool) :
    CacheClean (ls.filter p) :=
  fun l hl => h l (List.mem_filter.1 hl).1

/-- A host read puts a line that was valid, or a filled one, which is clean (R71). -/
theorem touchLine_cacheClean {s : State} (h : CacheClean s.cache) (a : Nat) : CacheClean (touchLine s a).cache := by
  rw [touchLine_cache]
  split
  · intro l hl
    obtain rfl | hl := mem_cachePut hl
    · obtain hv | hf := seenLine_cases s a
      · exact h _ hv
      · rw [hf]; rfl
    · exact h l hl
  · exact h

theorem getBlock_cacheClean {s : State} (h : CacheClean s.cache) (dst : Nat) : CacheClean (getBlock dst s).cache := by
  obtain ⟨p, hp⟩ : ∃ p, (inHalfReady s (inHalf s)).cache = s.cache.filter p := invalidate_cache_eq_filter s _ _
  exact touchInHalf_induction (P := fun t => CacheClean t.cache) (fun _ a ht => touchLine_cacheClean ht a) (inHalf s)
    (hp ▸ h.filter p)

theorem lineInRange_iff {c : Cfg} {lo hi : Nat} {l : CacheLine} :
    lineInRange c lo hi l = true ↔ lineOf c lo ≤ l.la ∧ l.la ≤ lineOf c hi := by
  simp only [lineInRange, Bool.and_eq_true, decide_eq_true_eq]

/-- The line of an address between two others lies between their lines. -/
theorem lineInRange_of_mem {c : Cfg} {lo hi a : Nat} {l : CacheLine} (hl : l.la = lineOf c a) (h1 : lo ≤ a)
    (h2 : a ≤ hi) : lineInRange c lo hi l = true := by
  rw [lineInRange_iff, hl]
  exact ⟨Nat.div_le_div_right h1, Nat.div_le_div_right h2⟩

/-- A host write dirties the line it writes and no other (R72). -/
theorem hostWriteByte_dirtyWithin {s : State} {lo hi a : Nat} (h : DirtyWithin s.cfg lo hi s.cache) (v : Byte)
    (h1 : lo ≤ a) (h2 : a ≤ hi) : DirtyWithin s.cfg lo hi (hostWriteByte s a v).cache := by
  rw [hostWriteByte_cache]
  split
  · intro l hl hd
    obtain rfl | hl := mem_cachePut hl
    · exact lineInRange_of_mem rfl h1 h2
    · exact h l hl hd
  · exact h

/-- The `N` frames of a half fill it exactly (R65, R122). -/
theorem frames_length {c : Cfg} {xs : List Sample} (hx : xs.length = c.n) :
    2 * c.outCh * xs.length = outHalfBytes c := by
  rw [hx, outHalfBytes, Nat.mul_right_comm]

/-- The copy dirties only lines of the half it writes (R121). -/
theorem writeFrames_dirtyWithin {s : State} (h : CacheClean s.cache) (half : Half) {xs : List Sample}
    (hx : xs.length = s.cfg.n) :
    DirtyWithin s.cfg (outHalfBase s.cfg half) (outHalfBase s.cfg half + outHalfBytes s.cfg - 1)
      (writeFrames s (outHalfBase s.cfg half) xs).cache := by
  refine writeFrames_induction (P := fun t => DirtyWithin s.cfg (outHalfBase s.cfg half)
    (outHalfBase s.cfg half + outHalfBytes s.cfg - 1) t.cache) ?_ rfl ?_
  · intro t b v hc h1 h2 ht
    rw [frames_length hx] at h2
    rw [← hc] at ht h1 h2 ⊢
    exact hostWriteByte_dirtyWithin ht v h1 (by omega)
  · intro l hl hd
    rw [h l hl] at hd
    cases hd

/-- `CleanInvalidate` over the dirty lines leaves none (R75). -/
theorem cleanInvalidate_cacheClean {s : State} {lo hi : Nat} (hp : s.cfg.cachePresent = true)
    (h : DirtyWithin s.cfg lo hi s.cache) : CacheClean (cleanInvalidate s lo hi).cache := by
  intro l hl
  rw [cleanInvalidate_cache_eq_filter hp, List.mem_filter] at hl
  obtain ⟨hmem, hout⟩ := hl
  by_contra hd
  simp [h l hmem (by simpa using hd)] at hout

theorem putBlock_cacheClean {s : State} (hf : CacheFormed s.cfg s.cache) (h : CacheClean s.cache) (half : Half)
    {xs : List Sample} (hx : xs.length = s.cfg.n) : CacheClean (putBlock half xs s).cache := by
  cases hp : s.cfg.cachePresent
  · rw [(putBlock_cacheFormed hf half xs).absent hp]
    exact List.forall_mem_nil _
  · rw [putBlock_cache]
    have hw := writeFrames_dirtyWithin h half hx
    rw [← writeFrames_cfg xs s (outHalfBase s.cfg half)] at hp
    exact cleanInvalidate_cacheClean hp (by rwa [writeFrames_cfg])

/-- The samples read from a buffer of the right shape are `N`. -/
theorem BlkShaped.samples_length {s : State} {b : Nat} {xs : List Sample} (h : BlkShaped s.cfg.nblk s.cfg.n s.blk)
    (hb : b < s.cfg.nblk) (hx : blockCells s b = xs.map some) : xs.length = s.cfg.n := by
  rw [← blockCells_length h hb, hx, List.length_map]

theorem Effected.cacheClean {i : Instr} {s t : State} (h : Effected i s t) (hf : CacheFormed s.cfg s.cache)
    (hb : BlkShaped s.cfg.nblk s.cfg.n s.blk) (hs : CacheClean s.cache) : CacheClean t.cache := by
  obtain ⟨p, he⟩ | ⟨dst, he⟩ | ⟨_, xs, hsrc, hx, he⟩ := h.cache_cases <;> rw [he]
  · exact hs.filter p
  · exact getBlock_cacheClean hs dst
  · exact putBlock_cacheClean hf hs s.outTarget (hb.samples_length hsrc hx)

/-- Settles O14: only OUT_PUT_BLOCK dirties lines, they are lines of the half it writes, and it invalidates those. -/
theorem stepKeepsCacheClean : Obligations.StepKeepsCacheClean := by
  intro s t hf hb hs h
  obtain ⟨i, ws, ms, he⟩ | ⟨p, he⟩ := (step_next h).command_or_cache_filter
  · exact he.cacheClean (cacheOk_iff.1 hf) (blocksShaped_iff.1 hb) hs
  · rw [he]; exact CacheClean.filter hs p

end Sys2Proof.Machine
end

section
/-! Little-endian reads after writes (R61, R62), and eviction (R73). -/

namespace Sys2Proof.Machine

open Sys2Proof

/-- `MemWrite` leaves every byte outside the `n` it writes (R62). -/
theorem memByte_memWrite_outside {n a b : Nat} (m : Memory) (v : Nat) (hb : b < a ∨ a + n ≤ b) :
    memByte (memWrite m a n v) b = memByte m b := by
  induction n generalizing m a v with
  | zero => rfl
  | succ n ih => rw [memWrite, ih _ _ (by omega), memByte_memSet, if_neg (by omega)]

theorem memRead_memWrite (m : Memory) (a n v : Nat) : memRead (memWrite m a n v) a n = v % 256 ^ n := by
  induction n generalizing m a v with
  | zero => rw [memRead, Nat.pow_zero, Nat.mod_one]
  | succ n ih =>
    have hlow : memByte (memWrite m a (n + 1) v) a = BitVec.ofNat 8 v := by
      rw [memWrite, memByte_memWrite_outside _ _ (by omega), memByte_memSet, if_pos rfl]
    have hrest : memRead (memWrite m a (n + 1) v) (a + 1) n = v / 256 % 256 ^ n := ih _ _ _
    rw [memRead, hlow, hrest, BitVec.toNat_ofNat, Nat.pow_succ' (m := 256), Nat.mod_mul]

/-- Settles O11, by induction on the length: the lowest byte is written first and no later byte overwrites it. -/
theorem memoryReadAfterWrite : Obligations.MemoryReadAfterWrite :=
  fun m a n v => ⟨memRead_memWrite m a n v, fun _ hb => memByte_memWrite_outside m v hb⟩

theorem step_of_moves_evict {s : State} {la : Nat} {ms : List Move} (ha : admits s.cfg = true)
    (hm : s.moves = .evict la :: ms) : step s = .next (evictLine { s with moves := ms } la) := by
  simp only [step, ha, turn, hm, agentStep, if_true]

theorem evictLine_of_none {s : State} {la : Nat} (h : cacheFind s.cache la = none) : evictLine s la = s := by
  simp only [evictLine, h]

theorem evictLine_of_some {s : State} {la : Nat} {l : CacheLine} (h : cacheFind s.cache la = some l) :
    evictLine s la = { s with mem := writeBack s.cfg s.mem l, cache := s.cache.filter (fun k => k.la != la) } := by
  simp only [evictLine, h]

theorem writeBack_of_clean {c : Cfg} {m : Memory} {l : CacheLine} (h : l.dirty = false) : writeBack c m l = m := by
  simp [writeBack, h]

theorem writeBack_of_dirty {c : Cfg} {m : Memory} {l : CacheLine} (h : l.dirty = true) :
    writeBack c m l = memWriteBytes m (l.la * c.cacheLine) l.data := by
  simp [writeBack, h]

/-- Settles O15: the memory after the eviction is the line written back at its own address. -/
theorem evictionWritesBack : Obligations.EvictionWritesBack := by
  intro s la ms ha hm
  rw [step_of_moves_evict ha hm]
  refine ⟨fun hnone => congrArg _ (evictLine_of_none hnone), fun l hl => ?_⟩
  obtain rfl : l.la = la := cacheFind_la hl
  refine ⟨writeBack s.cfg s.mem l, congrArg _ (evictLine_of_some hl), writeBack_of_clean, fun hd => ?_⟩
  rw [writeBack_of_dirty hd]
  refine ⟨fun i hi => ?_, fun a ha' => ?_⟩
  · rw [memByte_memWriteBytes, if_pos (by omega), Nat.add_sub_cancel_left]
    rfl
  · rw [memByte_memWriteBytes, if_neg (by omega)]

end Sys2Proof.Machine
end

section
/-! The half of the output region that the output engine reads is left alone by commands (R65, R66, R79, R121). -/

namespace Sys2Proof.Machine

open Sys2Proof

/-- The regions are disjoint (R9, R66). -/
theorem admitsRegions_disjoint {c : Cfg} (hc : admitsRegions c = true) :
    c.inBase + 2 * inHalfBytes c ≤ c.outBase ∨ c.outBase + 2 * outHalfBytes c ≤ c.inBase := by
  simp only [admitsRegions, Bool.and_eq_true, Bool.or_eq_true, decide_eq_true_eq] at hc
  exact hc.2

/-- Each half of the output region starts on a line and is whole lines (R66). -/
theorem admitsRegions_outHalf_aligned {c : Cfg} (hc : admitsRegions c = true) (h : Half) :
    c.cacheLine ∣ outHalfBase c h ∧ c.cacheLine ∣ outHalfBytes c := by
  simp only [admitsRegions, Bool.and_eq_true, beq_iff_eq, and_assoc] at hc
  obtain ⟨_, _, hbytes, _, hbase, _⟩ := hc
  have hbytes := Nat.dvd_of_mod_eq_zero hbytes
  exact ⟨(Nat.dvd_of_mod_eq_zero hbase).add (hbytes.mul_right _), hbytes⟩

theorem outHalfBytes_pos {c : Cfg} (hc : admitsSizes c = true) : 0 < outHalfBytes c := by
  simp only [admitsSizes, Bool.and_eq_true, decide_eq_true_eq, and_assoc] at hc
  obtain ⟨_, hn, _, _, _, _, _, hch, _⟩ := hc
  exact Nat.mul_pos (by omega) hch

theorem inOutHalf_iff {c : Cfg} {h : Half} {a : Nat} :
    inOutHalf c h a = true ↔ outHalfBase c h ≤ a ∧ a < outHalfBase c h + outHalfBytes c := by
  simp only [inOutHalf, Bool.and_eq_true, decide_eq_true_eq]

/-- A byte of one half is outside the other. -/
theorem outside_half_of_otherHalf {c : Cfg} {h : Half} {a : Nat} (ha : inOutHalf c (otherHalf h) a = true) :
    a < outHalfBase c h ∨ outHalfBase c h + outHalfBytes c ≤ a := by
  rw [inOutHalf_iff] at ha
  cases h <;> simp only [otherHalf, outHalfBase, halfNumber] at ha ⊢ <;> omega

/-- A byte of a half of the output region is outside the input region. -/
theorem outside_inRegion_of_inOutHalf {c : Cfg} {h : Half} {a : Nat} (hc : admitsRegions c = true)
    (ha : inOutHalf c h a = true) : ¬ (c.inBase ≤ a ∧ a < c.inBase + 2 * inHalfBytes c) := by
  have hdisj := admitsRegions_disjoint hc
  rw [inOutHalf_iff] at ha
  cases h <;> simp only [outHalfBase, halfNumber] at ha <;> omega

/-- A line whose range meets a line-aligned run of bytes lies within it (R66, R74). -/
theorem lineInRange_bytes {c : Cfg} {lo n : Nat} {l : CacheLine} (hlo : c.cacheLine ∣ lo) (hn : c.cacheLine ∣ n)
    (hpos : 0 < n) (h : lineInRange c lo (lo + n - 1) l = true) :
    lo ≤ l.la * c.cacheLine ∧ l.la * c.cacheLine + c.cacheLine ≤ lo + n := by
  obtain ⟨h1, h2⟩ := lineInRange_iff.1 h
  have hline : 0 < c.cacheLine := Nat.pos_of_dvd_of_pos hn hpos
  obtain ⟨k, hk⟩ := Nat.dvd_add hlo hn
  have hlast : l.la * c.cacheLine < k * c.cacheLine := by
    have := (Nat.le_div_iff_mul_le hline).1 h2
    rw [Nat.mul_comm k, ← hk]
    omega
  constructor
  · rw [← Nat.div_mul_cancel hlo]
    exact Nat.mul_le_mul_right _ h1
  · rw [hk, ← Nat.succ_mul, Nat.mul_comm c.cacheLine]
    exact Nat.mul_le_mul_right _ (Nat.lt_of_mul_lt_mul_right hlast)

theorem memByte_writeBack_outside {c : Cfg} {l : CacheLine} {b : Nat} (m : Memory)
    (hb : b < l.la * c.cacheLine ∨ l.la * c.cacheLine + l.data.length ≤ b) :
    memByte (writeBack c m l) b = memByte m b := by
  cases hd : l.dirty
  · rw [writeBack_of_clean hd]
  · rw [writeBack_of_dirty hd, memByte_memWriteBytes, if_neg (by omega)]

/-- `CleanInvalidate` over whole lines writes no byte outside them (R75). -/
theorem memByte_cleanInvalidate_outside {s : State} {lo n b : Nat} (hf : CacheFormed s.cfg s.cache)
    (hlo : s.cfg.cacheLine ∣ lo) (hn : s.cfg.cacheLine ∣ n) (hpos : 0 < n) (hb : b < lo ∨ lo + n ≤ b) :
    memByte (cleanInvalidate s lo (lo + n - 1)).mem b = memByte s.mem b := by
  rw [cleanInvalidate, invalidate_mem, clean]
  split
  · refine List.foldlRecOn (motive := fun m => memByte m b = memByte s.mem b) _ _ rfl fun m hm l hl => ?_
    obtain ⟨hmem, hin⟩ := List.mem_filter.1 hl
    obtain ⟨h1, h2⟩ := lineInRange_bytes hlo hn hpos hin
    rw [memByte_writeBack_outside m (by rw [hf.size l hmem]; omega), hm]
  · rfl

/-- The copy's host writes reach no byte of memory outside the half (R72, R121). -/
theorem memByte_writeFrames_outside {s : State} {half : Half} {xs : List Sample} {b : Nat} (hx : xs.length = s.cfg.n)
    (hb : b < outHalfBase s.cfg half ∨ outHalfBase s.cfg half + outHalfBytes s.cfg ≤ b) :
    memByte (writeFrames s (outHalfBase s.cfg half) xs).mem b = memByte s.mem b := by
  refine writeFrames_induction (P := fun t => memByte t.mem b = memByte s.mem b) (fun t a v _ h1 h2 ht => ?_) rfl rfl
  rw [frames_length hx] at h2
  rw [hostWriteByte_mem]
  split
  · exact ht
  · rw [memByte_memSet, if_neg (by omega), ht]

/-- OUT_PUT_BLOCK's copy leaves every byte of memory outside its half (R121). -/
theorem memByte_putBlock_outside {s : State} {half : Half} {xs : List Sample} {b : Nat} (ha : admits s.cfg = true)
    (hf : CacheFormed s.cfg s.cache) (hx : xs.length = s.cfg.n)
    (hb : b < outHalfBase s.cfg half ∨ outHalfBase s.cfg half + outHalfBytes s.cfg ≤ b) :
    memByte (putBlock half xs s).mem b = memByte s.mem b := by
  obtain ⟨hsizes, hregions, _⟩ := admits_iff.1 ha
  obtain ⟨hbase, hbytes⟩ := admitsRegions_outHalf_aligned hregions half
  rw [← memByte_writeFrames_outside hx hb, putBlock, setFresh_mem]
  have hcfg := writeFrames_cfg xs s (outHalfBase s.cfg half)
  refine memByte_cleanInvalidate_outside ?_ ?_ ?_ (outHalfBytes_pos hsizes) hb <;> rw [hcfg]
  · exact writeFrames_cacheFormed hf _ xs
  · exact hbase
  · exact hbytes

/-- Settles O28: with the adapter running no command zeroes the output region, IN_INIT zeroes the other region, and
OUT_PUT_BLOCK writes the half that is `S.out_target`. -/
theorem commandsSpareTheEngineHalf : Obligations.CommandsSpareTheEngineHalf := by
  intro i s t ha hf hb _ _ hrun h a hin
  obtain ⟨_, hregions, _⟩ := admits_iff.1 ha
  obtain he | he | ⟨huninit, _⟩ | ⟨src, xs, hsrc, hx, he⟩ := (exec_next h).mem_cases
  · rw [he]
  · rw [he, memByte_memZero, if_neg (outside_inRegion_of_inOutHalf hregions hin)]
  · rw [hrun] at huninit
    cases huninit
  · rw [he]
    exact memByte_putBlock_outside ha (cacheOk_iff.1 hf) ((blocksShaped_iff.1 hb).samples_length hsrc hx)
      (outside_half_of_otherHalf hin)

end Sys2Proof.Machine
end

section
/-! The fields of a first word: what each reads of an assembled word, and that they determine the word (R92, R93). -/

namespace Sys2Proof

open Laws.EncodedLength (opcField_firstWord)

theorem opcField_toNat (w : Word) : (opcField w).toNat = w.toNat / 2 ^ 24 := by
  have := w.isLt
  simp only [opcField, BitVec.extractLsb'_toNat, Nat.shiftRight_eq_div_pow]
  omega

theorem srcField_toNat (w : Word) : (srcField w).toNat = w.toNat / 2 ^ 20 % 16 := by
  simp only [srcField, BitVec.extractLsb'_toNat, Nat.shiftRight_eq_div_pow, Nat.reducePow]

theorem dstField_toNat (w : Word) : (dstField w).toNat = w.toNat / 2 ^ 16 % 16 := by
  simp only [dstField, BitVec.extractLsb'_toNat, Nat.shiftRight_eq_div_pow, Nat.reducePow]

theorem idxField_toNat (w : Word) : (idxField w).toNat = w.toNat % 65536 := by
  simp only [idxField, BitVec.extractLsb'_toNat, Nat.shiftRight_zero, Nat.reducePow]

/-- CSR is SRC and DST side by side (R92). -/
theorem csrField_toNat (w : Word) : (csrField w).toNat = 16 * (srcField w).toNat + (dstField w).toNat := by
  rw [srcField_toNat, dstField_toNat]
  simp only [csrField, BitVec.extractLsb'_toNat, Nat.shiftRight_eq_div_pow]
  omega

theorem firstWord_toNat (op : Opcode) (hi lo : BitVec 4) (imm : BitVec 16) :
    (firstWord op hi lo imm).toNat
      = (opcodeByte op).toNat * 2 ^ 24 + hi.toNat * 2 ^ 20 + lo.toNat * 2 ^ 16 + imm.toNat := by
  simp only [firstWord, BitVec.toNat_append]
  rw [← Nat.shiftLeft_add_eq_or_of_lt hi.isLt, ← Nat.shiftLeft_add_eq_or_of_lt lo.isLt,
    ← Nat.shiftLeft_add_eq_or_of_lt imm.isLt]
  simp only [Nat.shiftLeft_eq]
  omega

@[simp] theorem srcField_firstWord (op : Opcode) (hi lo : BitVec 4) (imm : BitVec 16) :
    srcField (firstWord op hi lo imm) = hi := by
  apply BitVec.eq_of_toNat_eq
  rw [srcField_toNat, firstWord_toNat]
  omega

@[simp] theorem dstField_firstWord (op : Opcode) (hi lo : BitVec 4) (imm : BitVec 16) :
    dstField (firstWord op hi lo imm) = lo := by
  apply BitVec.eq_of_toNat_eq
  rw [dstField_toNat, firstWord_toNat]
  omega

@[simp] theorem idxField_firstWord (op : Opcode) (hi lo : BitVec 4) (imm : BitVec 16) :
    idxField (firstWord op hi lo imm) = imm := by
  apply BitVec.eq_of_toNat_eq
  rw [idxField_toNat, firstWord_toNat]
  omega

/-- The four fields cover every bit of a first word (R93). -/
theorem word_eq_iff_fields {w v : Word} :
    w = v ↔ opcField w = opcField v ∧ srcField w = srcField v ∧ dstField w = dstField v ∧ idxField w = idxField v := by
  refine ⟨fun h => h ▸ ⟨rfl, rfl, rfl, rfl⟩, fun ⟨hop, hsrc, hdst, hidx⟩ => BitVec.eq_of_toNat_eq ?_⟩
  have hop := congrArg BitVec.toNat hop
  have hsrc := congrArg BitVec.toNat hsrc
  have hdst := congrArg BitVec.toNat hdst
  have hidx := congrArg BitVec.toNat hidx
  rw [opcField_toNat, opcField_toNat] at hop
  rw [srcField_toNat, srcField_toNat] at hsrc
  rw [dstField_toNat, dstField_toNat] at hdst
  rw [idxField_toNat, idxField_toNat] at hidx
  omega

/-- A first word is assembled from its opcode and its own fields. -/
theorem firstWord_fields {op : Opcode} {w : Word} (h : opcField w = opcodeByte op) :
    firstWord op (srcField w) (dstField w) (idxField w) = w := by
  simp [word_eq_iff_fields, opcField_firstWord, h]

theorem nibble_toNat {b : Nat} (h : fitsBlock b = true) : (nibble b).toNat = b := by
  simp only [fitsBlock, decide_eq_true_eq] at h
  simpa [nibble] using h

theorem idx_toNat {i : Nat} (h : fitsIdx i = true) : (BitVec.ofNat 16 i).toNat = i := by
  simp only [fitsIdx, decide_eq_true_eq] at h
  simpa using h

@[simp] theorem nibble_of_toNat (x : BitVec 4) : nibble x.toNat = x := by simp [nibble]

/-- The high half of a CSR number is its SRC nibble (R92). -/
theorem nibble_csrField_hi (w : Word) : nibble ((csrField w).toNat / 16) = srcField w := by
  have := (dstField w).isLt
  rw [csrField_toNat, show (16 * (srcField w).toNat + (dstField w).toNat) / 16 = (srcField w).toNat by omega,
    nibble_of_toNat]

/-- The low half of a CSR number is its DST nibble (R92). -/
theorem nibble_csrField_lo (w : Word) : nibble (csrField w).toNat = dstField w := by
  apply BitVec.eq_of_toNat_eq
  rw [csrField_toNat]
  simp only [nibble, BitVec.toNat_ofNat]
  omega

theorem csrField_firstWord {op : Opcode} {n : Nat} (imm : BitVec 16) (h : fitsCsr n = true) :
    (csrField (firstWord op (nibble (n / 16)) (nibble n) imm)).toNat = n := by
  simp only [fitsCsr, decide_eq_true_eq] at h
  simp only [csrField_toNat, srcField_firstWord, dstField_firstWord, nibble, BitVec.toNat_ofNat]
  omega

end Sys2Proof
end

section
/-! The opcode a first word selects, and what decoding a command stream answers, said once (R94, R97, R99, R100). -/

namespace Sys2Proof

open Laws.EncodedLength (twoWords_firstWord)

/-- A first word is a legal command of this opcode: OPC is its byte, and its format's reserved fields are zero
(R97, R99). -/
structure Selects (w : Word) (op : Opcode) : Prop where
  opc : opcField w = opcodeByte op
  reserved : reservedZero (opcodeFormat op) w = true

theorem selects_iff {w : Word} {op : Opcode} :
    Selects w op ↔ opcField w = opcodeByte op ∧ reservedZero (opcodeFormat op) w = true :=
  ⟨fun ⟨hop, hz⟩ => ⟨hop, hz⟩, fun ⟨hop, hz⟩ => ⟨hop, hz⟩⟩

theorem opcodeOfByte_eq_some_iff {b : Byte} {op : Opcode} : opcodeOfByte b = some op ↔ b = opcodeByte op := by
  constructor
  · intro h
    unfold opcodeOfByte at h
    split at h <;> cases h <;> exact BitVec.eq_of_toNat_eq ‹_›
  · rintro rfl
    cases op <;> rfl

/-- A first word is decoded as the command of the opcode it selects, and is illegal if it selects none. -/
theorem decodeFirst_cases (w d : Word) (rest : List Word) :
    (∃ op, Selects w op ∧ decodeFirst w d rest = .command (assembleOperands op w d) rest)
      ∨ ((¬ ∃ op, Selects w op) ∧ ∃ why, decodeFirst w d rest = .illegal why w rest) := by
  unfold decodeFirst
  split
  · next hnone =>
    refine .inr ⟨fun ⟨op, hs⟩ => ?_, _, rfl⟩
    rw [opcodeOfByte_eq_some_iff.2 hs.opc] at hnone
    cases hnone
  · next op hop =>
    split
    · next hz => exact .inl ⟨op, ⟨opcodeOfByte_eq_some_iff.1 hop, hz⟩, rfl⟩
    · next hz =>
      refine .inr ⟨fun ⟨op', hs⟩ => hz ?_, _, rfl⟩
      rw [opcodeOfByte_eq_some_iff.2 hs.opc] at hop
      cases hop
      exact hs.reserved

theorem decodeFirst_eq_command_iff {w d : Word} {rest ws : List Word} {i : Instr} :
    decodeFirst w d rest = .command i ws ↔ ∃ op, Selects w op ∧ i = assembleOperands op w d ∧ ws = rest := by
  constructor
  · intro h
    obtain ⟨op, hs, hd⟩ | ⟨_, why, hd⟩ := decodeFirst_cases w d rest <;> rw [hd] at h <;> cases h
    exact ⟨op, hs, rfl, rfl⟩
  · rintro ⟨op, hs, rfl, rfl⟩
    simp only [decodeFirst, opcodeOfByte_eq_some_iff.2 hs.opc, if_pos hs.reserved]

theorem decodeFirst_illegal {w : Word} (d : Word) (rest : List Word) (h : ¬ ∃ op, Selects w op) :
    ∃ why, decodeFirst w d rest = .illegal why w rest := by
  obtain ⟨op, hs, _⟩ | ⟨_, hill⟩ := decodeFirst_cases w d rest
  · exact absurd ⟨op, hs⟩ h
  · exact hill

theorem decode_one {w : Word} (rest : List Word) (h : twoWords w = false) :
    decode (w :: rest) = decodeFirst w 0#32 rest := by
  simp [decode, h]

theorem decode_two {w : Word} (d : Word) (rest : List Word) (h : twoWords w = true) :
    decode (w :: d :: rest) = decodeFirst w d rest := by
  simp [decode, h]

theorem decode_two_alone {w : Word} (h : twoWords w = true) : decode [w] = .incomplete := by
  simp [decode, h]

theorem twoWords_iff {w : Word} : twoWords w = true ↔ opcField w = 0x41#8 ∨ opcField w = 0x46#8 := by
  simp [twoWords]

/-- Whether the commands of an opcode have a DATA word (R94). -/
def Opcode.takesData (op : Opcode) : Bool := op = .csrWrite ∨ op = .blkWrite

theorem Selects.twoWords_eq {w : Word} {op : Opcode} (h : Selects w op) : twoWords w = op.takesData := by
  rw [← firstWord_fields h.opc, twoWords_firstWord, Opcode.takesData]

/-- The words of a command after its first: the DATA word where its opcode has one (R94). -/
def dataWords (op : Opcode) (d : Word) : List Word := if op.takesData then [d] else []

/-- A one-word command does not depend on a DATA word. -/
theorem assembleOperands_of_one_word {op : Opcode} (w d d' : Word) (h : op.takesData = false) :
    assembleOperands op w d = assembleOperands op w d' := by
  cases op
  case csrWrite | blkWrite => cases h
  all_goals rfl

/-- A first word that selects an opcode, with its DATA word, decodes to the command it assembles. -/
theorem decode_of_selects {w : Word} {op : Opcode} (h : Selects w op) (d : Word) (rest : List Word) :
    decode (w :: (dataWords op d ++ rest)) = .command (assembleOperands op w d) rest := by
  unfold dataWords
  cases htwo : op.takesData
  · refine (decode_one rest (h.twoWords_eq.trans htwo)).trans (decodeFirst_eq_command_iff.2 ⟨op, h, ?_, rfl⟩)
    exact assembleOperands_of_one_word w d 0#32 htwo
  · exact (decode_two d rest (h.twoWords_eq.trans htwo)).trans (decodeFirst_eq_command_iff.2 ⟨op, h, rfl, rfl⟩)

/-- The one inversion of `decode`: a command is decoded from its own words, with the rest left over. -/
theorem decode_command {ws rest : List Word} {i : Instr} (h : decode ws = .command i rest) :
    ∃ op w d, Selects w op ∧ i = assembleOperands op w d ∧ ws = w :: (dataWords op d ++ rest) := by
  match ws with
  | [] => cases h
  | w :: ws =>
    cases htwo : twoWords w
    · rw [decode_one ws htwo, decodeFirst_eq_command_iff] at h
      obtain ⟨op, hs, hi, rfl⟩ := h
      exact ⟨op, w, 0#32, hs, hi, by simp [dataWords, ← hs.twoWords_eq, htwo]⟩
    · match ws with
      | [] => rw [decode_two_alone htwo] at h; cases h
      | d :: ws =>
        rw [decode_two d ws htwo, decodeFirst_eq_command_iff] at h
        obtain ⟨op, hs, hi, rfl⟩ := h
        exact ⟨op, w, d, hs, hi, by simp [dataWords, ← hs.twoWords_eq, htwo]⟩

end Sys2Proof
end

section
/-! Encoding and decoding are inverse to each other (R91 to R97, R99). -/

namespace Sys2Proof

open Laws.EncodedLength (opcField_firstWord)

/-- Every field of an assembled command fits, being read from as many bits (R92). -/
theorem assembleOperands_wellFormed (op : Opcode) (w d : Word) : (assembleOperands op w d).wellFormed = true := by
  have hsrc : fitsBlock (srcField w).toNat = true := decide_eq_true (srcField w).isLt
  have hdst : fitsBlock (dstField w).toNat = true := decide_eq_true (dstField w).isLt
  have hcsr : fitsCsr (csrField w).toNat = true := decide_eq_true (csrField w).isLt
  have hidx : fitsIdx (idxField w).toNat = true := decide_eq_true (idxField w).isLt
  cases op <;> simp [assembleOperands, Instr.wellFormed, hsrc, hdst, hcsr, hidx]

/-- The command that a first word selects is encoded as that word again: its operands hold the fields its format
uses, and the others are zero (R93, R99). -/
theorem encode_assembleOperands {w : Word} {op : Opcode} (h : Selects w op) (d : Word) :
    encode (assembleOperands op w d) = w :: dataWords op d := by
  have hw := firstWord_fields h.opc
  have hz := h.reserved
  cases op
  all_goals
    simp only [opcodeFormat, reservedZero, Bool.and_eq_true, beq_iff_eq] at hz
    simp only [hz] at hw
    simp [encode, assembleOperands, dataWords, Opcode.takesData, nibble_csrField_hi, nibble_csrField_lo, hw]

theorem selects_firstWord {op : Opcode} {hi lo : BitVec 4} {imm : BitVec 16}
    (h : reservedZero (opcodeFormat op) (firstWord op hi lo imm) = true) : Selects (firstWord op hi lo imm) op :=
  ⟨opcField_firstWord op hi lo imm, h⟩

/-- With no operands in the format, the word of zero fields selects the opcode (R93). -/
theorem selects_firstWord_zero {op : Opcode} (h : opcodeFormat op = .n) : Selects (firstWord op 0 0 0) op :=
  selects_firstWord (by simp [h, reservedZero])

/-- With two buffers or a CSR in the format, any two nibbles do (R93). -/
theorem selects_firstWord_nibbles {op : Opcode} (h : opcodeFormat op = .b2 ∨ opcodeFormat op = .r) (hi lo : BitVec 4) :
    Selects (firstWord op hi lo 0) op :=
  selects_firstWord (by obtain h | h := h <;> simp [h, reservedZero])

/-- With a block cell in the format, any buffer and index do (R93). -/
theorem selects_firstWord_cell {op : Opcode} (h : opcodeFormat op = .m) (hi : BitVec 4) (imm : BitVec 16) :
    Selects (firstWord op hi 0 imm) op :=
  selects_firstWord (by simp [h, reservedZero])

/-- Every well-formed command is assembled from a first word that selects its opcode. -/
theorem exists_assembleOperands {i : Instr} (h : i.wellFormed = true) :
    ∃ op w d, Selects w op ∧ i = assembleOperands op w d := by
  cases i
  case inInit => exact ⟨.inInit, _, 0, selects_firstWord_zero rfl, rfl⟩
  case inStart => exact ⟨.inStart, _, 0, selects_firstWord_zero rfl, rfl⟩
  case outInit => exact ⟨.outInit, _, 0, selects_firstWord_zero rfl, rfl⟩
  case outStart => exact ⟨.outStart, _, 0, selects_firstWord_zero rfl, rfl⟩
  case iirConnect => exact ⟨.iirConnect, _, 0, selects_firstWord_zero rfl, rfl⟩
  case iirDisconnect => exact ⟨.iirDisconnect, _, 0, selects_firstWord_zero rfl, rfl⟩
  case cicConnect => exact ⟨.cicConnect, _, 0, selects_firstWord_zero rfl, rfl⟩
  case cicDisconnect => exact ⟨.cicDisconnect, _, 0, selects_firstWord_zero rfl, rfl⟩
  case firConnect => exact ⟨.firConnect, _, 0, selects_firstWord_zero rfl, rfl⟩
  case firDisconnect => exact ⟨.firDisconnect, _, 0, selects_firstWord_zero rfl, rfl⟩
  case contMask => exact ⟨.contMask, _, 0, selects_firstWord_zero rfl, rfl⟩
  case contUnmask => exact ⟨.contUnmask, _, 0, selects_firstWord_zero rfl, rfl⟩
  case contDone => exact ⟨.contDone, _, 0, selects_firstWord_zero rfl, rfl⟩
  case inGetBlock dst =>
    exact ⟨.inGetBlock, firstWord .inGetBlock 0 (nibble dst) 0, 0,
      selects_firstWord (by simp [opcodeFormat, reservedZero]), by simp [assembleOperands, nibble_toNat h]⟩
  case outPutBlock src =>
    exact ⟨.outPutBlock, firstWord .outPutBlock (nibble src) 0 0, 0,
      selects_firstWord (by simp [opcodeFormat, reservedZero]), by simp [assembleOperands, nibble_toNat h]⟩
  case iirProcess src dst =>
    obtain ⟨hs, hd⟩ := Bool.and_eq_true_iff.1 h
    exact ⟨.iirProcess, _, 0, selects_firstWord_nibbles (.inl rfl) (nibble src) (nibble dst),
      by simp [assembleOperands, nibble_toNat hs, nibble_toNat hd]⟩
  case cicProcess src dst =>
    obtain ⟨hs, hd⟩ := Bool.and_eq_true_iff.1 h
    exact ⟨.cicProcess, _, 0, selects_firstWord_nibbles (.inl rfl) (nibble src) (nibble dst),
      by simp [assembleOperands, nibble_toNat hs, nibble_toNat hd]⟩
  case firProcess src dst =>
    obtain ⟨hs, hd⟩ := Bool.and_eq_true_iff.1 h
    exact ⟨.firProcess, _, 0, selects_firstWord_nibbles (.inl rfl) (nibble src) (nibble dst),
      by simp [assembleOperands, nibble_toNat hs, nibble_toNat hd]⟩
  case csrRead csr =>
    exact ⟨.csrRead, _, 0, selects_firstWord_nibbles (.inr rfl) (nibble (csr / 16)) (nibble csr),
      congrArg Instr.csrRead (csrField_firstWord 0 h).symm⟩
  case csrWrite csr d =>
    exact ⟨.csrWrite, _, d, selects_firstWord_nibbles (.inr rfl) (nibble (csr / 16)) (nibble csr),
      congrArg (Instr.csrWrite · d) (csrField_firstWord 0 h).symm⟩
  case blkRead b j =>
    obtain ⟨hb, hj⟩ := Bool.and_eq_true_iff.1 h
    exact ⟨.blkRead, _, 0, selects_firstWord_cell rfl (nibble b) (BitVec.ofNat 16 j),
      by simp [assembleOperands, nibble_toNat hb, idx_toNat hj]⟩
  case blkWrite b j d =>
    obtain ⟨hb, hj⟩ := Bool.and_eq_true_iff.1 h
    exact ⟨.blkWrite, _, d, selects_firstWord_cell rfl (nibble b) (BitVec.ofNat 16 j),
      by simp [assembleOperands, nibble_toNat hb, idx_toNat hj]⟩

/-- Settles O7: the command is assembled from a first word that selects its opcode, its words are that word's, and
decoding those assembles it again. -/
theorem decodeEncodeRoundTrip : Obligations.DecodeEncodeRoundTrip := by
  intro i rest hi
  obtain ⟨op, w, d, hs, rfl⟩ := exists_assembleOperands hi
  rw [encode_assembleOperands hs]
  exact decode_of_selects hs d rest

/-- Settles O8: what decodes to a command is the words its operands were read from, and they encode it. -/
theorem encodeDecodeRoundTrip : Obligations.EncodeDecodeRoundTrip := by
  intro ws i rest h
  obtain ⟨op, w, d, hs, rfl, hws⟩ := decode_command h
  exact ⟨assembleOperands_wellFormed op w d, by rw [encode_assembleOperands hs, hws, List.cons_append]⟩

theorem decode_of_encode_eq {i : Instr} {ws : List Word} (hi : i.wellFormed = true) (h : encode i = ws) :
    decode ws = .command i [] := by
  simpa [h] using decodeEncodeRoundTrip i [] hi

/-- Settles O10: each example is the encoding of the command it stands for. -/
theorem specWordsDecode : Obligations.SpecWordsDecode :=
  ⟨decode_of_encode_eq rfl rfl, decode_of_encode_eq rfl rfl, decode_of_encode_eq rfl rfl,
    decode_of_encode_eq rfl rfl, decode_of_encode_eq rfl rfl, decode_of_encode_eq rfl rfl⟩

end Sys2Proof
end

section
/-! The match and mask columns of the opcode table agree with the decoder (R97, R99, R100). -/

namespace Sys2Proof

open Sys2Proof.Machine
open Laws.EncodedLength (opcField_firstWord)

/-- The opcodes in the order of R97. -/
def opcodes : List Opcode :=
  [.inInit, .inStart, .inGetBlock, .outInit, .outStart, .outPutBlock, .iirConnect, .iirDisconnect, .iirProcess,
   .cicConnect, .cicDisconnect, .cicProcess, .firConnect, .firDisconnect, .firProcess, .csrRead, .csrWrite,
   .contMask, .contUnmask, .contDone, .blkRead, .blkWrite]

theorem mem_opcodes (op : Opcode) : op ∈ opcodes := by cases op <;> decide

/-- The mask of a format: OPC and the reserved fields (R93, R97). -/
def formatMask : Format → Word
  | .n => 0xFFFFFFFF#32
  | .b2 => 0xFF00FFFF#32
  | .bd => 0xFFF0FFFF#32
  | .bs => 0xFF0FFFFF#32
  | .r => 0xFF00FFFF#32
  | .m => 0xFF0F0000#32

/-- Every row of R97 is an opcode's word with all fields zero and its format's mask. -/
theorem opcodeRows_eq_map :
    opcodeRows = opcodes.map (fun op => (firstWord op 0 0 0, formatMask (opcodeFormat op))) := by
  decide

theorem opcField_and_formatMask (w : Word) (f : Format) : opcField (w &&& formatMask f) = opcField w := by
  have hmask : opcField (formatMask f) = BitVec.allOnes 8 := by cases f <;> rfl
  rw [opcField, BitVec.extractLsb'_and]
  exact (congrArg (opcField w &&& ·) hmask).trans BitVec.and_allOnes

/-- The masked operand fields are zero exactly when the reserved ones of the format are. -/
theorem reservedZero_iff_and_formatMask {w : Word} {f : Format} :
    reservedZero f w = true ↔ srcField (w &&& formatMask f) = 0 ∧ dstField (w &&& formatMask f) = 0
      ∧ idxField (w &&& formatMask f) = 0 := by
  have and_ones4 (x : BitVec 4) : x &&& 15#4 = x := BitVec.and_allOnes
  have and_ones16 (x : BitVec 16) : x &&& 65535#16 = x := BitVec.and_allOnes
  cases f <;>
    simp [reservedZero, formatMask, srcField, dstField, idxField, BitVec.extractLsb'_and, and_ones4, and_ones16,
      and_assoc]

/-- A row matches exactly when OPC is its opcode's and the reserved fields are zero: its mask covers OPC and those. -/
theorem and_formatMask_eq_iff {w : Word} {op : Opcode} :
    w &&& formatMask (opcodeFormat op) = firstWord op 0 0 0 ↔ Selects w op := by
  rw [word_eq_iff_fields, opcField_and_formatMask, opcField_firstWord, srcField_firstWord, dstField_firstWord,
    idxField_firstWord, ← reservedZero_iff_and_formatMask, selects_iff]

theorem inOpcodeTable_iff {w : Word} : inOpcodeTable w ↔ ∃ op, Selects w op := by
  simp only [inOpcodeTable, opcodeRows_eq_map, List.mem_map, and_formatMask_eq_iff, mem_opcodes,
    true_and, exists_exists_eq_and]

/-- A DATA word at hand is the opcode's, or is left over. -/
theorem exists_dataWords_append (op : Opcode) (d : Word) (rest : List Word) :
    ∃ ws, d :: rest = dataWords op d ++ ws := by
  unfold dataWords
  split
  · exact ⟨rest, rfl⟩
  · exact ⟨d :: rest, rfl⟩

/-- Settles O9: a row of the table is an opcode that the word selects, and the decoder answers its command. -/
theorem decodeAgreesWithOpcodeTable : Obligations.DecodeAgreesWithOpcodeTable := by
  intro w d rest
  rw [inOpcodeTable_iff]
  constructor
  · rintro ⟨i, ws, h⟩
    obtain ⟨op, w', d', hs, _, hws⟩ := decode_command h
    obtain ⟨rfl, _⟩ := List.cons.inj hws
    exact ⟨op, hs⟩
  · rintro ⟨op, hs⟩
    obtain ⟨ws, hws⟩ := exists_dataWords_append op d rest
    exact ⟨_, ws, hws ▸ decode_of_selects hs d ws⟩

end Sys2Proof
end

section
/-! An illegal first word on the host's turn (R94, R99, R100, R241). -/

namespace Sys2Proof.Machine

open Sys2Proof

/-- The host's turn, listed or because no move is. -/
theorem turn_of_host {s : State} (hm : s.moves = [] ∨ ∃ ms, s.moves = .host :: ms) :
    turn s = hostTurn s s.moves.tail := by
  obtain hm | ⟨ms, hm⟩ := hm
  · rw [turn_of_moves_nil hm, hm, List.tail_nil]
  · rw [turn_of_moves_host hm, hm, List.tail_cons]

theorem step_of_turn_moved {s t : State} (ha : admits s.cfg = true) (ht : turn s = .moved t) : step s = .next t := by
  simp [step, ha, ht]

theorem hostTurn_of_decode_illegal {s : State} {why : DecodeError} {w : Word} {ws : List Word} (rest : List Move)
    (he : dispatchEnabled s = false) (hd : decode s.inbox = .illegal why w ws) :
    hostTurn s rest = .moved (rejectWord w { s with inbox := ws, moves := rest }) := by
  simp [hostTurn, he, hd]

theorem hostTurn_of_decode_incomplete {s : State} (rest : List Move) (he : dispatchEnabled s = false)
    (hd : decode s.inbox = .incomplete) : hostTurn s rest = .moved { s with moves := rest } := by
  simp [hostTurn, he, hd]

/-- An illegal word is taken from the inbox with its DATA word where it has one (R94). -/
theorem decode_illegal {w : Word} {rest : List Word} (hw : ¬ inOpcodeTable w) (hr : twoWords w = true → rest ≠ []) :
    ∃ why, decode (w :: rest) = .illegal why w (if twoWords w = true then rest.tail else rest) := by
  rw [inOpcodeTable_iff] at hw
  cases htwo : twoWords w
  · rw [decode_one rest htwo]
    exact decodeFirst_illegal 0#32 rest hw
  · obtain ⟨d, rest, rfl⟩ := List.exists_cons_of_ne_nil (hr htwo)
    rw [decode_two d rest htwo]
    exact decodeFirst_illegal d rest hw

/-- Settles O4: the decoder rejects the word, or waits for its DATA word, and the host's turn records that. -/
theorem illegalWordRejected : Obligations.IllegalWordRejected := by
  intro s w rest ha he hm hin hw two
  have htwo : twoWords w = true ↔ two := twoWords_iff
  refine ⟨fun hr => ?_, fun h2 hnil => ?_⟩ <;> refine step_of_turn_moved ha ?_ <;> rw [turn_of_host hm]
  · obtain ⟨why, hd⟩ := decode_illegal hw (fun h => hr (htwo.1 h))
    rw [hostTurn_of_decode_illegal _ he (hin ▸ hd)]
    simp only [htwo]
    rfl
  · exact hostTurn_of_decode_incomplete _ he (by rw [hin, hnil, decode_two_alone (htwo.2 h2)])

end Sys2Proof.Machine
end

section
/-! The operands' errors (R95, R244). -/

namespace Sys2Proof.Machine

open Sys2Proof

theorem withBlock_of_ge {b : Nat} {s : State} (k : Result) (hb : s.cfg.nblk ≤ b) :
    withBlock b s k = raise .eBlkIdx (wordOfNat b) s :=
  if_neg (Nat.not_lt.2 hb)

theorem withIdx_of_ge {i : Nat} {s : State} (k : Result) (hi : s.cfg.n ≤ i) :
    withIdx i s k = raise .eRange (wordOfNat i) s :=
  if_neg (Nat.not_lt.2 hi)

/-- Settles O50: SRC or BLK is checked first, then DST or IDX, before anything else of the command. -/
theorem operandErrors : Obligations.OperandErrors := by
  intro b i d s raises
  refine ⟨fun hb => ?_, fun hb hi => ?_, fun hb hi => ?_⟩
  · have hfirst := fun k => withBlock_of_ge k hb
    exact ⟨hfirst _, hfirst _, hfirst _, hfirst _, hfirst _, hfirst _, hfirst _⟩
  · have hsecond := fun k => (withBlock_of_lt (withBlock i s k) hb).trans (withBlock_of_ge k hi)
    exact ⟨hsecond _, hsecond _, hsecond _⟩
  · have hsecond := fun k => (withBlock_of_lt (withIdx i s k) hb).trans (withIdx_of_ge k hi)
    exact ⟨hsecond _, hsecond _⟩

end Sys2Proof.Machine
end

section
/-! Which half software owns, and the engines' positions (R23, R79, R128). -/

namespace Sys2Proof.Machine

open Sys2Proof

/-- The engines' positions are those of a region of `2n` frames, and an initialised output adapter's target is the
half that its engine is not in (R23, R128). -/
structure HalvesOwned (n inPos outPos : Nat) (outState : AdapterState) (target : Half) : Prop where
  inPos_lt : inPos < 2 * n
  outPos_lt : outPos < 2 * n
  target_eq : outState ≠ .uninit → halfNumber target = if outPos < n then 1 else 0
  init_pos : outState = .init → outPos = 0

/-- `1 - out_pos div N` of R128, by which half the position is in. -/
theorem one_sub_div_eq {p n : Nat} (h : p < 2 * n) : 1 - p / n = if p < n then 1 else 0 := by
  split
  · next hlt => rw [Nat.div_eq_of_lt hlt]
  · next hge => rw [Nat.div_eq_of_lt_le (k := 1) (by omega) (by omega)]

theorem adaptersOk_iff {s : State} :
    adaptersOk s = true ↔ HalvesOwned s.cfg.n s.inPos s.outPos s.outState s.outTarget := by
  simp only [adaptersOk, Bool.and_eq_true, Bool.or_eq_true, beq_iff_eq, bne_iff_ne, decide_eq_true_eq]
  constructor
  · rintro ⟨⟨⟨hin, hout⟩, htarget⟩, hinit⟩
    rw [one_sub_div_eq hout] at htarget
    exact ⟨hin, hout, fun h => htarget.resolve_left h, fun h => hinit.resolve_left (not_not.2 h)⟩
  · rintro ⟨hin, hout, htarget, hinit⟩
    rw [one_sub_div_eq hout]
    exact ⟨⟨⟨hin, hout⟩, Classical.or_iff_not_imp_left.2 htarget⟩,
      Classical.or_iff_not_imp_left.2 fun h => hinit (not_not.1 h)⟩

/-- A region's first frame is in half 0, which leaves half 1 to software (R118). -/
theorem HalvesOwned.atStart {n inPos : Nat} {st : AdapterState} {target : Half} (hin : inPos < 2 * n)
    (ht : halfNumber target = 1) : HalvesOwned n inPos 0 st target where
  inPos_lt := hin
  outPos_lt := Nat.zero_lt_of_lt hin
  target_eq _ := by rw [ht, if_pos (by omega)]
  init_pos _ := rfl

theorem HalvesOwned.withInPos {n inPos outPos p : Nat} {st : AdapterState} {target : Half}
    (h : HalvesOwned n inPos outPos st target) (hp : p < 2 * n) : HalvesOwned n p outPos st target :=
  { h with inPos_lt := hp }

theorem HalvesOwned.zero_lt {n inPos outPos : Nat} {st : AdapterState} {target : Half}
    (h : HalvesOwned n inPos outPos st target) : 0 < 2 * n :=
  Nat.zero_lt_of_lt h.inPos_lt

/-- INIT puts the output engine at the region's start, START leaves it there, the INIT and START of the input adapter
put its engine at the start of its region, and no other command writes these fields (R111, R113, R118, R120). -/
theorem Effected.halvesOwned {i : Instr} {s t : State} (h : Effected i s t)
    (hs : HalvesOwned s.cfg.n s.inPos s.outPos s.outState s.outTarget) :
    HalvesOwned s.cfg.n t.inPos t.outPos t.outState t.outTarget := by
  cases h <;> subst t
  case inInit => simpa using hs.withInPos hs.zero_lt
  case inStart => exact hs.withInPos hs.zero_lt
  case outInit => simpa using HalvesOwned.atStart (target := .half1) hs.inPos_lt rfl
  case outStart _ hinit =>
    have htarget := hs.target_eq (by simp [hinit])
    have hlt := hs.outPos_lt
    rw [hs.init_pos hinit] at htarget hlt
    exact HalvesOwned.atStart hs.inPos_lt (htarget.trans (if_pos (by omega)))
  all_goals simpa using hs

theorem halfNumber_otherHalf (h : Half) : halfNumber (otherHalf h) = 1 - halfNumber h := by cases h <;> rfl

/-- Inside a half the engine stays in it; at the end of a half it goes on to the other one, and the event's toggle
gives software the half it has left (R124, R125). -/
theorem outputStep_halvesOwned {s : State} (hrun : s.outState = .running)
    (hs : HalvesOwned s.cfg.n s.inPos s.outPos s.outState s.outTarget) :
    HalvesOwned s.cfg.n (outputStep s).inPos (outputStep s).outPos (outputStep s).outState (outputStep s).outTarget := by
  have htarget := hs.target_eq (by simp [hrun])
  have hlt := hs.outPos_lt
  obtain ⟨hend, h⟩ | ⟨_, hend, h⟩ | ⟨_, _, h⟩ := outputStep_cases s <;> rw [h]
  · rw [if_pos (by omega)] at htarget
    exact ⟨hs.inPos_lt, by simp; omega, fun _ => by simp [halfNumber_otherHalf, htarget], by simp [hrun]⟩
  · rw [if_neg (by omega)] at htarget
    exact HalvesOwned.atStart hs.inPos_lt (by simp [halfNumber_otherHalf, htarget])
  · have hhalf : s.outPos + 1 < s.cfg.n ↔ s.outPos < s.cfg.n := by omega
    exact ⟨hs.inPos_lt, Nat.lt_of_le_of_ne hlt ‹_›, fun _ => by simpa [hhalf] using htarget, by simp [hrun]⟩

/-- Settles O27: the input engine's position wraps, the output engine keeps to its half until its event toggles the
target, and commands move an engine only to the start of its region. -/
theorem stepKeepsHalfOwnership : Obligations.StepKeepsHalfOwnership := by
  intro s t hs h
  rw [adaptersOk_iff] at hs ⊢
  rw [(step_next h).cfg_eq]
  cases step_next h
  case command i ws ms _ _ he => exact he.halvesOwned hs
  all_goals subst t
  case input raw ms _ => exact hs.withInPos (Nat.mod_lt _ hs.zero_lt)
  case output ms _ hrun => exact outputStep_halvesOwned (s := { s with moves := ms }) hrun hs
  case evicted => simpa using hs
  all_goals exact hs

end Sys2Proof.Machine
end

section
/-! The engines' steps as whole states (R76, R114, R124, R125, R130). -/

namespace Sys2Proof.Machine

open Sys2Proof

/-- A move that is not the host's is taken by its agent. -/
theorem step_of_moves_agent {s : State} {m : Move} {ms : List Move} (ha : admits s.cfg = true)
    (hm : s.moves = m :: ms) (hne : m ≠ .host) : step s = .next (agentStep m { s with moves := ms }) := by
  refine step_of_turn_moved ha ?_
  cases m with
  | host => exact absurd rfl hne
  | inputEngine raw => simp only [turn, hm]
  | outputEngine => simp only [turn, hm]
  | dispatch => simp only [turn, hm]
  | evict la => simp only [turn, hm]

/-- A 16-bit element is written as its two bytes, the low one first (R62). -/
theorem memWrite_elem (m : Memory) (a : Nat) (v : BitVec 16) :
    memWrite m a 2 v.toNat = memSet (memSet m a (v.extractLsb' 0 8)) (a + 1) (v.extractLsb' 8 8) := by
  have hlow : BitVec.ofNat 8 v.toNat = v.extractLsb' 0 8 := rfl
  have hhigh : BitVec.ofNat 8 (v.toNat / 256) = v.extractLsb' 8 8 := by
    rw [BitVec.extractLsb', Nat.shiftRight_eq_div_pow]
  rw [memWrite, memWrite, memWrite, hlow, hhigh]

/-- Settles O24: the two bytes are written at two different addresses, and the step writes nothing else. -/
theorem inputEngineStep : Obligations.InputEngineStep := by
  intro s raw ms ha hm hrun a
  refine ⟨memWrite s.mem a 2 raw.toNat, ?_, ?_, ?_, fun b hb hb' => ?_⟩
  · rw [step_of_moves_agent ha hm Move.noConfusion, agentStep, if_pos hrun]
    rfl
  · rw [memWrite_elem, memByte_memSet, if_neg (by omega), memByte_memSet, if_pos rfl]
  · rw [memWrite_elem, memByte_memSet, if_pos rfl]
  · exact memByte_memWrite_outside _ _ (by omega)

/-- Counting, as the number stored: one more, stopping at `2^32 - 1`, if the event happened (R27). -/
theorem countIf_eq (b : Bool) (c : Word) :
    countIf b c = BitVec.ofNat 32 (if b then min (2 ^ 32 - 1) (c.toNat + 1) else c.toNat) := by
  cases b with
  | false => simp [countIf]
  | true => rfl

theorem otherHalf_eq (h : Half) : otherHalf h = if h = .half0 then .half1 else .half0 := by cases h <;> rfl

theorem n_pos_of_admits {c : Cfg} (hc : admits c = true) : 0 < c.n := by
  have hsizes := (admits_iff.1 hc).1
  simp only [admitsSizes, Bool.and_eq_true, decide_eq_true_eq, and_assoc] at hsizes
  exact hsizes.2.1

/-- Settles O25: the three ways the output-engine step can go, the event written out for the two halves. -/
theorem outputEngineStep : Obligations.OutputEngineStep := by
  intro s ms ha hm hrun frame count
  have hcount (c : Word) (b : Bool) : count c b = countIf b c := (countIf_eq b c).symm
  have hn := n_pos_of_admits ha
  rw [step_of_moves_agent ha hm Move.noConfusion, agentStep, if_pos hrun]
  simp only [hcount, ← otherHalf_eq]
  obtain ⟨hend, h⟩ | ⟨hin, hend, h⟩ | ⟨h0, h1, h⟩ := outputStep_cases { s with moves := ms } <;> rw [h]
  · exact ⟨fun hne => absurd hend hne, fun _ => rfl, fun h' => by dsimp only at hend; omega⟩
  · exact ⟨fun _ hne => absurd hend hne, fun h' => absurd h' hin, fun _ => rfl⟩
  · exact ⟨fun _ _ => rfl, fun h' => absurd h' h0, fun h' => absurd h' h1⟩

/-- No command emits a frame (R130). -/
theorem Effected.sink_eq {i : Instr} {s t : State} (h : Effected i s t) : t.sink = s.sink := by
  cases h <;> subst t <;> simp

/-- The output-engine step emits one frame, event or not (R124). -/
theorem outputStep_sink (s : State) : (outputStep s).sink = s.sink ++ [outFrame s] := by
  obtain ⟨_, h⟩ | ⟨_, _, h⟩ | ⟨_, _, h⟩ := outputStep_cases s <;> rw [h] <;> simp [emitFrame]

theorem outFrame_length (s : State) : (outFrame s).length = s.cfg.outCh := by simp [outFrame]

/-- Settles O26: of all the steps only a running output engine's writes the sink. -/
theorem sinkGrowsByEngineOnly : Obligations.SinkGrowsByEngineOnly := by
  intro s t h
  cases step_next h
  case command i ws ms _ _ he => exact .inl he.sink_eq
  all_goals subst t
  case output ms hm hrun =>
    exact .inr ⟨⟨ms, hm⟩, hrun, _, outputStep_sink { s with moves := ms }, outFrame_length _⟩
  case evicted => exact .inl (by simp)
  all_goals exact .inl rfl

end Sys2Proof.Machine
end

section
/-! The adapters' commands out of their lifecycle states, START, and the input transform (R111 to R121, R244). -/

namespace Sys2Proof.Machine

open Sys2Proof

/-- Settles O18: the state is checked before the draw is made, and a failing draw ends the command. -/
theorem initErrors : Obligations.InitErrors := by
  intro s
  refine ⟨fun hs => ?_, fun hs => ?_, fun hs hd => ?_, fun hs hd => ?_⟩
  · rw [exec, execInInit, if_neg hs]; rfl
  · rw [exec, execOutInit, if_neg hs]; rfl
  · rw [exec, execInInit, if_pos hs, initAnswer, hd]; rfl
  · rw [exec, execOutInit, if_pos hs, initAnswer, hd]; rfl

/-- Settles O19: START's only check is of the adapter's state. -/
theorem startCommands : Obligations.StartCommands := by
  intro s
  refine ⟨fun hs => ?_, fun hs => ?_, fun hs => ?_, fun hs => ?_⟩
  · rw [exec, execInStart, if_pos hs]; rfl
  · rw [exec, execInStart, if_neg hs]; rfl
  · rw [exec, execOutStart, if_pos hs]; rfl
  · rw [exec, execOutStart, if_neg hs]; rfl

/-- Settles O22: the state is checked after the buffer's number and before its cells are read. -/
theorem copyStateErrors : Obligations.CopyStateErrors := by
  intro b s hb
  refine ⟨fun hs => ?_, fun hs => ?_⟩
  · rw [exec, execInGetBlock, withBlock_of_lt _ hb, if_neg hs]; rfl
  · rw [exec, execOutPutBlock, withBlock_of_lt _ hb, if_pos hs]; rfl

/-- Settles O23: the shifted element is below `2^16`, so that the difference is a Sample and is stored exactly. -/
theorem inputTransformExact : Obligations.InputTransformExact := by
  intro adcBits raw _ hbits
  have hshift : raw.toNat % 2 ^ adcBits * 2 ^ (16 - adcBits) < 65536 := by
    calc raw.toNat % 2 ^ adcBits * 2 ^ (16 - adcBits)
        < 2 ^ adcBits * 2 ^ (16 - adcBits) :=
          Nat.mul_lt_mul_of_pos_right (Nat.mod_lt _ (Nat.two_pow_pos _)) (Nat.two_pow_pos _)
      _ = 65536 := by rw [← Nat.pow_add, Nat.add_sub_cancel' hbits]
  have hpos : (0 : Int) ≤ (raw.toNat % 2 ^ adcBits : Nat) * 2 ^ (16 - adcBits) := by positivity
  have hlt : ((raw.toNat % 2 ^ adcBits : Nat) : Int) * 2 ^ (16 - adcBits) < 65536 := by exact_mod_cast hshift
  exact sample16_toInt (by omega) (by omega)

end Sys2Proof.Machine
end

section
/-! What the accesses and maintenance operations of the cache write: region memory and the cache, and nothing else
(R70 to R75); and which lines an operation over whole lines leaves (R66, R74, R75). -/

namespace Sys2Proof.Machine

open Sys2Proof

/-- `t` is `s` but for region memory and the cache. -/
def MemoryOnly (s t : State) : Prop := t = { s with mem := t.mem, cache := t.cache }

theorem MemoryOnly.eq {s t : State} (h : MemoryOnly s t) : t = { s with mem := t.mem, cache := t.cache } := h

theorem MemoryOnly.trans {s t u : State} (h1 : MemoryOnly s t) (h2 : MemoryOnly t u) : MemoryOnly s u := by
  rw [MemoryOnly, h2.eq, h1.eq]

theorem invalidate_memoryOnly (s : State) (lo hi : Nat) : MemoryOnly s (invalidate s lo hi) := by
  unfold MemoryOnly invalidate
  split <;> rfl

theorem clean_memoryOnly (s : State) (lo hi : Nat) : MemoryOnly s (clean s lo hi) := by
  unfold MemoryOnly clean
  split <;> rfl

theorem touchLine_memoryOnly (s : State) (a : Nat) : MemoryOnly s (touchLine s a) := by
  unfold MemoryOnly touchLine
  split <;> rfl

theorem hostWriteByte_memoryOnly (s : State) (a : Nat) (v : Byte) : MemoryOnly s (hostWriteByte s a v) := by
  unfold MemoryOnly hostWriteByte
  split <;> rfl

theorem touchInHalf_memoryOnly (s : State) (h : Half) : MemoryOnly s (touchInHalf s h) :=
  touchInHalf_induction (fun t a ht => ht.trans (touchLine_memoryOnly t a)) h rfl

theorem writeFrames_memoryOnly (s : State) (a : Nat) (xs : List Sample) : MemoryOnly s (writeFrames s a xs) :=
  writeFrames_induction (fun t b v _ _ _ ht => ht.trans (hostWriteByte_memoryOnly t b v)) rfl rfl

theorem cleanInvalidate_memoryOnly (s : State) (lo hi : Nat) : MemoryOnly s (cleanInvalidate s lo hi) :=
  (clean_memoryOnly s lo hi).trans (invalidate_memoryOnly _ lo hi)

theorem cleanInvalidate_cache (s : State) (lo hi : Nat) :
    (cleanInvalidate s lo hi).cache = (invalidate s lo hi).cache := by
  cases hp : s.cfg.cachePresent
  · rw [cleanInvalidate_of_absent hp, invalidate_cache, if_neg (by simp [hp])]
  · rw [cleanInvalidate_cache_eq_filter hp, invalidate_cache, if_pos hp]

/-- Over whole lines, a line's range meets the bytes exactly when it starts among them (R66, R74). -/
theorem lineInRange_iff_start {c : Cfg} {lo n : Nat} {l : CacheLine} (hlo : c.cacheLine ∣ lo) (hn : c.cacheLine ∣ n)
    (hpos : 0 < n) :
    lineInRange c lo (lo + n - 1) l = true ↔ lo ≤ l.la * c.cacheLine ∧ l.la * c.cacheLine < lo + n := by
  have hline : 0 < c.cacheLine := Nat.pos_of_dvd_of_pos hn hpos
  constructor
  · intro h
    obtain ⟨h1, h2⟩ := lineInRange_bytes hlo hn hpos h
    omega
  · rintro ⟨h1, h2⟩
    exact lineInRange_of_mem (Nat.mul_div_cancel _ hline).symm h1 (by omega)

/-- With a cache, invalidating whole lines leaves exactly the lines outside them; with none it does nothing (R74). -/
theorem mem_invalidate_cache {s : State} {lo n : Nat} {l : CacheLine} (hlo : s.cfg.cacheLine ∣ lo)
    (hn : s.cfg.cacheLine ∣ n) (hpos : 0 < n) :
    l ∈ (invalidate s lo (lo + n - 1)).cache ↔ l ∈ s.cache ∧ (s.cfg.cachePresent = true →
      l.la * s.cfg.cacheLine < lo ∨ lo + n ≤ l.la * s.cfg.cacheLine) := by
  rw [invalidate_cache]
  split
  · next hp =>
    rw [List.mem_filter, Bool.not_eq_true', ← Bool.not_eq_true, lineInRange_iff_start hlo hn hpos]
    simp only [hp, forall_const]
    refine and_congr_right fun _ => ?_
    omega
  · next hp => simp [hp]

theorem CacheFormed.present_of_mem {c : Cfg} {ls : List CacheLine} (h : CacheFormed c ls) {l : CacheLine} (hl : l ∈ ls) :
    c.cachePresent = true := by
  cases hp : c.cachePresent
  · rw [h.absent hp] at hl
    cases hl
  · rfl

/-- In a well-formed cache no line survives the invalidation of its bytes, and every other one does (R74). -/
theorem CacheFormed.mem_invalidate {s : State} (h : CacheFormed s.cfg s.cache) {lo n : Nat} {l : CacheLine}
    (hlo : s.cfg.cacheLine ∣ lo) (hn : s.cfg.cacheLine ∣ n) (hpos : 0 < n) :
    l ∈ (invalidate s lo (lo + n - 1)).cache ↔
      l ∈ s.cache ∧ (l.la * s.cfg.cacheLine < lo ∨ lo + n ≤ l.la * s.cfg.cacheLine) := by
  rw [mem_invalidate_cache hlo hn hpos]
  exact and_congr_right fun hl => by simp [h.present_of_mem hl]

/-- Each half of the input region starts on a line and is whole lines (R66). -/
theorem admitsRegions_inHalf_aligned {c : Cfg} (hc : admitsRegions c = true) (h : Half) :
    c.cacheLine ∣ inHalfBase c h ∧ c.cacheLine ∣ inHalfBytes c := by
  simp only [admitsRegions, Bool.and_eq_true, beq_iff_eq, and_assoc] at hc
  obtain ⟨_, hbytes, _, hbase, _⟩ := hc
  have hbytes := Nat.dvd_of_mod_eq_zero hbytes
  exact ⟨(Nat.dvd_of_mod_eq_zero hbase).add (hbytes.mul_right _), hbytes⟩

theorem inHalfBytes_pos {c : Cfg} (hc : admits c = true) : 0 < inHalfBytes c :=
  Nat.mul_pos Nat.two_pos (n_pos_of_admits hc)

theorem cacheLine_pos_of_admits {c : Cfg} (hc : admits c = true) : 0 < c.cacheLine :=
  Nat.pos_of_dvd_of_pos (admitsRegions_inHalf_aligned (admits_iff.1 hc).2.1 .half0).2 (inHalfBytes_pos hc)

end Sys2Proof.Machine
end

section
/-! INIT with a succeeding draw (R74, R111, R112, R118). -/

namespace Sys2Proof.Machine

open Sys2Proof

/-- Clearing a region: its bytes are zeroed and its lines invalidated (R111, R118). -/
theorem memByte_clearInRegion (s : State) (a : Nat) :
    memByte (clearInRegion s).mem a = if inInRegion s.cfg a = true then 0 else memByte s.mem a := by
  simp [memByte_memZero, inInRegion]

theorem memByte_clearOutRegion (s : State) (a : Nat) :
    memByte (clearOutRegion s).mem a = if inOutRegion s.cfg a = true then 0 else memByte s.mem a := by
  simp [memByte_memZero, inOutRegion]

theorem inInRegion_eq_false_iff {c : Cfg} {a : Nat} :
    inInRegion c a = false ↔ a < c.inBase ∨ c.inBase + 2 * inHalfBytes c ≤ a := by
  simp only [inInRegion, Bool.and_eq_false_iff, decide_eq_false_iff_not, Nat.not_le, Nat.not_lt]

theorem inOutRegion_eq_false_iff {c : Cfg} {a : Nat} :
    inOutRegion c a = false ↔ a < c.outBase ∨ c.outBase + 2 * outHalfBytes c ≤ a := by
  simp only [inOutRegion, Bool.and_eq_false_iff, decide_eq_false_iff_not, Nat.not_le, Nat.not_lt]

theorem mem_clearInRegion_cache {s : State} (ha : admits s.cfg = true) (hf : CacheFormed s.cfg s.cache)
    (l : CacheLine) :
    l ∈ (clearInRegion s).cache ↔ l ∈ s.cache ∧ inInRegion s.cfg (l.la * s.cfg.cacheLine) = false := by
  obtain ⟨hbase, hbytes⟩ := admitsRegions_inHalf_aligned (admits_iff.1 ha).2.1 .half0
  rw [inInRegion_eq_false_iff]
  exact CacheFormed.mem_invalidate (s := { s with mem := memZero s.mem s.cfg.inBase (2 * inHalfBytes s.cfg) }) hf
    hbase (hbytes.mul_left 2) (Nat.mul_pos Nat.two_pos (inHalfBytes_pos ha))

theorem mem_clearOutRegion_cache {s : State} (ha : admits s.cfg = true) (hf : CacheFormed s.cfg s.cache)
    (l : CacheLine) :
    l ∈ (clearOutRegion s).cache ↔ l ∈ s.cache ∧ inOutRegion s.cfg (l.la * s.cfg.cacheLine) = false := by
  obtain ⟨hsizes, hregions, _⟩ := admits_iff.1 ha
  obtain ⟨hbase, hbytes⟩ := admitsRegions_outHalf_aligned hregions .half0
  rw [inOutRegion_eq_false_iff]
  exact CacheFormed.mem_invalidate (s := { s with mem := memZero s.mem s.cfg.outBase (2 * outHalfBytes s.cfg) }) hf
    hbase (hbytes.mul_left 2) (Nat.mul_pos Nat.two_pos (outHalfBytes_pos hsizes))

theorem clearInRegion_memoryOnly (s : State) : MemoryOnly s (clearInRegion s) :=
  MemoryOnly.trans (t := { s with mem := memZero s.mem s.cfg.inBase (2 * inHalfBytes s.cfg) }) rfl
    (invalidate_memoryOnly _ _ _)

theorem clearOutRegion_memoryOnly (s : State) : MemoryOnly s (clearOutRegion s) :=
  MemoryOnly.trans (t := { s with mem := memZero s.mem s.cfg.outBase (2 * outHalfBytes s.cfg) }) rfl
    (invalidate_memoryOnly _ _ _)

/-- Settles O16: the command is the clearing of the input region, with the adapter's fields and the draw. -/
theorem inInitCompletes : Obligations.InInitCompletes := by
  intro s ha hf hs hd
  refine ⟨(clearInRegion (takeInitDraw s)).mem, (clearInRegion (takeInitDraw s)).cache, ?_,
    memByte_clearInRegion (takeInitDraw s), mem_clearInRegion_cache (s := takeInitDraw s) ha (cacheOk_iff.1 hf)⟩
  rw [exec, execInInit, if_pos hs, initAnswer, hd, if_pos rfl, inInitDone,
    (clearInRegion_memoryOnly (takeInitDraw s)).eq]
  rfl

/-- Settles O17: the command is the clearing of the output region, with the adapter's fields and the draw. -/
theorem outInitCompletes : Obligations.OutInitCompletes := by
  intro s ha hf hs hd
  refine ⟨(clearOutRegion (takeInitDraw s)).mem, (clearOutRegion (takeInitDraw s)).cache, ?_,
    memByte_clearOutRegion (takeInitDraw s), mem_clearOutRegion_cache (s := takeInitDraw s) ha (cacheOk_iff.1 hf)⟩
  rw [exec, execOutInit, if_pos hs, initAnswer, hd, if_pos rfl, outInitDone,
    (clearOutRegion_memoryOnly (takeInitDraw s)).eq]
  rfl

end Sys2Proof.Machine
end

section
/-! IN_GET_BLOCK: the elements read from memory and the lines of the half (R71, R74, R115, R116). -/

namespace Sys2Proof.Machine

open Sys2Proof

theorem seenLine_la (s : State) (a : Nat) : (seenLine s a).la = lineOf s.cfg a := by
  unfold seenLine
  cases h : cacheFind s.cache (lineOf s.cfg a) with
  | none => rfl
  | some l => exact cacheFind_la h

/-- The address of a byte, from its line's first address and its place in the line (R70). -/
theorem lineOf_mul_add_mod (c : Cfg) (a : Nat) : lineOf c a * c.cacheLine + a % c.cacheLine = a := by
  rw [lineOf, Nat.mul_comm, Nat.div_add_mod]

/-- Where the byte's line is not valid, the host reads memory (R71). -/
theorem hostByte_of_not_valid {s : State} {a : Nat} (hline : 0 < s.cfg.cacheLine)
    (h : s.cfg.cachePresent = true → cacheFind s.cache (lineOf s.cfg a) = none) : hostByte s a = memByte s.mem a := by
  unfold hostByte
  split
  · next hp =>
    rw [seenLine, h hp, Option.getD_none, filledLine, memBytes_getD _ _ _ _ (Nat.mod_lt _ hline),
      lineOf_mul_add_mod]
  · rfl

/-- After an invalidation the host reads memory's bytes, whatever the cache held (R71, R74). -/
theorem hostByte_invalidate {s : State} {lo hi a : Nat} (hline : 0 < s.cfg.cacheLine) (h1 : lo ≤ a) (h2 : a ≤ hi) :
    hostByte (invalidate s lo hi) a = memByte s.mem a := by
  rw [hostByte_of_not_valid (by simpa using hline), invalidate_mem]
  intro hp
  rw [cacheFind_none, invalidate_cache, if_pos (by simpa using hp)]
  intro l hl hla
  rw [invalidate_cfg] at hla
  have hin := lineInRange_of_mem hla h1 h2
  simp [List.mem_filter, hin] at hl

theorem inHalfBytes_eq (c : Cfg) : inHalfBytes c = 2 * c.n := rfl

/-- IN_GET_BLOCK reads the half as memory holds it (R77, R116). -/
theorem inSamples_inHalfReady {s : State} (hline : 0 < s.cfg.cacheLine) (h : Half) :
    inSamples (inHalfReady s h) h = (List.range s.cfg.n).map (fun i =>
      inTransform s.cfg.adcBits (memElem s.mem (inHalfBase s.cfg h + 2 * i))) := by
  rw [inSamples, inHalfReady_cfg]
  refine List.map_congr_left fun i hi => ?_
  have hi : i < s.cfg.n := List.mem_range.1 hi
  have hbytes := inHalfBytes_eq s.cfg
  rw [hostElem, memElem_eq, inHalfReady, hostByte_invalidate hline (by omega) (by omega),
    hostByte_invalidate hline (by omega) (by omega)]

/-- What the reading of a half does at each of its bytes, the whole reading does (R68, R71). -/
theorem touchInHalf_induction_within {P : State → Prop} {s : State} {h : Half}
    (hline : ∀ t a, t.cfg = s.cfg → inHalfBase s.cfg h ≤ a → a ≤ inHalfBase s.cfg h + inHalfBytes s.cfg - 1 → P t →
      P (touchLine t a)) (hs : P s) : P (touchInHalf s h) := by
  refine (List.foldlRecOn (motive := fun t => t.cfg = s.cfg ∧ P t) _ _ ⟨rfl, hs⟩ ?_).2
  rintro t ⟨hc, ht⟩ i hi
  have hi : i < s.cfg.n := List.mem_range.1 hi
  have hbytes := inHalfBytes_eq s.cfg
  exact ⟨by simp [hc], hline _ _ (by simp [hc]) (by omega) (by omega) (hline _ _ hc (by omega) (by omega) ht)⟩

/-- Reading a half puts lines of its own bytes and of no others (R71). -/
theorem mem_touchInHalf_cache {s : State} {h : Half} {l : CacheLine}
    (hl : lineInRange s.cfg (inHalfBase s.cfg h) (inHalfBase s.cfg h + inHalfBytes s.cfg - 1) l = false) :
    l ∈ (touchInHalf s h).cache ↔ l ∈ s.cache := by
  refine touchInHalf_induction_within (P := fun t => l ∈ t.cache ↔ l ∈ s.cache) (fun t a hc h1 h2 ht => ?_) Iff.rfl
  rw [touchLine_cache]
  split
  · refine (mem_cachePut_other fun hla => ?_).trans ht
    rw [seenLine_la, hc] at hla
    rw [lineInRange_of_mem hla h1 h2] at hl
    cases hl
  · exact ht

theorem halfNumber_inHalf (s : State) : halfNumber (inHalf s) = if s.inPos < s.cfg.n then 1 else 0 := by
  unfold inHalf
  split <;> rfl

/-- The reads change the cache alone, and the buffer is what they read (R116). -/
theorem getBlock_eq (dst : Nat) (s : State) :
    getBlock dst s = { s with
      cache := (getBlock dst s).cache
      blk := s.blk.set dst ((inSamples (inHalfReady s (inHalf s)) (inHalf s)).map some) } := by
  have hread := ((invalidate_memoryOnly _ _ _).trans (touchInHalf_memoryOnly (inHalfReady s (inHalf s)) (inHalf s))).eq
  have hmem : (touchInHalf (inHalfReady s (inHalf s)) (inHalf s)).mem = s.mem := by simp [inHalfReady]
  rw [hmem] at hread
  rw [getBlock, writeBlock, hread]

/-- Settles O20: the half's lines are dropped before it is read, so that memory is what is read, and the reads put lines
of that half only. -/
theorem inGetBlockCompletes : Obligations.InGetBlockCompletes := by
  intro dst s ha hdst hrun h lo
  have hh : halfNumber (inHalf s) = h := halfNumber_inHalf s
  have hlo : inHalfBase s.cfg (inHalf s) = lo := by rw [inHalfBase, hh]; rfl
  obtain ⟨hbase, hbytes⟩ := admitsRegions_inHalf_aligned (admits_iff.1 ha).2.1 (inHalf s)
  have hpos := inHalfBytes_pos ha
  have hline := cacheLine_pos_of_admits ha
  refine ⟨(getBlock dst s).cache, ?_, fun l hl => ?_⟩
  · rw [exec, execInGetBlock, withBlock_of_lt _ hdst, if_pos hrun, getBlock_eq, inSamples_inHalfReady hline, hh, hlo,
      List.map_map]
    rfl
  · have hout : lineInRange s.cfg (inHalfBase s.cfg (inHalf s))
        (inHalfBase s.cfg (inHalf s) + inHalfBytes s.cfg - 1) l = false := by
      rw [← Bool.not_eq_true, lineInRange_iff_start hbase hbytes hpos, hlo, inHalfBytes_eq]
      omega
    rw [getBlock_cache, mem_touchInHalf_cache (by rwa [inHalfReady_cfg]), inHalfReady,
      mem_invalidate_cache hbase hbytes hpos, hlo]
    exact and_iff_left fun _ => hl

end Sys2Proof.Machine
end

section
/-! What the host has written through the cache, and that cleaning brings it to memory (R61, R70, R72, R75). -/

namespace Sys2Proof.Machine

open Sys2Proof

/-- The host has written `v` at byte `b`: the byte's line is valid and dirty and holds `v`, or, with no cache, memory
does (R72). -/
structure HostWritten (s : State) (b : Nat) (v : Byte) : Prop where
  present : s.cfg.cachePresent = true → ∃ l, cacheFind s.cache (lineOf s.cfg b) = some l ∧ l.dirty = true
    ∧ l.data.getD (b % s.cfg.cacheLine) 0#8 = v
  absent : s.cfg.cachePresent = false → memByte s.mem b = v

/-- The byte a host write writes (R72). -/
theorem hostWriteByte_hostWritten {s : State} (hf : CacheFormed s.cfg s.cache) (hline : 0 < s.cfg.cacheLine) (a : Nat)
    (v : Byte) : HostWritten (hostWriteByte s a v) a v where
  present hp := by
    rw [hostWriteByte_cfg] at hp ⊢
    rw [hostWriteByte_cache, if_pos hp]
    refine ⟨writtenLine s a v, cacheFind_cachePut_same _ _, rfl, ?_⟩
    have hlt : a % s.cfg.cacheLine < (seenLine s a).data.length := by rw [hf.seenLine_length]; exact Nat.mod_lt _ hline
    simp [writtenLine, hlt]
  absent hp := by
    rw [hostWriteByte_cfg] at hp
    rw [hostWriteByte_mem, if_neg (by simp [hp]), memByte_memSet, if_pos rfl]

/-- Two addresses of one line have different places in it (R70). -/
theorem mod_ne_of_lineOf_eq {c : Cfg} {a b : Nat} (h : lineOf c a = lineOf c b) (hne : a ≠ b) :
    a % c.cacheLine ≠ b % c.cacheLine := fun hmod =>
  hne (by rw [← lineOf_mul_add_mod c a, ← lineOf_mul_add_mod c b, h, hmod])

/-- A host write leaves what was written at every other byte, in its own line too (R72). -/
theorem HostWritten.hostWriteByte {s : State} {b : Nat} {w : Byte} (h : HostWritten s b w) {a : Nat} (v : Byte)
    (hne : a ≠ b) : HostWritten (hostWriteByte s a v) b w where
  present hp := by
    rw [hostWriteByte_cfg] at hp ⊢
    rw [hostWriteByte_cache, if_pos hp]
    obtain ⟨l, hl, hd, hw⟩ := h.present hp
    by_cases hab : lineOf s.cfg a = lineOf s.cfg b
    · have hfind := cacheFind_cachePut_same s.cache (writtenLine s a v)
      refine ⟨writtenLine s a v, hab ▸ hfind, rfl, ?_⟩
      have hseen : seenLine s a = l := by rw [seenLine, hab, hl, Option.getD_some]
      rw [← hw, writtenLine, hseen, List.getD_eq_getElem?_getD, List.getElem?_set_ne (mod_ne_of_lineOf_eq hab hne),
        List.getD_eq_getElem?_getD]
    · exact ⟨l, (cacheFind_cachePut_other _ _ _ (Ne.symm hab)).trans hl, hd, hw⟩
  absent hp := by
    rw [hostWriteByte_cfg] at hp
    rw [hostWriteByte_mem, if_neg (by simp [hp]), memByte_memSet, if_neg hne.symm, h.absent hp]

theorem cacheFind_of_mem_risesFrom {ls : List CacheLine} {lo : Nat} (h : cacheRisesFrom lo ls) {l : CacheLine}
    (hl : l ∈ ls) : cacheFind ls l.la = some l := by
  induction ls generalizing lo with
  | nil => cases hl
  | cons k ls ih =>
    obtain ⟨_, hrest⟩ := h
    obtain rfl | hl := List.mem_cons.1 hl
    · rw [cacheFind, if_pos rfl]
    · have := cacheRisesFrom_le hrest l hl
      rw [cacheFind, if_neg (by omega), ih hrest hl]

/-- In a well-formed cache a valid line is the line found at its number (R70). -/
theorem CacheFormed.cacheFind_of_mem {c : Cfg} {ls : List CacheLine} (h : CacheFormed c ls) {l : CacheLine}
    (hl : l ∈ ls) : cacheFind ls l.la = some l :=
  cacheFind_of_mem_risesFrom ((cacheWf_iff ls).1 h.rises) hl

/-- A dirty line's bytes are in memory once it is written back (R73). -/
theorem memByte_writeBack_inside {c : Cfg} {l : CacheLine} {b : Nat} (m : Memory) (hline : 0 < c.cacheLine)
    (hlen : l.data.length = c.cacheLine) (hd : l.dirty = true) (hla : l.la = lineOf c b) :
    memByte (writeBack c m l) b = l.data.getD (b % c.cacheLine) 0#8 := by
  have hb := lineOf_mul_add_mod c b
  have hlt := Nat.mod_lt b hline
  rw [writeBack_of_dirty hd, memByte_memWriteBytes, hla, hlen, if_pos (by omega)]
  congr 1
  omega

/-- A line of another number than the byte's is written back elsewhere (R73). -/
theorem memByte_writeBack_other {c : Cfg} {l : CacheLine} {b : Nat} (m : Memory) (hlen : l.data.length = c.cacheLine)
    (hla : l.la ≠ lineOf c b) : memByte (writeBack c m l) b = memByte m b := by
  refine memByte_writeBack_outside m ?_
  rw [hlen]
  by_contra hin
  refine hla (Nat.div_eq_of_lt_le ?_ ?_).symm
  · omega
  · rw [Nat.succ_mul]; omega

/-- Writing lines back, the byte's own dirty line among them and no other of its number, brings that line's byte to
memory (R75). -/
theorem memByte_foldl_writeBack {c : Cfg} {l : CacheLine} {b : Nat} (hline : 0 < c.cacheLine) (hd : l.dirty = true)
    (hla : l.la = lineOf c b) {ls : List CacheLine} (hls : ∀ k ∈ ls, k.data.length = c.cacheLine ∧ (k.la = l.la → k = l))
    {m : Memory} (h : l ∈ ls ∨ memByte m b = l.data.getD (b % c.cacheLine) 0#8) :
    memByte (ls.foldl (writeBack c) m) b = l.data.getD (b % c.cacheLine) 0#8 := by
  induction ls generalizing m with
  | nil => exact h.resolve_left List.not_mem_nil
  | cons k ls ih =>
    obtain ⟨hlen, hk⟩ := hls k List.mem_cons_self
    refine ih (fun j hj => hls j (List.mem_cons_of_mem _ hj)) ?_
    by_cases hkl : k = l
    · subst hkl
      exact .inr (memByte_writeBack_inside m hline hlen hd hla)
    · rw [memByte_writeBack_other m hlen fun hkb => hkl (hk (hkb.trans hla.symm))]
      exact h.imp_left fun hl => (List.mem_cons.1 hl).resolve_left (Ne.symm hkl)

/-- `CleanInvalidate` brings to memory what the host has written among its bytes (R75). -/
theorem memByte_cleanInvalidate_of_hostWritten {s : State} {lo hi b : Nat} {v : Byte}
    (hf : CacheFormed s.cfg s.cache) (hline : 0 < s.cfg.cacheLine) (h1 : lo ≤ b) (h2 : b ≤ hi)
    (h : HostWritten s b v) : memByte (cleanInvalidate s lo hi).mem b = v := by
  cases hp : s.cfg.cachePresent
  · rw [cleanInvalidate_of_absent hp, h.absent hp]
  · obtain ⟨l, hl, hd, rfl⟩ := h.present hp
    have hla := cacheFind_la hl
    rw [cleanInvalidate, invalidate_mem, clean, if_pos hp]
    refine memByte_foldl_writeBack hline hd hla (fun k hk => ?_)
      (.inl (List.mem_filter.2 ⟨cacheFind_mem hl, lineInRange_of_mem hla h1 h2⟩))
    have hmem := (List.mem_filter.1 hk).1
    refine ⟨hf.size k hmem, fun hkl => ?_⟩
    have hfind := hf.cacheFind_of_mem hmem
    rw [hkl, hla, hl] at hfind
    exact (Option.some.inj hfind).symm

end Sys2Proof.Machine
end

section
/-! OUT_PUT_BLOCK: every slot of the half, the other bytes, and the lines (R65, R121, R122). -/

namespace Sys2Proof.Machine

open Sys2Proof

/-- The host has written the element `x` at `a`: its two bytes, the low one first (R72). -/
structure ElemWritten (s : State) (a : Nat) (x : Sample) : Prop where
  low : HostWritten s a (x.extractLsb' 0 8)
  high : HostWritten s (a + 1) (x.extractLsb' 8 8)

theorem ElemWritten.hostWriteByte {s : State} {a : Nat} {x : Sample} (h : ElemWritten s a x) {b : Nat} (v : Byte)
    (hb : b < a ∨ a + 1 < b) : ElemWritten (hostWriteByte s b v) a x :=
  ⟨h.low.hostWriteByte v (by omega), h.high.hostWriteByte v (by omega)⟩

theorem ElemWritten.hostWriteElem {s : State} {a : Nat} {x : Sample} (h : ElemWritten s a x) {b : Nat} (v : Sample)
    (hb : b + 1 < a ∨ a + 1 < b) : ElemWritten (hostWriteElem s b v) a x :=
  (h.hostWriteByte _ (by omega)).hostWriteByte _ (by omega)

theorem hostWriteElem_elemWritten {s : State} (hf : CacheFormed s.cfg s.cache) (hline : 0 < s.cfg.cacheLine) (a : Nat)
    (x : Sample) : ElemWritten (hostWriteElem s a x) a x where
  low := (hostWriteByte_hostWritten hf hline a _).hostWriteByte _ (Nat.succ_ne_self a)
  high := hostWriteByte_hostWritten (hostWriteByte_cacheFormed hf a _) (by simpa using hline) (a + 1) _

theorem hostWriteElem_cacheFormed {s : State} (hf : CacheFormed s.cfg s.cache) (a : Nat) (x : Sample) :
    CacheFormed (hostWriteElem s a x).cfg (hostWriteElem s a x).cache :=
  hostWriteByte_cacheFormed (hostWriteByte_cacheFormed hf a _) (a + 1) _

/-- The first `k` channel slots of the frame at `a` are written, each with the sample (R122), in a well-formed
cache. -/
structure SlotsWritten (s : State) (a : Nat) (x : Sample) (k : Nat) : Prop where
  formed : CacheFormed s.cfg s.cache
  line_pos : 0 < s.cfg.cacheLine
  slot : ∀ c < k, ElemWritten s (a + 2 * c) x

theorem SlotsWritten.next {s : State} {a : Nat} {x : Sample} {k : Nat} (h : SlotsWritten s a x k) :
    SlotsWritten (hostWriteElem s (a + 2 * k) x) a x (k + 1) where
  formed := hostWriteElem_cacheFormed h.formed _ x
  line_pos := by simpa using h.line_pos
  slot c hc := by
    obtain hlt | rfl := Nat.lt_succ_iff_lt_or_eq.1 hc
    · exact (h.slot c hlt).hostWriteElem x (by omega)
    · exact hostWriteElem_elemWritten h.formed h.line_pos _ x

theorem writeFrame_slotsWritten {s : State} (hf : CacheFormed s.cfg s.cache) (hline : 0 < s.cfg.cacheLine) (a : Nat)
    (x : Sample) : SlotsWritten (writeFrame s a x) a x s.cfg.outCh := by
  rw [writeFrame]
  induction s.cfg.outCh with
  | zero => exact ⟨hf, hline, fun c hc => absurd hc (Nat.not_lt_zero c)⟩
  | succ k ih =>
    rw [List.range_succ, List.foldl_append]
    exact ih.next

/-- The copy writes sample `i` into every channel slot of frame `i`, and no later frame writes there (R121, R122). -/
theorem writeFrames_elemWritten {xs : List Sample} {s : State} (hf : CacheFormed s.cfg s.cache)
    (hline : 0 < s.cfg.cacheLine) (a : Nat) {i c : Nat} (hi : i < xs.length) (hc : c < s.cfg.outCh) :
    ElemWritten (writeFrames s a xs) (a + 2 * (s.cfg.outCh * i + c)) xs[i] := by
  induction xs generalizing s a i with
  | nil => cases hi
  | cons x xs ih =>
    have hframe := writeFrame_slotsWritten hf hline a x
    rw [writeFrames]
    cases i with
    | zero =>
      rw [Nat.mul_zero, Nat.zero_add]
      exact writeFrames_induction (P := fun t => ElemWritten t (a + 2 * c) x)
        (fun t b v _ hb _ ht => ht.hostWriteByte v (by omega)) rfl (hframe.slot c hc)
    | succ i =>
      have hlater := ih hframe.formed hframe.line_pos (a + 2 * s.cfg.outCh) (Nat.lt_of_succ_lt_succ hi)
        (by simpa using hc)
      have haddr : a + 2 * (s.cfg.outCh * (i + 1) + c) = a + 2 * s.cfg.outCh + 2 * (s.cfg.outCh * i + c) := by ring
      rw [haddr]
      simpa using hlater

/-- An element that the host has written among its bytes is in memory after `CleanInvalidate` (R61, R75). -/
theorem memElem_cleanInvalidate_of_elemWritten {s : State} {lo hi a : Nat} {x : Sample}
    (hf : CacheFormed s.cfg s.cache) (hline : 0 < s.cfg.cacheLine) (h1 : lo ≤ a) (h2 : a + 1 ≤ hi)
    (h : ElemWritten s a x) : memElem (cleanInvalidate s lo hi).mem a = x := by
  rw [memElem_eq, memByte_cleanInvalidate_of_hostWritten hf hline h1 (by omega) h.low,
    memByte_cleanInvalidate_of_hostWritten hf hline (by omega) h2 h.high]
  exact (BitVec.extractLsb'_append_extractLsb'_eq_extractLsb' (w := 16) rfl).trans BitVec.extractLsb'_eq_self

/-- Slot `c` of frame `i` lies in its half (R65). -/
theorem slot_lt_outHalfBytes {c : Cfg} {i j : Nat} (hi : i < c.n) (hj : j < c.outCh) :
    2 * (c.outCh * i + j) + 1 < outHalfBytes c := by
  have hframe : c.outCh * (i + 1) ≤ c.outCh * c.n := Nat.mul_le_mul_left _ hi
  have hbytes : outHalfBytes c = 2 * (c.outCh * c.n) := by rw [outHalfBytes]; ring
  rw [Nat.mul_succ] at hframe
  omega

theorem memElem_putBlock {s : State} {half : Half} {xs : List Sample} (hf : CacheFormed s.cfg s.cache)
    (hline : 0 < s.cfg.cacheLine) (hx : xs.length = s.cfg.n) {i c : Nat} (hi : i < s.cfg.n) (hc : c < s.cfg.outCh) :
    memElem (putBlock half xs s).mem (outHalfBase s.cfg half + 2 * (s.cfg.outCh * i + c)) = xs[i] := by
  have hslot := slot_lt_outHalfBytes hi hc
  rw [putBlock, setFresh_mem]
  exact memElem_cleanInvalidate_of_elemWritten (by rw [writeFrames_cfg]; exact writeFrames_cacheFormed hf _ xs)
    (by simpa using hline) (by omega) (by omega) (writeFrames_elemWritten hf hline _ (hx ▸ hi) hc)

/-- The copy's host writes put lines of the half and of no other bytes (R72). -/
theorem mem_writeFrames_cache {s : State} {half : Half} {xs : List Sample} {l : CacheLine} (hx : xs.length = s.cfg.n)
    (hl : lineInRange s.cfg (outHalfBase s.cfg half) (outHalfBase s.cfg half + outHalfBytes s.cfg - 1) l = false) :
    l ∈ (writeFrames s (outHalfBase s.cfg half) xs).cache ↔ l ∈ s.cache := by
  refine writeFrames_induction (P := fun t => l ∈ t.cache ↔ l ∈ s.cache) (fun t b v hc h1 h2 ht => ?_) rfl Iff.rfl
  rw [frames_length hx] at h2
  rw [hostWriteByte_cache]
  split
  · refine (mem_cachePut_other fun hla => ?_).trans ht
    have hla : l.la = lineOf s.cfg b := hc ▸ hla
    rw [lineInRange_of_mem hla h1 (by omega)] at hl
    cases hl
  · exact ht

/-- OUT_PUT_BLOCK's copy leaves no line of its half and every other line (R75, R121). -/
theorem mem_putBlock_cache {s : State} {half : Half} {xs : List Sample} {l : CacheLine} (ha : admits s.cfg = true)
    (hf : CacheFormed s.cfg s.cache) (hx : xs.length = s.cfg.n) :
    l ∈ (putBlock half xs s).cache ↔ l ∈ s.cache ∧ (l.la * s.cfg.cacheLine < outHalfBase s.cfg half
      ∨ outHalfBase s.cfg half + outHalfBytes s.cfg ≤ l.la * s.cfg.cacheLine) := by
  obtain ⟨hsizes, hregions, _⟩ := admits_iff.1 ha
  obtain ⟨hbase, hbytes⟩ := admitsRegions_outHalf_aligned hregions half
  have hpos := outHalfBytes_pos hsizes
  rw [putBlock_cache, cleanInvalidate_cache, CacheFormed.mem_invalidate
    (by rw [writeFrames_cfg]; exact writeFrames_cacheFormed hf _ xs) (by rwa [writeFrames_cfg])
    (by rwa [writeFrames_cfg]) hpos, writeFrames_cfg]
  refine and_congr_left fun hout => mem_writeFrames_cache hx ?_
  rw [← Bool.not_eq_true, lineInRange_iff_start hbase hbytes hpos]
  omega

/-- The copy changes memory, the cache and the half's fresh flag alone (R121). -/
theorem putBlock_eq (half : Half) (xs : List Sample) (s : State) :
    putBlock half xs s = { s with
      mem := (putBlock half xs s).mem, cache := (putBlock half xs s).cache
      fresh0 := if half = .half0 then true else s.fresh0
      fresh1 := if half = .half1 then true else s.fresh1 } := by
  have hcopy := ((writeFrames_memoryOnly s (outHalfBase s.cfg half) xs).trans (cleanInvalidate_memoryOnly _
    (outHalfBase s.cfg half) (outHalfBase s.cfg half + outHalfBytes s.cfg - 1))).eq
  rw [putBlock, hcopy]
  cases half <;> rfl

/-- A buffer that holds the samples `x` is read as the list of them (R30, R31). -/
theorem blockHolds.cells {s : State} {b : Nat} {x : Nat → Sample} (h : blockHolds s b x) :
    blockCells s b = ((List.range s.cfg.n).map x).map some := by
  obtain ⟨hlen, hcell⟩ := h
  refine List.ext_getElem (by simp [hlen]) fun i hi _ => ?_
  have hx := hcell i (hlen ▸ hi)
  rw [blockCell, List.getD_eq_getElem _ _ hi] at hx
  simp [hx]

/-- Settles O21: the copy writes every byte of the half through the cache, cleaning brings them all to memory, and
neither reaches a byte or a line outside the half. -/
theorem outPutBlockCompletes : Obligations.OutPutBlockCompletes := by
  intro src s x ha hf hsrc hs hx lo len
  have hf := cacheOk_iff.1 hf
  have hlen : ((List.range s.cfg.n).map x).length = s.cfg.n := by simp
  have hline := cacheLine_pos_of_admits ha
  refine ⟨(putBlock s.outTarget ((List.range s.cfg.n).map x) s).mem,
    (putBlock s.outTarget ((List.range s.cfg.n).map x) s).cache, ?_, fun i c hi hc => ?_, fun a hout => ?_, fun l => ?_⟩
  · rw [exec, execOutPutBlock, withBlock_of_lt _ hsrc, if_neg hs, withSamples_eq hx.cells, putBlock_eq]
    rfl
  · exact (memElem_putBlock hf hline hlen hi hc).trans (by simp)
  · exact memByte_putBlock_outside ha hf hlen hout
  · exact mem_putBlock_cache ha hf hlen

end Sys2Proof.Machine
end

section
/-! The IIR unit sample by sample: its state before each sample of a block, and a run's outputs, end state and count
in terms of it (R152, R155). -/

namespace Sys2Proof.Machine

open Sys2Proof

/-- The unit before sample `i` of the input `x`; no output and no count enters it (R152). -/
def iirAt (u : Iir) (x : Nat → Sample) : Nat → Iir
  | 0 => u
  | i + 1 => { iirAt u x i with y := word32 (iirY (iirAt u x i) (x i)), xprev := x i }

/-- Sample `i` of the output, and whether it saturated (R152). -/
def iirOutAt (c : Cfg) (u : Iir) (x : Nat → Sample) (i : Nat) : Sample × Bool :=
  iirOut c (iirAt u x i) (x i) (iirY (iirAt u x i) (x i))

/-- Between its samples the unit changes in `y` and `xprev` alone. -/
theorem iirAt_eq (u : Iir) (x : Nat → Sample) (i : Nat) :
    iirAt u x i = { u with y := (iirAt u x i).y, xprev := (iirAt u x i).xprev } := by
  induction i with
  | zero => rfl
  | succ i ih => rw [iirAt, ih]

@[simp] theorem iirAt_mode (u : Iir) (x : Nat → Sample) (i : Nat) : (iirAt u x i).mode = u.mode := by rw [iirAt_eq]

@[simp] theorem iirAt_fb (u : Iir) (x : Nat → Sample) (i : Nat) : (iirAt u x i).fb = u.fb := by rw [iirAt_eq]

@[simp] theorem iirAt_ff (u : Iir) (x : Nat → Sample) (i : Nat) : (iirAt u x i).ff = u.ff := by rw [iirAt_eq]

@[simp] theorem iirAt_cutoff (u : Iir) (x : Nat → Sample) (i : Nat) : (iirAt u x i).cutoff = u.cutoff := by
  rw [iirAt_eq]

@[simp] theorem iirAt_cutoffCached (u : Iir) (x : Nat → Sample) (i : Nat) :
    (iirAt u x i).cutoffCached = u.cutoffCached := by rw [iirAt_eq]

/-- The delayed input is the sample before, or the start state's (R152). -/
theorem iirAt_xprev (u : Iir) (x : Nat → Sample) (i : Nat) :
    (iirAt u x i).xprev = if i = 0 then u.xprev else x (i - 1) := by
  cases i <;> rfl

/-- The mode does not enter the recursion (R152). -/
theorem iirAt_withMode (u : Iir) (m : IirMode) (x : Nat → Sample) (i : Nat) :
    iirAt { u with mode := m } x i = { iirAt u x i with mode := m } := by
  induction i with
  | zero => rfl
  | succ i ih => rw [iirAt, ih]; rfl

/-- A run over one more sample is the run and one step from its end. -/
theorem iirRun_concat (c : Cfg) (u : Iir) (sat : Word) (xs : List Sample) (x : Sample) :
    iirRun c u sat (xs ++ [x]) =
      ((iirRun c u sat xs).1 ++ [(iirStep c (iirRun c u sat xs).2.1 (iirRun c u sat xs).2.2 x).1],
        (iirStep c (iirRun c u sat xs).2.1 (iirRun c u sat xs).2.2 x).2) := by
  induction xs generalizing u sat with
  | nil => rfl
  | cons z zs ih => simp only [List.cons_append, iirRun, ih]

theorem map_range_succ (x : Nat → Sample) (n : Nat) :
    (List.range (n + 1)).map x = (List.range n).map x ++ [x n] := by
  rw [List.range_succ, List.map_append, List.map_singleton]

theorem iirRun_unit (c : Cfg) (u : Iir) (sat : Word) (x : Nat → Sample) (n : Nat) :
    (iirRun c u sat ((List.range n).map x)).2.1 = iirAt u x n := by
  induction n with
  | zero => rfl
  | succ n ih => rw [map_range_succ, iirRun_concat, ih]; rfl

theorem iirRun_outputs (c : Cfg) (u : Iir) (sat : Word) (x : Nat → Sample) (n : Nat) :
    (iirRun c u sat ((List.range n).map x)).1 = (List.range n).map fun i => (iirOutAt c u x i).1 := by
  induction n with
  | zero => rfl
  | succ n ih => rw [map_range_succ, iirRun_concat, ih, iirRun_unit, map_range_succ]; rfl

theorem iirRun_output {c : Cfg} {u : Iir} {sat : Word} {x : Nat → Sample} {n i : Nat} (hi : i < n) :
    (iirRun c u sat ((List.range n).map x)).1.getD i 0 = (iirOutAt c u x i).1 := by
  rw [iirRun_outputs, List.getD_eq_getElem _ _ (by simpa using hi)]
  simp

theorem countIf_toNat (b : Bool) (c : Word) :
    (countIf b c).toNat = min (2 ^ 32 - 1) (c.toNat + if b then 1 else 0) := by
  have := c.isLt
  cases b with
  | false => simp only [countIf, Bool.false_eq_true, if_false]; omega
  | true => simp only [countIf, if_true, countUp_toNat]

/-- The counter after a run: one more for each saturated output, stopping at `2^32 - 1` (R27, R155). -/
theorem iirRun_satCnt (c : Cfg) (u : Iir) (sat : Word) (x : Nat → Sample) (n : Nat) :
    (iirRun c u sat ((List.range n).map x)).2.2.toNat =
      min (2 ^ 32 - 1) (sat.toNat + ((List.range n).filter fun i => (iirOutAt c u x i).2).length) := by
  induction n with
  | zero => have := sat.isLt; simp [iirRun]; omega
  | succ n ih =>
    have hstep : (iirRun c u sat ((List.range (n + 1)).map x)).2.2
        = countIf (iirOutAt c u x n).2 (iirRun c u sat ((List.range n).map x)).2.2 := by
      rw [map_range_succ, iirRun_concat, iirStep, iirRun_unit]; rfl
    rw [hstep, countIf_toNat, ih, List.range_succ, List.filter_append, List.length_append, List.filter_singleton]
    cases (iirOutAt c u x n).2 with
    | false => simp only [Bool.false_eq_true, if_false, cond_false, List.length_nil]; omega
    | true => simp only [if_true, cond_true, List.length_singleton]; omega

theorem iirAt_coefsOk {u : Iir} (hk : CoefsOk u) (x : Nat → Sample) (i : Nat) : CoefsOk (iirAt u x i) :=
  ⟨by simpa using hk.fb_inRange, by simpa using hk.sum⟩

/-- Once the coefficients are computed the bound on `y` holds before every sample (R33, R158). -/
theorem iirAt_y_le {u : Iir} (hy : u.y.toInt ≤ 2147418112) (hk : CoefsOk u) (x : Nat → Sample) (i : Nat) :
    (iirAt u x i).y.toInt ≤ 2147418112 := by
  induction i with
  | zero => exact hy
  | succ i ih =>
    obtain ⟨h1, h2⟩ := iirY_inRange (x i) ih (iirAt_coefsOk hk x i)
    exact (word32_toInt h1 (by omega)).trans_le h2

theorem iirY_iirAt_inRange {u : Iir} (hy : u.y.toInt ≤ 2147418112) (hk : CoefsOk u) (x : Nat → Sample) (i : Nat) :
    -2147483648 ≤ iirY (iirAt u x i) (x i) ∧ iirY (iirAt u x i) (x i) ≤ 2147418112 :=
  iirY_inRange (x i) (iirAt_y_le hy hk x i) (iirAt_coefsOk hk x i)

/-- In its bound the recursion is exact: the register holds `y'` itself (R152, R158). -/
theorem iirAt_succ_y {u : Iir} (hy : u.y.toInt ≤ 2147418112) (hk : CoefsOk u) (x : Nat → Sample) (i : Nat) :
    (iirAt u x (i + 1)).y.toInt = iirY (iirAt u x i) (x i) := by
  obtain ⟨h1, h2⟩ := iirY_iirAt_inRange hy hk x i
  exact word32_toInt h1 (by omega)

/-- A state in its bound gives a low-pass sample in the Sample range (R158). -/
theorem iirLowPass_inRange {y' : Int} (h1 : -2147483648 ≤ y') (h2 : y' ≤ 2147418112) :
    -32768 ≤ iirLowPass y' ∧ iirLowPass y' ≤ 32767 := by
  simp only [iirLowPass, asr]
  omega

theorem sat16_ne_iff (v : Int) : v ≠ sat16 v ↔ v < -32768 ∨ 32767 < v := by
  unfold sat16
  omega

/-- `q` of sample `i`: the delayed input less the low-pass sample, before saturation (R152). -/
def iirComplement (c : Cfg) (u : Iir) (x : Nat → Sample) (i : Nat) : Int :=
  iirHighPass c.iirHpDelay (x i).toInt (iirAt u x i).xprev.toInt (iirLowPass (iirAt u x (i + 1)).y.toInt)

theorem iirComplement_withMode (c : Cfg) (u : Iir) (m : IirMode) (x : Nat → Sample) (i : Nat) :
    iirComplement c { u with mode := m } x i = iirComplement c u x i := by
  simp only [iirComplement, iirAt_withMode]

section
variable {u : Iir} (hy : u.y.toInt ≤ 2147418112) (hk : CoefsOk u)
include hy hk

theorem iirOutAt_lowPass_toInt (c : Cfg) (x : Nat → Sample) (i : Nat) (hm : u.mode = .lowPass) :
    (iirOutAt c u x i).1.toInt = iirLowPass (iirAt u x (i + 1)).y.toInt := by
  obtain ⟨h1, h2⟩ := iirY_iirAt_inRange hy hk x i
  obtain ⟨hl, hu⟩ := iirLowPass_inRange h1 h2
  simp only [iirOutAt, iirOut, iirAt_mode, hm, sample16_toInt hl hu, iirAt_succ_y hy hk]

theorem iirOutAt_highPass_toInt (c : Cfg) (x : Nat → Sample) (i : Nat) (hm : u.mode = .highPass) :
    (iirOutAt c u x i).1.toInt = sat16 (iirComplement c u x i) := by
  obtain ⟨hl, hu⟩ := sat16_range (iirComplement c u x i)
  rw [← sample16_toInt hl hu]
  simp only [iirOutAt, iirOut, iirAt_mode, hm, iirComplement, iirAt_succ_y hy hk]

/-- Only a high-pass output can saturate, where `q` leaves the Sample range (R152). -/
theorem iirOutAt_saturates_iff (c : Cfg) (x : Nat → Sample) (i : Nat) : (iirOutAt c u x i).2 = true ↔
    u.mode = .highPass ∧ (iirComplement c u x i < -32768 ∨ 32767 < iirComplement c u x i) := by
  rw [← sat16_ne_iff, ← bne_iff_ne, iirComplement, iirAt_succ_y hy hk]
  cases hm : u.mode <;> simp [iirOutAt, iirOut, hm]

end

end Sys2Proof.Machine
end

section
/-! The IIR unit's commands, its bound and its complementary outputs (R141, R142, R147, R152, R155, R158, R160). -/

namespace Sys2Proof.Machine

open Sys2Proof

/-- Settles O29: both commands answer OK with the unit at rest. -/
theorem iirConnectAndDisconnect : Obligations.IirConnectAndDisconnect := fun _ => ⟨rfl, rfl⟩

/-- Settles O32: the state's bound is the weighted mean's, and the sample is the state's upper half. -/
theorem iirLowPassBounded : Obligations.IirLowPassBounded := by
  intro x y fb ff hx1 hx2 hy1 hy2 hfb1 hfb2 hsum
  obtain ⟨h1, h2⟩ := iirNextY_inRange hx1 hx2 hy1 hy2 ⟨hfb1, hfb2⟩ hsum
  exact ⟨h1, h2, iirLowPass_inRange h1 h2⟩

@[simp] theorem iirRecompute_mode (c : Cfg) (u : Iir) : (iirRecompute c u).mode = u.mode := by
  unfold iirRecompute; split <;> rfl

@[simp] theorem iirRecompute_xprev (c : Cfg) (u : Iir) : (iirRecompute c u).xprev = u.xprev := by
  unfold iirRecompute; split <;> rfl

@[simp] theorem iirRecompute_cutoffCached (c : Cfg) (u : Iir) : (iirRecompute c u).cutoffCached = u.cutoff := by
  unfold iirRecompute
  split
  · next h => exact h.symm
  · rfl

/-- The feedback coefficient in force for the block: the one kept, or the cutoff's own (R147). -/
theorem iirRecompute_fb_toInt {c : Cfg} (hc : admitsIir c = true) (u : Iir) : (iirRecompute c u).fb.toInt =
    if u.cutoff = u.cutoffCached then u.fb.toInt else coefFn c u.cutoff.toNat := by
  obtain ⟨h1, h2⟩ := coefFn_inRange hc u.cutoff.toNat
  unfold iirRecompute
  split
  · rfl
  · exact word32_toInt (by omega) h2

/-- A list is the samples it holds, by index. -/
theorem map_range_getD (xs : List Sample) : (List.range xs.length).map (xs.getD · 0) = xs :=
  List.ext_getElem (by simp) fun i _ hi => by simp [hi]

/-- Settles O33: the two modes run one recursion, so both outputs are of the same `y'`, and the high-pass one is the
delayed input less the low-pass one. -/
theorem iirOutputsAreComplementary : Obligations.IirOutputsAreComplementary := by
  intro c u sat xs n hn hy hfb hff hsum lp hp xd hq1 hq2
  have hk (m : IirMode) : CoefsOk { u with mode := m } := ⟨⟨hfb, by dsimp only; omega⟩, hsum⟩
  have hout (m : IirMode) : (iirRun c { u with mode := m } sat xs).1.getD n 0
      = (iirOutAt c { u with mode := m } (xs.getD · 0) n).1 := by
    rw [← iirRun_output (sat := sat) hn, map_range_getD]
  have hlp : lp = iirLowPass (iirAt u (xs.getD · 0) (n + 1)).y.toInt := by
    simp only [lp, hout]
    rw [iirOutAt_lowPass_toInt (u := { u with mode := .lowPass }) hy (hk _) _ _ _ rfl, iirAt_withMode]
  have hcomplement : iirComplement c u (xs.getD · 0) n = xd - lp := by
    simp only [iirComplement, iirHighPass, hlp, iirAt_xprev, apply_ite BitVec.toInt, xd]
  have hhp : hp = sat16 (xd - lp) := by
    simp only [hp, hout]
    rw [iirOutAt_highPass_toInt (u := { u with mode := .highPass }) hy (hk _) _ _ _ rfl, iirComplement_withMode,
      hcomplement]
  rw [hhp, sat16_eq hq2 hq1, Int.sub_add_cancel]

/-- Settles O30: the recomputed coefficients sum to `2^31`, so the unit stays in its bound through the block, and there
its registers hold the exact recursion. -/
theorem iirProcessCompletes : Obligations.IirProcessCompletes := by
  intro src dst s x ha hs hsrc hdst hx fb ff before
  have hc := (admits_iff.1 ha).2.2.1
  have hok := iirOk_iff.1 hs
  set u := iirRecompute s.cfg s.iir with hu
  have hk : CoefsOk u := iirRecompute_coefsOk hc hok
  have hy : u.y.toInt ≤ 2147418112 := by simpa [hu] using hok.y_le
  have hmode : u.mode = s.iir.mode := iirRecompute_mode s.cfg s.iir
  have hfb : u.fb.toInt = fb := iirRecompute_fb_toInt hc s.iir
  have hff : u.ff.toInt = ff := by have := hk.sum; simp only [ff]; omega
  have hbefore (i : Nat) : (iirAt u x i).xprev.toInt = before i := by
    simp only [before, iirAt_xprev, apply_ite BitVec.toInt, hu, iirRecompute_xprev]
  have hcomplement (i : Nat) : iirComplement s.cfg u x i
      = (if s.cfg.iirHpDelay then before i else (x i).toInt) - (iirAt u x (i + 1)).y.toInt / 2 ^ 16 := by
    rw [iirComplement, iirHighPass, hbefore]; rfl
  refine ⟨fun i => (iirAt u x i).y.toInt, (iirRun s.cfg u s.satCnt ((List.range s.cfg.n).map x)).1, iirAt u x s.cfg.n,
    (iirRun s.cfg u s.satCnt ((List.range s.cfg.n).map x)).2.2, ?_, by simp [iirAt, hu], fun i _ => ?_, by simp,
    fun i hi => ?_, rfl, hbefore _, by simp [hfb], by simp [hff], by simp [hu], by simp [hu], by simp [hu], ?_⟩
  · rw [exec, execIirProcess, withBlock_of_lt _ hsrc, withBlock_of_lt _ hdst, withSamples_eq hx.cells, iirProcess,
      ← iirRun_unit s.cfg u s.satCnt]
    rfl
  · simp only [iirAt_succ_y hy hk, iirY, iirNextY, asr, iirAt_fb, iirAt_ff, hfb, hff]
    rfl
  · rw [iirRun_output hi]
    cases hm : s.iir.mode with
    | lowPass => exact iirOutAt_lowPass_toInt hy hk _ x i (hmode.trans hm)
    | highPass => rw [iirOutAt_highPass_toInt hy hk _ x i (hmode.trans hm), hcomplement]; rfl
  · rw [iirRun_satCnt]
    congr 3
    refine List.filter_congr fun i _ => ?_
    rw [Bool.eq_iff_iff, iirOutAt_saturates_iff hy hk, decide_eq_true_iff, hcomplement, hmode]

end Sys2Proof.Machine
end

section
/-! Silence: a zero sample leaves each unit at rest and gives a zero sample (R162, R188, R212). -/

namespace Sys2Proof.Machine

open Sys2Proof

theorem asr_zero (n : Nat) : asr 0 n = 0 := by simp [asr]

/-- The rounding constant alone rounds to zero, whatever the coefficients (R152, R162). -/
theorem iirNextY_zero (fb ff : Int) : iirNextY 0 0 fb ff = 0 := by
  simp [iirNextY, asr]

/-- A zero sample is a fixed point of a unit whose `y` and `xprev` are zero, in both modes (R162). -/
theorem iirStep_zero (c : Cfg) {u : Iir} (sat : Word) (hy : u.y = 0#32) (hx : u.xprev = 0#16) :
    iirStep c u sat 0#16 = (0#16, u, sat) := by
  have hnext : iirY u 0#16 = 0 := by simp [iirY, hy, iirNextY_zero]
  have hout : iirOut c u 0#16 0 = (0#16, false) := by
    cases hm : u.mode with
    | lowPass => simp [iirOut, hm, iirLowPass, asr_zero, sample16]
    | highPass => simp [iirOut, hm, iirHighPass, iirLowPass, asr_zero, hx, sat16_eq, sample16]
  have hunit : { u with y := word32 0, xprev := 0#16 } = u := by
    rw [← hx, show word32 0 = u.y from hy.symm]
  simp only [iirStep, hnext, hout, hunit, countIf, Bool.false_eq_true, if_false]

theorem iirRun_zeros (c : Cfg) {u : Iir} (sat : Word) (hy : u.y = 0#32) (hx : u.xprev = 0#16) (n : Nat) :
    iirRun c u sat (List.replicate n 0#16) = (List.replicate n 0#16, u, sat) := by
  induction n with
  | zero => rfl
  | succ n ih => simp only [List.replicate_succ, iirRun, iirStep_zero c sat hy hx, ih]

theorem combs_zeros (k : Nat) : combs (List.replicate k 0#32) 0#32 = (List.replicate k 0#32, 0#32) := by
  induction k with
  | zero => rfl
  | succ k ih => simp [List.replicate_succ, combs, ih]

theorem integrators_zeros (k : Nat) :
    integrators (List.replicate k 0#32) 0#32 = (List.replicate k 0#32, 0#32) := by
  induction k with
  | zero => rfl
  | succ k ih => simp [List.replicate_succ, integrators, ih]

/-- The first segment of the clip meets the origin (R178). -/
theorem clip_zero {t1 : Nat} (t2 : Nat) (h : 0 < t1) : clip t1 t2 0 = 0 := by
  simp [clip, h]

theorem clipT1_pos {c : Cfg} (hc : admitsCic c = true) : 0 < c.clipT1 := by
  simp only [admitsCic, Bool.and_eq_true, decide_eq_true_eq, and_assoc] at hc
  obtain ⟨_, _, _, _, hpos, _⟩ := hc
  exact hpos

section
variable {c : Cfg} (hc : admitsCic c = true)
include hc

theorem cicSlot_rest : cicSlot c (cicRest c) 0#32 = (cicRest c, 0#32) := by
  have hclip : word32 (clip c.clipT1 c.clipT2 (cicRescaleUp c 0#32)) = 0#32 := by
    simp [cicRescaleUp, asr_zero, clip_zero _ (clipT1_pos hc), word32]
  simp only [cicSlot, cicRest, integrators_zeros, hclip]

theorem cicSlots_rest (m : Nat) : cicSlots c (cicRest c) 0#32 m = (cicRest c, 0#32) := by
  induction m with
  | zero => exact cicSlot_rest hc
  | succ m ih => rw [cicSlots, cicSlot_rest hc, ih]

/-- A zero sample is a fixed point of the CIC unit at rest (R188). -/
theorem cicStep_rest : cicStep c (cicRest c) 0#16 = (0#16, cicRest c) := by
  have hcombs : combs (cicRest c).ic (BitVec.signExtend 32 0#16) = ((cicRest c).ic, 0#32) := combs_zeros c.cicK
  have hdown : combs (cicRest c).dc 0#32 = ((cicRest c).dc, 0#32) := combs_zeros c.cicK
  have hout : cicRescaleDown c 0#32 = 0#16 := by simp [cicRescaleDown, asr_zero, sample16]
  simp only [cicStep, hcombs, cicSlots_rest hc, hdown, hout]

theorem cicRun_zeros (n : Nat) :
    cicRun c (cicRest c) (List.replicate n 0#16) = (List.replicate n 0#16, cicRest c) := by
  induction n with
  | zero => rfl
  | succ n ih => simp only [List.replicate_succ, cicRun, cicStep_rest hc, ih]

end

theorem firTerm_zero (tap : Word) : firTerm tap 0#16 = 0 := by simp [firTerm, asr_zero]

theorem firBack_zeros (l l' head j : Nat) : firBack (List.replicate l 0#16) l' head j = 0#16 := by
  simp only [firBack, List.getD_eq_getElem?_getD, List.getElem?_replicate]
  split <;> rfl

/-- Over a zero history every tap adds zero (R203). -/
theorem firAcc_zeros (l l' head : Nat) (taps : List Word) (j : Nat) (acc : Word) :
    firAcc (List.replicate l 0#16) l' head taps j acc = acc := by
  induction taps generalizing j acc with
  | nil => rfl
  | cons tap taps ih => rw [firAcc, ih, firBack_zeros, firTerm_zero]; exact BitVec.add_zero acc

theorem firHist_zeros (l head : Nat) : firHist ⟨List.replicate l 0#16, head⟩ 0#16 = List.replicate l 0#16 := by
  simp [firHist]

/-- A zero sample moves the head of a zero history and nothing else (R212). -/
theorem firStep_zeros (c : Cfg) (l head : Nat) (sat : Word) :
    firStep c ⟨List.replicate l 0#16, head⟩ sat 0#16 =
      (0#16, ⟨List.replicate l 0#16, (head + 1) % c.firL⟩, sat) := by
  have hq : firQ c ⟨List.replicate l 0#16, head⟩ 0#16 = 0 := by
    simp [firQ, firHist_zeros, firAcc_zeros, firScale, asr_zero]
  simp [firStep, hq, firHist_zeros, sat16_eq, sample16, countIf]

theorem firRun_zeros (c : Cfg) (l head : Nat) (sat : Word) (n : Nat) :
    ∃ head', firRun c ⟨List.replicate l 0#16, head⟩ sat (List.replicate n 0#16) =
      (List.replicate n 0#16, ⟨List.replicate l 0#16, head'⟩, sat) := by
  induction n generalizing head with
  | zero => exact ⟨head, rfl⟩
  | succ n ih =>
    obtain ⟨head', h⟩ := ih ((head + 1) % c.firL)
    exact ⟨head', by simp only [List.replicate_succ, firRun, firStep_zeros, h]⟩

/-- Settles O54: each unit at rest is a fixed point of the zero sample, but for the FIR head. -/
theorem silenceInSilenceOut : Obligations.SilenceInSilenceOut := by
  intro c u sat n hc zeros iir fir
  have hy : (iirRecompute c (iirRest u)).y = 0#32 := iirRecompute_y c (iirRest u)
  have hx : (iirRecompute c (iirRest u)).xprev = 0#16 := iirRecompute_xprev c (iirRest u)
  have hiir : iir = (zeros, iirRecompute c (iirRest u), sat) := iirRun_zeros c sat hy hx n
  obtain ⟨head, hfir⟩ : ∃ head, fir = (zeros, ⟨(firRest c).hist, head⟩, sat) := firRun_zeros c c.firL 0 sat n
  rw [hiir, hfir]
  obtain ⟨_, _, _, hcic, _⟩ := admits_iff.1 hc
  exact ⟨⟨rfl, hy, hx, rfl⟩, cicRun_zeros hcic n, rfl, rfl, rfl⟩

end Sys2Proof.Machine
end

section
/-! COEF_REF against the real exponential (R145, R149, R150): the error of pi to 40 decimals, of the series to 30 terms,
of the rounding and of the clamp. -/

namespace Sys2Proof.Machine

open Sys2Proof

theorem expTerm_eq (t : Rat) (m : Nat) : expTerm t m = t ^ m / (m.factorial : Rat) := by
  induction m with
  | zero => simp [expTerm]
  | succ m ih =>
    rw [expTerm, ih, Nat.factorial_succ]
    push_cast
    field_simp
    exact (pow_succ t m).symm

theorem expSum_eq (t : Rat) (m : Nat) : expSum t m = ∑ j ∈ Finset.range m, t ^ j / (j.factorial : Rat) := by
  induction m with
  | zero => rfl
  | succ m ih => rw [expSum, ih, expTerm_eq, Finset.sum_range_succ]

theorem pow8_eq (v : Rat) : pow8 v = v ^ 8 := by
  simp only [pow8]
  ring

/-- The exponential does not grow faster than its argument where that is not positive. -/
theorem abs_exp_sub_exp_le {a b : ℝ} (ha : a ≤ 0) (hb : b ≤ 0) : |Real.exp a - Real.exp b| ≤ |a - b| := by
  wlog h : b ≤ a generalizing a b
  · rw [abs_sub_comm, abs_sub_comm a]
    exact this hb ha (le_of_not_ge h)
  have hle : Real.exp b ≤ Real.exp a := Real.exp_le_exp.2 h
  rw [abs_of_nonneg (sub_nonneg.2 hle), abs_of_nonneg (sub_nonneg.2 h)]
  have hstep : Real.exp b = Real.exp a * Real.exp (b - a) := by rw [← Real.exp_add]; ring_nf
  have htangent := Real.add_one_le_exp (b - a)
  have hone : Real.exp a ≤ 1 := Real.exp_le_one_iff.2 ha
  nlinarith [Real.exp_pos a]

theorem abs_pi40_sub_pi_le : |(pi40 : ℝ) - Real.pi| ≤ 1 / 10 ^ 20 := by
  have hlo := Real.pi_gt_d20
  have hhi := Real.pi_lt_d20
  rw [abs_le, pi40]
  push_cast
  constructor <;> linarith

/-- Thirty terms of the series, on the unit interval. -/
theorem abs_expSum_sub_exp_le {t : Rat} (ht : |(t : ℝ)| ≤ 1) :
    |(expSum t 30 : ℝ) - Real.exp t| ≤ 1 / 10 ^ 32 := by
  have hbound := Real.exp_bound ht (n := 30) (by norm_num)
  have hpow : |(t : ℝ)| ^ 30 ≤ 1 := pow_le_one₀ (abs_nonneg _) ht
  rw [abs_sub_comm, expSum_eq]
  push_cast
  refine hbound.trans ((mul_le_of_le_one_left (by positivity) hpow).trans ?_)
  norm_num [Nat.factorial]

/-- The eighth power magnifies an error by at most 1024 below 2. -/
theorem abs_pow8_sub_le {a b : ℝ} (ha : |a| ≤ 2) (hb : |b| ≤ 2) : |a ^ 8 - b ^ 8| ≤ |a - b| * 1024 := by
  have hmax : max |a| |b| ^ 7 ≤ 2 ^ 7 := pow_le_pow_left₀ (le_max_of_le_left (abs_nonneg a)) (max_le ha hb) 7
  calc |a ^ 8 - b ^ 8| ≤ |a - b| * (8 : ℕ) * max |a| |b| ^ 7 := abs_pow_sub_pow_le a b 8
    _ ≤ |a - b| * (8 : ℕ) * 2 ^ 7 := by gcongr
    _ = |a - b| * 1024 := by norm_num [mul_assoc]

/-- The real coefficient as a fraction of `2^31` (R145). -/
noncomputable def coefReal (fs fc : Nat) : ℝ := Real.exp (-2 * Real.pi * (fc : ℝ) / (fs : ℝ))

/-- The argument of the series in `coefIdeal`: an eighth of the exponent. -/
def coefArg (fs fc : Nat) : Rat := -(pi40 * ((fc : Nat) : Rat)) / ((4 * fs : Nat) : Rat)

theorem coefIdeal_eq (fs fc : Nat) : coefIdeal fs fc = expSum (coefArg fs fc) 30 ^ 8 * 2147483648 := by
  rw [coefIdeal, pow8_eq]
  rfl

theorem coefArg_eq (fs fc : Nat) : ((coefArg fs fc : Rat) : ℝ) = -(pi40 : ℝ) / 4 * ((fc : ℝ) / fs) := by
  rw [coefArg]
  push_cast
  ring

/-- A legal cutoff is at most half the rate (R43). -/
theorem cutoff_div_rate_le {fs fc : Nat} (hfs : 2 ≤ fs) (h : fc ≤ fs / 2) : (fc : ℝ) / fs ≤ 1 / 2 := by
  have hle : ((2 * fc : Nat) : ℝ) ≤ fs := Nat.cast_le.2 (by omega)
  rw [div_le_div_iff₀ (by positivity) (by norm_num)]
  push_cast at hle
  linarith

theorem coefArg_range {fs fc : Nat} (hfs : 2 ≤ fs) (h : fc ≤ fs / 2) :
    -1 ≤ ((coefArg fs fc : Rat) : ℝ) ∧ ((coefArg fs fc : Rat) : ℝ) ≤ 0 := by
  have hratio := cutoff_div_rate_le hfs h
  have hpos : (0 : ℝ) ≤ (fc : ℝ) / fs := by positivity
  have hpi : (0 : ℝ) ≤ (pi40 : ℝ) ∧ (pi40 : ℝ) ≤ 4 := by rw [pi40]; norm_num
  rw [coefArg_eq]
  constructor <;> nlinarith

/-- Eight times the series' argument differs from the exponent by pi's error alone. -/
theorem abs_exp_coefArg_sub_coefReal_le {fs fc : Nat} (hfs : 2 ≤ fs) (h : fc ≤ fs / 2) :
    |Real.exp (coefArg fs fc) ^ 8 - coefReal fs fc| ≤ 1 / 10 ^ 20 := by
  have hratio := cutoff_div_rate_le hfs h
  have hpos : (0 : ℝ) ≤ (fc : ℝ) / fs := by positivity
  have hpi := abs_pi40_sub_pi_le
  have hexp : -2 * Real.pi * (fc : ℝ) / fs = -2 * Real.pi * ((fc : ℝ) / fs) := by ring
  have hdiff : 8 * ((coefArg fs fc : Rat) : ℝ) - -2 * Real.pi * ((fc : ℝ) / fs)
      = -(2 * ((fc : ℝ) / fs)) * ((pi40 : ℝ) - Real.pi) := by rw [coefArg_eq]; ring
  rw [coefReal, hexp, ← Real.exp_nat_mul, Nat.cast_ofNat]
  calc |Real.exp (8 * (coefArg fs fc : ℝ)) - Real.exp (-2 * Real.pi * ((fc : ℝ) / fs))|
      ≤ |8 * (coefArg fs fc : ℝ) - -2 * Real.pi * ((fc : ℝ) / fs)| := by
        refine abs_exp_sub_exp_le ?_ ?_
        · linarith [(coefArg_range hfs h).2]
        · nlinarith [Real.pi_pos]
    _ = 2 * ((fc : ℝ) / fs) * |(pi40 : ℝ) - Real.pi| := by
        rw [hdiff, abs_mul, abs_neg, abs_of_nonneg (by positivity)]
    _ ≤ 1 / 10 ^ 20 := by nlinarith [abs_nonneg ((pi40 : ℝ) - Real.pi)]

/-- The rational that COEF_REF rounds is within a billionth of a unit of the real coefficient (log 9). -/
theorem abs_coefIdeal_sub_coefReal_le {fs fc : Nat} (hfs : 2 ≤ fs) (h : fc ≤ fs / 2) :
    |((coefIdeal fs fc : Rat) : ℝ) - coefReal fs fc * 2 ^ 31| ≤ 1 / 10 ^ 9 := by
  obtain ⟨hlo, hhi⟩ := coefArg_range hfs h
  have hseries := abs_expSum_sub_exp_le (abs_le.2 ⟨hlo, hhi.trans zero_le_one⟩)
  have hexp : |Real.exp (coefArg fs fc)| ≤ 1 := by
    rw [abs_of_pos (Real.exp_pos _)]; exact Real.exp_le_one_iff.2 hhi
  have hsum : |(expSum (coefArg fs fc) 30 : ℝ)| ≤ 2 := by
    have := abs_sub_abs_le_abs_sub (expSum (coefArg fs fc) 30 : ℝ) (Real.exp (coefArg fs fc))
    linarith
  have hpow := abs_pow8_sub_le hsum (hexp.trans one_le_two)
  have hpi := abs_exp_coefArg_sub_coefReal_le hfs h
  have htotal : |(expSum (coefArg fs fc) 30 : ℝ) ^ 8 - coefReal fs fc| ≤ 1 / 10 ^ 32 * 1024 + 1 / 10 ^ 20 :=
    (abs_sub_le _ (Real.exp (coefArg fs fc) ^ 8) _).trans (by linarith)
  have hscale : ((coefIdeal fs fc : Rat) : ℝ) - coefReal fs fc * 2 ^ 31
      = ((expSum (coefArg fs fc) 30 : ℝ) ^ 8 - coefReal fs fc) * 2 ^ 31 := by
    rw [coefIdeal_eq]; push_cast; ring
  rw [hscale, abs_mul, abs_of_nonneg (by positivity : (0 : ℝ) ≤ 2 ^ 31)]
  exact (mul_le_mul_of_nonneg_right htotal (by positivity)).trans (by norm_num)

/-- Rounding to nearest moves a value by half a unit at most. -/
theorem abs_round_sub_le (q : Rat) : |(((q + 1 / 2).floor : Int) : ℝ) - (q : ℝ)| ≤ 1 / 2 := by
  have hround : (q + 1 / 2).floor = round (q : ℝ) := by rw [Rat.round_cast, round_eq]; rfl
  rw [hround, abs_sub_comm]
  exact abs_sub_round (q : ℝ)

/-- The clamp keeps a value within one unit of a target in `0 .. 2^31` (R149, R150). -/
theorem abs_coefClamp_sub_le {v : Int} {r : ℝ} (h0 : 0 ≤ r) (h1 : r ≤ 2147483648) (h : |(v : ℝ) - r| ≤ 1) :
    |((coefClamp v : Int) : ℝ) - r| ≤ 1 := by
  obtain ⟨hlo, hhi⟩ := abs_le.1 h
  rw [coefClamp, abs_le]
  obtain hv | hv | hv : v < 1 ∨ (1 ≤ v ∧ v ≤ 2147483647) ∨ 2147483647 < v := by omega
  · have hr : (v : ℝ) ≤ 0 := by exact_mod_cast Int.lt_add_one_iff.1 hv
    rw [show min 2147483647 (max 1 v) = 1 by omega]
    push_cast
    constructor <;> linarith
  · rw [show min 2147483647 (max 1 v) = v by omega]
    exact ⟨hlo, hhi⟩
  · have hr : (2147483648 : ℝ) ≤ v := by exact_mod_cast hv
    rw [show min 2147483647 (max 1 v) = 2147483647 by omega]
    push_cast
    constructor <;> linarith

/-- Settles O34: series, pi and rounding together err by less than a unit, and the real coefficient lies where the clamp
keeps that. -/
theorem coefficientNearTheExponential : Obligations.CoefficientNearTheExponential := by
  intro fs fc hfs _ hfc
  obtain ⟨hlo, hhi⟩ := coefRef_inRange fs fc
  have hideal := abs_coefIdeal_sub_coefReal_le hfs hfc
  have hround := abs_round_sub_le (coefIdeal fs fc)
  have hnear := (abs_sub_le _ _ _).trans (add_le_add hround hideal)
  have hreal : coefReal fs fc ≤ 1 := by
    refine Real.exp_le_one_iff.2 (div_nonpos_of_nonpos_of_nonneg ?_ (by positivity))
    nlinarith [Real.pi_pos, (Nat.cast_nonneg fc : (0 : ℝ) ≤ fc)]
  have hpos : 0 ≤ coefReal fs fc := (Real.exp_pos _).le
  have hclamp := abs_coefClamp_sub_le (r := coefReal fs fc * 2 ^ 31) (by positivity) (by linarith)
    (hnear.trans (by norm_num))
  exact ⟨hlo, hhi, hclamp, hideal⟩

end Sys2Proof.Machine
end

section
/-! Integer signals from a zero start: delays, combs and running sums, and the moving sum that a comb after a running
sum makes (R175, R185, R186). -/

namespace Sys2Proof.Machine

open Sys2Proof

/-- The signal `m` slots late, zero before its start. -/
def delayed (m : Nat) (f : Nat → Int) (t : Nat) : Int := if t < m then 0 else f (t - m)

/-- A comb with differential delay `m` (R175). -/
def combed (m : Nat) (f : Nat → Int) (t : Nat) : Int := f t - delayed m f t

/-- An integrator's updated value in each slot (R175). -/
def summed (f : Nat → Int) (t : Nat) : Int := ∑ i ∈ Finset.range (t + 1), f i

/-- A comb after an integrator: the sum over the last `m` slots. -/
def movingSum (m : Nat) : (Nat → Int) → Nat → Int := combed m ∘ summed

/-- The zero-stuffing rate expander: the first of each `r` slots carries the base-rate value (R175). -/
def stuffed (r : Nat) (y : Nat → Int) (t : Nat) : Int := if t % r = 0 then y (t / r) else 0

/-- Each base-rate value for its `r` slots. -/
def held (r : Nat) (y : Nat → Int) (t : Nat) : Int := y (t / r)

/-- The rate-reducing selection: the last of each `r` slots (R177). -/
def selected (r : Nat) (f : Nat → Int) (n : Nat) : Int := f (n * r + (r - 1))

/-- Every value of the signal lies in `lo .. hi`. -/
def Within (lo hi : Int) (f : Nat → Int) : Prop := ∀ t, lo ≤ f t ∧ f t ≤ hi

theorem summed_succ (f : Nat → Int) (t : Nat) : summed f (t + 1) = summed f t + f (t + 1) :=
  Finset.sum_range_succ _ _

theorem summed_delayed (m : Nat) (f : Nat → Int) : summed (delayed m f) = delayed m (summed f) := by
  funext t
  by_cases h : t < m
  · simp only [summed, delayed, if_pos h]
    exact Finset.sum_eq_zero fun i hi => if_pos (by rw [Finset.mem_range] at hi; omega)
  · obtain ⟨d, rfl⟩ := Nat.exists_eq_add_of_le (Nat.le_of_not_lt h)
    have hstart : ∑ i ∈ Finset.range m, delayed m f i = 0 :=
      Finset.sum_eq_zero fun i hi => if_pos (Finset.mem_range.1 hi)
    rw [summed, Nat.add_assoc, Finset.sum_range_add, hstart]
    simp [delayed, summed]

/-- Combs and integrators commute: both are linear and time-invariant. -/
theorem combed_commute_summed (m : Nat) : Function.Commute (combed m) summed := by
  intro f
  have hsub : summed (combed m f) = fun t => summed f t - summed (delayed m f) t :=
    funext fun t => Finset.sum_sub_distrib _ _
  rw [hsub, summed_delayed]
  rfl

theorem movingSum_apply (m : Nat) (f : Nat → Int) (t : Nat) :
    movingSum m f t = ∑ i ∈ Finset.Ico (t + 1 - m) (t + 1), f i := by
  rw [Finset.sum_Ico_eq_sub _ (Nat.sub_le _ _)]
  simp only [movingSum, Function.comp, combed, delayed, summed]
  split
  · next h => simp [Nat.sub_eq_zero_of_le h]
  · next h => rw [Nat.sub_add_comm (Nat.le_of_not_lt h)]

/-- A window of one slot gives the signal back. -/
theorem movingSum_one : movingSum 1 = id := by
  funext f t
  simp [movingSum_apply]

/-- The window has `m` slots at most, fewer at the start. -/
theorem Within.moving {lo hi : Int} {f : Nat → Int} (h : Within lo hi f) (hlo : lo ≤ 0) (hhi : 0 ≤ hi) (m : Nat) :
    Within (lo * m) (hi * m) (movingSum m f) := by
  intro t
  have hcard : ((Finset.Ico (t + 1 - m) (t + 1)).card : Int) ≤ m := by rw [Nat.card_Ico]; omega
  have hge := Finset.card_nsmul_le_sum (Finset.Ico (t + 1 - m) (t + 1)) f lo fun i _ => (h i).1
  have hle := Finset.sum_le_card_nsmul (Finset.Ico (t + 1 - m) (t + 1)) f hi fun i _ => (h i).2
  rw [nsmul_eq_mul, mul_comm] at hge hle
  rw [movingSum_apply]
  exact ⟨(mul_le_mul_of_nonpos_left hcard hlo).trans hge, hle.trans (mul_le_mul_of_nonneg_left hcard hhi)⟩

theorem Within.moving_iterate {lo hi : Int} {f : Nat → Int} (h : Within lo hi f) (hlo : lo ≤ 0) (hhi : 0 ≤ hi)
    (m j : Nat) : Within (lo * m ^ j) (hi * m ^ j) ((movingSum m)^[j] f) := by
  induction j with
  | zero => simpa using h
  | succ j ih =>
    rw [Function.iterate_succ_apply', pow_succ, ← mul_assoc, ← mul_assoc]
    exact ih.moving (mul_nonpos_of_nonpos_of_nonneg hlo (by positivity)) (by positivity) m

theorem movingSum_iterate (m j : Nat) (f : Nat → Int) : (movingSum m)^[j] f = (combed m)^[j] (summed^[j] f) := by
  rw [movingSum, (combed_commute_summed m).comp_iterate, Function.comp]

/-- The first integrator of the interpolator holds its base-rate sum between the stuffed values. -/
theorem summed_stuffed (r : Nat) (y : Nat → Int) : summed (stuffed r y) = held r (summed y) := by
  funext t
  induction t with
  | zero => simp [summed, stuffed, held]
  | succ t ih =>
    simp only [summed_succ, ih, stuffed, held, Nat.succ_div, ← Nat.dvd_iff_mod_eq_zero]
    split
    · rw [summed_succ]
    · simp

section
variable {r : Nat} (hr : 0 < r)
include hr

theorem stuffed_slot {p : Nat} (hp : p < r) (y : Nat → Int) (n : Nat) :
    stuffed r y (n * r + p) = if p = 0 then y n else 0 := by
  rw [stuffed, Nat.mul_add_mod_of_lt hp]
  split
  · next h => rw [h, Nat.add_zero, Nat.mul_div_cancel _ hr]
  · rfl

/-- A comb of one base-rate sample is one of `r` high-rate slots on held values. -/
theorem combed_held : Function.Semiconj (held r) (combed 1) (combed r) := by
  intro y
  funext t
  simp only [held, combed, delayed, Nat.lt_one_iff, Nat.div_eq_zero_iff_lt hr]
  split
  · rfl
  · next h => rw [Nat.sub_one, Nat.div_eq_sub_div hr (Nat.le_of_not_lt h), Nat.pred_succ]

/-- Selection turns a comb of `r` high-rate slots into one of one base-rate sample. -/
theorem combed_selected : Function.Semiconj (selected r) (combed r) (combed 1) := by
  intro f
  funext n
  cases n with
  | zero => simp [selected, combed, delayed, hr]
  | succ n =>
    have hlate : ¬ (n + 1) * r + (r - 1) < r := by rw [Nat.succ_mul]; omega
    have hprev : (n + 1) * r + (r - 1) - r = n * r + (r - 1) := by rw [Nat.succ_mul]; omega
    simp [selected, combed, delayed, hlate, hprev]

/-- The interpolator: combs, rate expander and integrators are one moving sum fewer, of the held input (R185). -/
theorem summed_iterate_stuffed (y : Nat → Int) (j : Nat) :
    summed^[j + 1] (stuffed r ((combed 1)^[j + 1] y)) = (movingSum r)^[j] (held r y) := by
  have hinner : summed ((combed 1)^[j + 1] y) = (combed 1)^[j] y := by
    rw [Function.iterate_succ_apply', ← combed_commute_summed 1]
    exact congrFun movingSum_one _
  rw [Function.iterate_succ_apply, summed_stuffed r, hinner, (combed_held hr).iterate_right j,
    ← Function.Commute.iterate_iterate (combed_commute_summed r), movingSum_iterate]

/-- The decimator: integrators, selection and combs are moving sums, selected (R186). -/
theorem combed_iterate_selected (f : Nat → Int) (k : Nat) :
    (combed 1)^[k] (selected r (summed^[k] f)) = selected r ((movingSum r)^[k] f) := by
  rw [← (combed_selected hr).iterate_right k, movingSum_iterate]

end

end Sys2Proof.Machine
end

section
/-! The two cascades over a whole signal: the delays and accumulators that it leaves from rest, and the 32-bit cascades
as the exact ones modulo `2^32` (R174, R175, R184). -/

namespace Sys2Proof.Machine

open Sys2Proof

/-- The delays of `k` combs before base-rate sample `n` of the signal `y`. -/
def delaysAt : Nat → (Nat → Int) → Nat → List Int
  | 0, _, _ => []
  | k + 1, y, n => delayed 1 y n :: delaysAt k (combed 1 y) n

/-- The accumulators of `k` integrators before slot `t` of the signal `f`. -/
def accumulatorsAt : Nat → (Nat → Int) → Nat → List Int
  | 0, _, _ => []
  | k + 1, f, t => (∑ i ∈ Finset.range t, f i) :: accumulatorsAt k (summed f) t

theorem delaysAt_zero (k : Nat) (y : Nat → Int) : delaysAt k y 0 = List.replicate k 0 := by
  induction k generalizing y with
  | zero => rfl
  | succ k ih => rw [delaysAt, ih]; rfl

theorem accumulatorsAt_zero (k : Nat) (f : Nat → Int) : accumulatorsAt k f 0 = List.replicate k 0 := by
  induction k generalizing f with
  | zero => rfl
  | succ k ih => rw [accumulatorsAt, ih]; rfl

theorem combsExact_delaysAt (k : Nat) (y : Nat → Int) (n : Nat) :
    combsExact (delaysAt k y n) (y n) = (delaysAt k y (n + 1), (combed 1)^[k] y n) := by
  induction k generalizing y with
  | zero => rfl
  | succ k ih =>
    have htail : combsExact (delaysAt k (combed 1 y) n) (y n - delayed 1 y n) = _ := ih (combed 1 y)
    simp only [delaysAt, combsExact, htail, Function.iterate_succ_apply]
    rfl

theorem integratorsExact_accumulatorsAt (k : Nat) (f : Nat → Int) (t : Nat) :
    integratorsExact (accumulatorsAt k f t) (f t) = (accumulatorsAt k f (t + 1), summed^[k] f t) := by
  induction k generalizing f with
  | zero => rfl
  | succ k ih =>
    have hhead : ∑ i ∈ Finset.range t, f i + f t = summed f t := (Finset.sum_range_succ f t).symm
    simp only [accumulatorsAt, integratorsExact, hhead, ih, Function.iterate_succ_apply]
    rfl

theorem word32_add (a b : Int) : word32 (a + b) = word32 a + word32 b := BitVec.ofInt_add a b

theorem word32_sub (a b : Int) : word32 (a - b) = word32 a - word32 b := by
  rw [Int.sub_eq_add_neg, word32_add, word32, word32, BitVec.ofInt_neg, BitVec.sub_eq_add_neg]; rfl

/-- The comb cascade computes modulo `2^32` (R184). -/
theorem combs_word32 (ds : List Int) (v : Int) :
    combs (ds.map word32) (word32 v) = ((combsExact ds v).1.map word32, word32 (combsExact ds v).2) := by
  induction ds generalizing v with
  | nil => rfl
  | cons d ds ih => simp [combs, combsExact, ← word32_sub, ih]

/-- The integrator cascade computes modulo `2^32` (R184). -/
theorem integrators_word32 (as : List Int) (u : Int) : integrators (as.map word32) (word32 u)
    = ((integratorsExact as u).1.map word32, word32 (integratorsExact as u).2) := by
  induction as generalizing u with
  | nil => rfl
  | cons a as ih => simp [integrators, integratorsExact, ← word32_add, ih]

end Sys2Proof.Machine
end

section
/-! The clip (R178) and the bounds of an admitted configuration (R173). -/

namespace Sys2Proof.Machine

open Sys2Proof

theorem admitsCic_iff {c : Cfg} : admitsCic c = true ↔
    1 ≤ c.cicK ∧ c.cicK ≤ 16 ∧ c.cicR ≤ 16 ∧ c.cicK * c.cicR ≤ 16
    ∧ 0 < c.clipT1 ∧ c.clipT1 < c.clipT2 ∧ c.clipT2 ≤ 32767 ∧ c.clipT1 + c.clipT2 = 32767 := by
  simp [admitsCic, and_assoc]

/-- The three segments of the clip on a magnitude (R178). -/
theorem clip_of_nonneg (t1 t2 : Nat) {v : Int} (h : 0 ≤ v) :
    clip t1 t2 v = if v < t1 then 2 * v else if v < t2 then v + t1 else 32767 := by
  simp only [clip, Int.natAbs_of_nonneg h, if_neg (Int.not_lt.2 h)]

/-- The clip is odd: it is zero at zero, and elsewhere only the sign of its value depends on the sign of `v`. -/
theorem clip_neg {t1 : Nat} (t2 : Nat) (h0 : 0 < t1) (v : Int) : clip t1 t2 (-v) = -clip t1 t2 v := by
  obtain hv | rfl | hv := Int.lt_trichotomy v 0
  · simp [clip, hv, Int.le_of_lt hv]
  · simp [clip_zero t2 h0]
  · simp [clip, hv, Int.le_of_lt hv]

section
variable {t1 t2 : Nat} (h0 : 0 < t1) (h12 : t1 < t2) (hsum : t1 + t2 = 32767)
include h0 h12 hsum

theorem clip_range_of_nonneg {v : Int} (h : 0 ≤ v) : 0 ≤ clip t1 t2 v ∧ clip t1 t2 v ≤ 32767 := by
  rw [clip_of_nonneg t1 t2 h]
  split_ifs <;> omega

/-- The clip keeps the Sample range without its lowest value (R178). -/
theorem clip_range (v : Int) : -32767 ≤ clip t1 t2 v ∧ clip t1 t2 v ≤ 32767 := by
  obtain h | h := Int.le_total 0 v
  · have := clip_range_of_nonneg h0 h12 hsum h
    omega
  · have := clip_range_of_nonneg h0 h12 hsum (Int.neg_nonneg_of_nonpos h)
    rw [clip_neg t2 h0] at this
    omega

end

/-- Settles O37: the clip is odd, so its range is that of its segments on magnitudes. -/
theorem clipSegments : Obligations.ClipSegments := by
  intro t1 t2 v h0 h12 _ hsum
  obtain ⟨hlo, hhi⟩ := clip_range h0 h12 hsum v
  refine ⟨clip_neg t2 h0 v, hlo, hhi, fun hv h1 => ?_, fun h1 h2 => ?_, fun h2 => ?_⟩
  · rw [clip_of_nonneg t1 t2 hv, if_pos h1]
  · rw [clip_of_nonneg t1 t2 (by omega), if_neg (by omega), if_pos h2]
  · rw [clip_of_nonneg t1 t2 (by omega), if_neg (by omega), if_neg (by omega)]

/-- The gain `R^j` of `j` stages is at most `2^16` (R173). -/
theorem rate_pow_le {c : Cfg} (hc : admitsCic c = true) {j : Nat} (hj : j ≤ c.cicK) :
    ((2 : Int) ^ c.cicR) ^ j ≤ 65536 := by
  obtain ⟨_, _, _, hkr, _⟩ := admitsCic_iff.1 hc
  have hrj : c.cicR * j ≤ 16 := (Nat.mul_le_mul_left _ hj).trans (by rwa [Nat.mul_comm])
  rw [← pow_mul]
  exact (pow_le_pow_right₀ one_le_two hrj).trans_eq (by norm_num)

end Sys2Proof.Machine
end

section
/-! The CIC unit over a whole input from rest: its signals in unbounded integers, its state between slots and samples,
and the bounds of the two values that it narrows (R174, R184, R185, R186). -/

namespace Sys2Proof.Machine

open Sys2Proof

/-- `v`: the interpolator's comb output for each base-rate sample of the input `x` (R174). -/
def cicCombed (c : Cfg) (x : Nat → Int) : Nat → Int := (combed 1)^[c.cicK] x

/-- `u`: the interpolator's last integrator output in each slot (R174). -/
def cicRaised (c : Cfg) (x : Nat → Int) : Nat → Int := summed^[c.cicK] (stuffed (2 ^ c.cicR) (cicCombed c x))

/-- `c`: the rescaled and clipped value in each slot (R174). -/
def cicClipped (c : Cfg) (x : Nat → Int) (t : Nat) : Int :=
  clip c.clipT1 c.clipT2 (cicRaised c x t / (2 ^ c.cicR) ^ (c.cicK - 1))

/-- `w`: the decimator's last integrator output in each slot (R174). -/
def cicSummed (c : Cfg) (x : Nat → Int) : Nat → Int := summed^[c.cicK] (cicClipped c x)

/-- `z`: the decimator's last comb output for each base-rate sample (R174). -/
def cicLowered (c : Cfg) (x : Nat → Int) : Nat → Int := (combed 1)^[c.cicK] (selected (2 ^ c.cicR) (cicSummed c x))

/-- The output for each base-rate sample (R174). -/
def cicOutput (c : Cfg) (x : Nat → Int) (n : Nat) : Int := cicLowered c x n / (2 ^ c.cicR) ^ c.cicK

/-- The exact unit when `m` samples have gone through the interpolator's combs, `t` slots through both integrator
cascades and `n` samples through the decimator's combs. -/
def cicAt (c : Cfg) (x : Nat → Int) (m t n : Nat) : CicExact :=
  { ic := delaysAt c.cicK x m, ii := accumulatorsAt c.cicK (stuffed (2 ^ c.cicR) (cicCombed c x)) t,
    di := accumulatorsAt c.cicK (cicClipped c x) t, dc := delaysAt c.cicK (selected (2 ^ c.cicR) (cicSummed c x)) n }

/-- The exact unit before base-rate sample `n`. -/
def cicBefore (c : Cfg) (x : Nat → Int) (n : Nat) : CicExact := cicAt c x n (n * 2 ^ c.cicR) n

theorem cicBefore_zero (c : Cfg) (x : Nat → Int) : cicBefore c x 0 = cicRestExact c := by
  simp [cicBefore, cicAt, cicRestExact, delaysAt_zero, accumulatorsAt_zero]

section
variable (c : Cfg) (x : Nat → Int)

theorem combsExact_cicAt_ic (m t n : Nat) :
    combsExact (cicAt c x m t n).ic (x m) = ((cicAt c x (m + 1) t n).ic, cicCombed c x m) :=
  combsExact_delaysAt ..

/-- In slot `p` of sample `n` the interpolator's integrators take `v` or a stuffed zero. -/
theorem integratorsExact_cicAt_ii {p : Nat} (hp : p < 2 ^ c.cicR) (m n l : Nat) :
    integratorsExact (cicAt c x m (n * 2 ^ c.cicR + p) l).ii (if p = 0 then cicCombed c x n else 0)
      = ((cicAt c x m (n * 2 ^ c.cicR + p + 1) l).ii, cicRaised c x (n * 2 ^ c.cicR + p)) := by
  rw [← stuffed_slot (Nat.two_pow_pos _) hp]
  exact integratorsExact_accumulatorsAt ..

theorem integratorsExact_cicAt_di (m t n : Nat) : integratorsExact (cicAt c x m t n).di (cicClipped c x t)
    = ((cicAt c x m (t + 1) n).di, cicSummed c x t) :=
  integratorsExact_accumulatorsAt ..

theorem combsExact_cicAt_dc (m t n : Nat) :
    combsExact (cicAt c x m t n).dc (selected (2 ^ c.cicR) (cicSummed c x) n)
      = ((cicAt c x m t (n + 1)).dc, cicLowered c x n) :=
  combsExact_delaysAt ..

theorem cicSlotExact_cicAt {p : Nat} (hp : p < 2 ^ c.cicR) (m n l : Nat) :
    cicSlotExact c (cicCombed c x n) (cicAt c x m (n * 2 ^ c.cicR + p) l) p
      = (cicAt c x m (n * 2 ^ c.cicR + p + 1) l, cicSummed c x (n * 2 ^ c.cicR + p)) := by
  simp only [cicSlotExact, integratorsExact_cicAt_ii c x hp]
  rw [← cicClipped, integratorsExact_cicAt_di]
  rfl

/-- After the slots `0 .. p` of sample `n`, `w` is slot `p`'s. -/
theorem foldl_cicSlotExact {p : Nat} (hp : p < 2 ^ c.cicR) (m n l : Nat) (w : Int) :
    (List.range (p + 1)).foldl (fun s i => cicSlotExact c (cicCombed c x n) s.1 i) (cicAt c x m (n * 2 ^ c.cicR) l, w)
      = (cicAt c x m (n * 2 ^ c.cicR + p + 1) l, cicSummed c x (n * 2 ^ c.cicR + p)) := by
  induction p with
  | zero => exact cicSlotExact_cicAt c x hp m n l
  | succ p ih =>
    rw [List.range_succ, List.foldl_append, ih (Nat.lt_of_succ_lt hp)]
    exact cicSlotExact_cicAt c x hp m n l

/-- The slots of a sample end with `w` of its last one, which the decimator's combs take. -/
theorem slotsExact_cicAt (n : Nat) (w : Int) :
    (List.range (2 ^ c.cicR)).foldl (fun s i => cicSlotExact c (cicCombed c x n) s.1 i)
        (cicAt c x (n + 1) (n * 2 ^ c.cicR) n, w)
      = (cicAt c x (n + 1) ((n + 1) * 2 ^ c.cicR) n, selected (2 ^ c.cicR) (cicSummed c x) n) := by
  have hr : 2 ^ c.cicR - 1 + 1 = 2 ^ c.cicR := Nat.sub_add_cancel (Nat.two_pow_pos _)
  have hslots := foldl_cicSlotExact c x (p := 2 ^ c.cicR - 1) (by omega) (n + 1) n n w
  rw [hr, Nat.add_assoc, hr, ← Nat.succ_mul] at hslots
  exact hslots

theorem cicStepExact_cicBefore (n : Nat) :
    cicStepExact c (cicBefore c x n) (x n) = (cicOutput c x n, cicBefore c x (n + 1)) := by
  have hstart : { cicBefore c x n with ic := (cicAt c x (n + 1) (n * 2 ^ c.cicR) n).ic }
      = cicAt c x (n + 1) (n * 2 ^ c.cicR) n := rfl
  simp only [cicStepExact, cicBefore, combsExact_cicAt_ic]
  rw [← cicBefore, hstart, slotsExact_cicAt, combsExact_cicAt_dc]
  rfl

end

/-- The interpolator's output is `k - 1` moving sums of the held input, so it keeps the input's range times
`R^(k-1)` (R185). -/
theorem cicRaised_within {c : Cfg} (hc : admitsCic c = true) {x : Nat → Int} (hx : Within (-32768) 32767 x) :
    Within (-32768 * (2 ^ c.cicR) ^ (c.cicK - 1)) (32767 * (2 ^ c.cicR) ^ (c.cicK - 1)) (cicRaised c x) := by
  have hheld : Within (-32768) 32767 (held (2 ^ c.cicR) x) := fun t => hx _
  have hbound := hheld.moving_iterate (by norm_num) (by norm_num) (2 ^ c.cicR) (c.cicK - 1)
  have hk : c.cicK - 1 + 1 = c.cicK := Nat.sub_add_cancel (admitsCic_iff.1 hc).1
  rw [← summed_iterate_stuffed (Nat.two_pow_pos _), hk] at hbound
  exact_mod_cast hbound

theorem cicClipped_within {c : Cfg} (hc : admitsCic c = true) (x : Nat → Int) :
    Within (-32767) 32767 (cicClipped c x) := by
  obtain ⟨_, _, _, _, h0, h12, _, hsum⟩ := admitsCic_iff.1 hc
  exact fun t => clip_range h0 h12 hsum _

/-- The decimator's output is `k` moving sums of the clipped values, so it keeps their range times `R^k` (R186). -/
theorem cicLowered_within {c : Cfg} (hc : admitsCic c = true) (x : Nat → Int) :
    Within (-32767 * (2 ^ c.cicR) ^ c.cicK) (32767 * (2 ^ c.cicR) ^ c.cicK) (cicLowered c x) := by
  have hbound := (cicClipped_within hc x).moving_iterate (by norm_num) (by norm_num) (2 ^ c.cicR) c.cicK
  rw [cicLowered, cicSummed, combed_iterate_selected (Nat.two_pow_pos _)]
  exact fun n => by exact_mod_cast hbound (n * 2 ^ c.cicR + (2 ^ c.cicR - 1))

end Sys2Proof.Machine
end

section
/-! The 32-bit unit as the exact one modulo `2^32`, exact where it narrows (R184). -/

namespace Sys2Proof.Machine

open Sys2Proof

/-- A shift by `r*j` bits is the floor of the quotient by `R^j` (R176, R177). -/
theorem asr_rate (v : Int) (j r : Nat) : asr v (j * r) = v / (2 ^ r) ^ j := by
  rw [asr, Nat.mul_comm, pow_mul]

/-- A value in the Sample range times a gain `g` is narrowed to a Sample by that gain. -/
theorem ediv_sample_range {v g : Int} (hg : 0 < g) (h1 : -32768 * g ≤ v) (h2 : v ≤ 32767 * g) :
    -32768 ≤ v / g ∧ v / g ≤ 32767 :=
  ⟨Int.le_ediv_of_mul_le hg h1, Int.le_of_lt_add_one (Int.ediv_lt_of_lt_mul hg (by linarith))⟩

/-- With a gain of at most `2^16` such a value is stored in 32 bits exactly. -/
theorem word32_toInt_of_gain {v g : Int} (hg : 0 < g) (hg' : g ≤ 65536) (h1 : -32768 * g ≤ v) (h2 : v ≤ 32767 * g) :
    (word32 v).toInt = v := word32_toInt (by omega) (by omega)

section
variable {c : Cfg} {x : Nat → Int}

/-- The interpolator's integrators in slot `p` of sample `n`, in 32 bits. -/
theorem integrators_wrapped_ii {p : Nat} (hp : p < 2 ^ c.cicR) (m n l : Nat) :
    integrators (cicWrapped (cicAt c x m (n * 2 ^ c.cicR + p) l)).ii (if p = 0 then word32 (cicCombed c x n) else 0#32)
      = ((cicWrapped (cicAt c x m (n * 2 ^ c.cicR + p + 1) l)).ii, word32 (cicRaised c x (n * 2 ^ c.cicR + p))) := by
  rw [show (0#32 : Word) = word32 0 from rfl, ← apply_ite word32, cicWrapped, integrators_word32,
    integratorsExact_cicAt_ii c x hp]
  rfl

theorem combs_wrapped_ic (m t n : Nat) : combs (cicWrapped (cicAt c x m t n)).ic (word32 (x m))
    = ((cicWrapped (cicAt c x (m + 1) t n)).ic, word32 (cicCombed c x m)) := by
  rw [cicWrapped, combs_word32, combsExact_cicAt_ic]
  rfl

theorem combs_wrapped_dc (m t n : Nat) :
    combs (cicWrapped (cicAt c x m t n)).dc (word32 (selected (2 ^ c.cicR) (cicSummed c x) n))
      = ((cicWrapped (cicAt c x m t (n + 1))).dc, word32 (cicLowered c x n)) := by
  rw [cicWrapped, combs_word32, combsExact_cicAt_dc]
  rfl

variable (hc : admitsCic c = true)
include hc

section
variable (hx : Within (-32768) 32767 x)
include hx

/-- The interpolator's last integrator never wraps (R185). -/
theorem cicRaised_toInt (t : Nat) : (word32 (cicRaised c x t)).toInt = cicRaised c x t := by
  obtain ⟨hlo, hhi⟩ := cicRaised_within hc hx t
  exact word32_toInt_of_gain (by positivity) (rate_pow_le hc (Nat.sub_le _ _)) hlo hhi

theorem cicRescaleUp_cicRaised (t : Nat) :
    cicRescaleUp c (word32 (cicRaised c x t)) = cicRaised c x t / (2 ^ c.cicR) ^ (c.cicK - 1) := by
  rw [cicRescaleUp, cicRaised_toInt hc hx, asr_rate]

/-- Slot `p` of sample `n`: the 32-bit unit follows the exact one, since the value it rescales is exact (R184). -/
theorem cicSlot_wrapped {p : Nat} (hp : p < 2 ^ c.cicR) (m n l : Nat) :
    cicSlot c (cicWrapped (cicAt c x m (n * 2 ^ c.cicR + p) l)) (if p = 0 then word32 (cicCombed c x n) else 0#32)
      = (cicWrapped (cicAt c x m (n * 2 ^ c.cicR + p + 1) l), word32 (cicSummed c x (n * 2 ^ c.cicR + p))) := by
  simp only [cicSlot, integrators_wrapped_ii hp, cicRescaleUp_cicRaised hc hx]
  rw [← cicClipped, cicWrapped, integrators_word32, integratorsExact_cicAt_di]
  rfl

theorem cicBeforeSlot_wrapped (n : Nat) {p : Nat} (hp : p ≤ 2 ^ c.cicR) :
    cicBeforeSlot c (cicWrapped (cicAt c x (n + 1) (n * 2 ^ c.cicR) n)) (word32 (cicCombed c x n)) p
      = cicWrapped (cicAt c x (n + 1) (n * 2 ^ c.cicR + p) n) := by
  induction p with
  | zero => rfl
  | succ p ih => rw [cicBeforeSlot, ih (Nat.le_of_succ_le hp), cicSlot_wrapped hc hx hp, Nat.add_assoc]

theorem cicUp_wrapped (n : Nat) {p : Nat} (hp : p < 2 ^ c.cicR) :
    cicUp c (cicWrapped (cicAt c x (n + 1) (n * 2 ^ c.cicR) n)) (word32 (cicCombed c x n)) p
      = word32 (cicRaised c x (n * 2 ^ c.cicR + p)) := by
  rw [cicUp, cicBeforeSlot_wrapped hc hx n hp.le, integrators_wrapped_ii hp]

theorem cicSlots_wrapped (n : Nat) :
    cicSlots c (cicWrapped (cicAt c x (n + 1) (n * 2 ^ c.cicR) n)) (word32 (cicCombed c x n)) (2 ^ c.cicR - 1)
      = (cicWrapped (cicAt c x (n + 1) ((n + 1) * 2 ^ c.cicR) n),
        word32 (selected (2 ^ c.cicR) (cicSummed c x) n)) := by
  have hr : 2 ^ c.cicR - 1 + 1 = 2 ^ c.cicR := Nat.sub_add_cancel (Nat.two_pow_pos _)
  rw [cicSlots_eq, cicBeforeSlot_wrapped hc hx n (Nat.sub_le _ _), cicSlot_wrapped hc hx (by omega), Nat.add_assoc, hr,
    ← Nat.succ_mul]
  rfl

end

/-- The decimator's output never wraps (R186). -/
theorem cicLowered_toInt (n : Nat) : (word32 (cicLowered c x n)).toInt = cicLowered c x n := by
  obtain ⟨hlo, hhi⟩ := cicLowered_within hc x n
  have hpos : (0 : Int) < (2 ^ c.cicR) ^ c.cicK := by positivity
  exact word32_toInt_of_gain hpos (rate_pow_le hc le_rfl) (by linarith) hhi

theorem cicRescaleDown_cicLowered (n : Nat) :
    (cicRescaleDown c (word32 (cicLowered c x n))).toInt = cicOutput c x n := by
  obtain ⟨hlo, hhi⟩ := cicLowered_within hc x n
  have hpos : (0 : Int) < (2 ^ c.cicR) ^ c.cicK := by positivity
  obtain ⟨h1, h2⟩ := ediv_sample_range hpos (by linarith) hhi
  rw [cicRescaleDown, cicLowered_toInt hc, asr_rate, sample16_toInt h1 h2, cicOutput]

/-- One sample: the 32-bit unit gives the exact output, and its arrays stay the exact ones' modulo `2^32` (R184). -/
theorem cicStep_wrapped (hx : Within (-32768) 32767 x) {n : Nat} {y : Sample} (hy : y.toInt = x n) :
    (cicStep c (cicWrapped (cicBefore c x n)) y).1.toInt = cicOutput c x n
      ∧ (cicStep c (cicWrapped (cicBefore c x n)) y).2 = cicWrapped (cicBefore c x (n + 1)) := by
  have hin : y.signExtend 32 = word32 (x n) := by rw [← hy]; rfl
  have hstart : { cicWrapped (cicBefore c x n) with ic := (cicWrapped (cicAt c x (n + 1) (n * 2 ^ c.cicR) n)).ic }
      = cicWrapped (cicAt c x (n + 1) (n * 2 ^ c.cicR) n) := rfl
  simp only [cicStep, hin, cicBefore, combs_wrapped_ic]
  rw [← cicBefore, hstart, cicSlots_wrapped hc hx, combs_wrapped_dc]
  exact ⟨cicRescaleDown_cicLowered hc n, rfl⟩

end

end Sys2Proof.Machine
end

section
/-! The CIC unit's commands and runs from rest (R171, R172, R182, R184, R185, R186). -/

namespace Sys2Proof.Machine

open Sys2Proof

/-- Settles O35: both commands answer OK with the unit at rest. -/
theorem cicConnectAndDisconnect : Obligations.CicConnectAndDisconnect := fun _ => ⟨rfl, rfl⟩

/-- A run over one more sample is the run and one step from its end. -/
theorem cicRun_concat (c : Cfg) (q : Cic) (xs : List Sample) (x : Sample) :
    cicRun c q (xs ++ [x]) =
      ((cicRun c q xs).1 ++ [(cicStep c (cicRun c q xs).2 x).1], (cicStep c (cicRun c q xs).2 x).2) := by
  induction xs generalizing q with
  | nil => rfl
  | cons y ys ih => simp only [List.cons_append, cicRun, ih]

theorem cicRunExact_concat (c : Cfg) (q : CicExact) (xs : List Sample) (x : Sample) :
    cicRunExact c q (xs ++ [x]) =
      ((cicRunExact c q xs).1 ++ [(cicStepExact c (cicRunExact c q xs).2 x.toInt).1],
        (cicStepExact c (cicRunExact c q xs).2 x.toInt).2) := by
  induction xs generalizing q with
  | nil => rfl
  | cons y ys ih => simp only [List.cons_append, cicRunExact, ih]

theorem cicRun_outputs (c : Cfg) (q : Cic) (x : Nat → Sample) (n : Nat) : (cicRun c q ((List.range n).map x)).1
    = (List.range n).map fun i => (cicStep c (cicRun c q ((List.range i).map x)).2 (x i)).1 := by
  induction n with
  | zero => rfl
  | succ n ih => rw [map_range_succ, cicRun_concat, ih, List.range_succ, List.map_append, List.map_singleton]

/-- Settles O36: the unit before sample `i` is the one that a run over the `i` samples before it leaves. -/
theorem cicProcessCompletes : Obligations.CicProcessCompletes := by
  intro src dst s x hsrc hdst hx
  refine ⟨fun i => (cicRun s.cfg s.cic ((List.range i).map x)).2, (cicRun s.cfg s.cic ((List.range s.cfg.n).map x)).1,
    ?_, rfl, by simp, fun i hi => ⟨?_, ?_⟩⟩
  · rw [exec, execCicProcess, withBlock_of_lt _ hsrc, withBlock_of_lt _ hdst, withSamples_eq hx.cells]
    rfl
  · rw [cicRun_outputs, List.getD_eq_getElem _ _ (by simpa using hi)]
    simp
  · dsimp only
    rw [map_range_succ, cicRun_concat]

/-- A sequence of Samples as a signal of their values. -/
def sampleValues (x : Nat → Sample) (i : Nat) : Int := (x i).toInt

theorem sampleValues_within (x : Nat → Sample) : Within (-32768) 32767 (sampleValues x) :=
  fun t => ⟨BitVec.le_toInt (x t), Int.le_of_lt_add_one (BitVec.toInt_lt (x := x t))⟩

theorem cicRunExact_rest (c : Cfg) (x : Nat → Sample) (n : Nat) :
    cicRunExact c (cicRestExact c) ((List.range n).map x)
      = ((List.range n).map (cicOutput c (sampleValues x)), cicBefore c (sampleValues x) n) := by
  induction n with
  | zero => rw [cicBefore_zero]; rfl
  | succ n ih =>
    have hstep : cicStepExact c (cicBefore c (sampleValues x) n) (x n).toInt = _ :=
      cicStepExact_cicBefore c (sampleValues x) n
    rw [map_range_succ, cicRunExact_concat, ih, hstep, List.range_succ, List.map_append, List.map_singleton]

theorem cicWrapped_cicRestExact (c : Cfg) : cicWrapped (cicRestExact c) = cicRest c := by
  simp [cicWrapped, cicRestExact, cicRest, word32]

section
variable {c : Cfg} (hc : admitsCic c = true)
include hc

theorem cicRun_rest_unit (x : Nat → Sample) (n : Nat) :
    (cicRun c (cicRest c) ((List.range n).map x)).2 = cicWrapped (cicBefore c (sampleValues x) n) := by
  induction n with
  | zero => rw [cicBefore_zero, cicWrapped_cicRestExact]; rfl
  | succ n ih =>
    rw [map_range_succ, cicRun_concat, ih]
    exact (cicStep_wrapped hc (sampleValues_within x) rfl).2

theorem cicRun_rest_outputs (x : Nat → Sample) (n : Nat) :
    (cicRun c (cicRest c) ((List.range n).map x)).1.map BitVec.toInt
      = (List.range n).map (cicOutput c (sampleValues x)) := by
  rw [cicRun_outputs, List.map_map]
  refine List.map_congr_left fun i _ => ?_
  rw [Function.comp, cicRun_rest_unit hc]
  exact (cicStep_wrapped hc (sampleValues_within x) rfl).1

/-- With no rate change both stages are moving sums over one slot, and both gains are 1 (R182). -/
theorem cicOutput_of_rate_one (hr : c.cicR = 0) (x : Nat → Int) (n : Nat) :
    cicOutput c x n = clip c.clipT1 c.clipT2 (x n) := by
  have hid (k : Nat) : (movingSum 1)^[k] = id := by rw [movingSum_one, Function.iterate_id]
  have hk : c.cicK - 1 + 1 = c.cicK := Nat.sub_add_cancel (admitsCic_iff.1 hc).1
  have hraised : cicRaised c x = x := by
    have h := summed_iterate_stuffed one_pos x (c.cicK - 1)
    rw [hk, hid] at h
    rw [cicRaised, hr, pow_zero, cicCombed, h]
    exact funext fun t => congrArg x (Nat.div_one t)
  have hlowered : cicLowered c x n = cicClipped c x n := by
    rw [cicLowered, cicSummed, hr, pow_zero, combed_iterate_selected one_pos, hid, selected]
    simp
  simp [cicOutput, hlowered, cicClipped, hraised, hr]

end

/-- Settles O38: the outputs are those of the exact unit, which with no rate change is the clip alone. -/
theorem cicRateOneIsClip : Obligations.CicRateOneIsClip := by
  intro c xs hr hc
  have houts := cicRun_rest_outputs hc (xs.getD · 0) xs.length
  rw [map_range_getD] at houts
  rw [houts]
  conv_rhs => rw [← map_range_getD xs, List.map_map]
  exact List.map_congr_left fun i _ => cicOutput_of_rate_one hc hr _ i

/-- Settles O40: both runs pass through the exact unit's states of the one signal. -/
theorem cicCascadesCongruent : Obligations.CicCascadesCongruent := by
  refine ⟨fun ds v => ⟨combs_word32 ds v, integrators_word32 ds v⟩, fun c xs hc => ?_⟩
  rw [← map_range_getD xs, cicRun_rest_outputs hc, cicRun_rest_unit hc, cicRunExact_rest]
  exact ⟨rfl, rfl⟩

/-- A list is the samples it holds, whatever follows it. -/
theorem map_range_getD_append (xs ys : List Sample) : (List.range xs.length).map ((xs ++ ys).getD · 0) = xs :=
  List.ext_getElem (by simp) fun i _ hi => by simp [List.getElem?_append_left hi, hi]

/-- Settles O39: the unit follows the exact one, whose two narrowed values keep their bounds. -/
theorem cicOutputNeverWraps : Obligations.CicOutputNeverWraps := by
  intro c xs x hc q ups start slots z rate
  set y := sampleValues ((xs ++ [x]).getD · 0) with hy
  have hyx : x.toInt = y xs.length := by simp [hy, sampleValues]
  have hwithin : Within (-32768) 32767 y := sampleValues_within _
  have hq : q = cicWrapped (cicBefore c y xs.length) := by
    rw [hy, ← cicRun_rest_unit hc, map_range_getD_append]
  have hups : ups = ((cicWrapped (cicAt c y (xs.length + 1) (xs.length * 2 ^ c.cicR) xs.length)).ic,
      word32 (cicCombed c y xs.length)) := by
    rw [← combs_wrapped_ic, ← hyx]
    simp only [ups, hq]
    rfl
  have hstart : start = cicWrapped (cicAt c y (xs.length + 1) (xs.length * 2 ^ c.cicR) xs.length) := by
    simp only [start, hups, hq]
    rfl
  have hz : z = cicLowered c y xs.length := by
    simp only [z, slots, hstart, hups]
    rw [cicSlots_wrapped hc hwithin, combs_wrapped_dc, cicLowered_toInt hc]
  obtain ⟨hzlo, hzhi⟩ := cicLowered_within hc y xs.length
  refine ⟨fun p hp => ?_, hz ▸ hzlo, hz ▸ hzhi, ?_⟩
  · intro u
    have hu : u = word32 (cicRaised c y (xs.length * 2 ^ c.cicR + p)) := by
      simp only [u, hstart, hups, cicUp_wrapped hc hwithin _ hp]
    obtain ⟨hlo, hhi⟩ := cicRaised_within hc hwithin (xs.length * 2 ^ c.cicR + p)
    rw [hu, cicRescaleUp_cicRaised hc hwithin, cicRaised_toInt hc hwithin]
    exact ⟨hlo, hhi, rfl, ediv_sample_range (by positivity) hlo hhi⟩
  · rw [hz, hq]
    exact (cicStep_wrapped hc hwithin hyx).1

end Sys2Proof.Machine
end

section
/-! The FIR unit sample by sample: its state before each sample of a block, and a run's outputs, end state and count in
terms of it (R203, R206). -/

namespace Sys2Proof.Machine

open Sys2Proof

/-- The unit before sample `i` of the input `x`; no output and no count enters it (R203). -/
def firAt (c : Cfg) (f : Fir) (x : Nat → Sample) : Nat → Fir
  | 0 => f
  | i + 1 => { hist := firHist (firAt c f x i) (x i), head := ((firAt c f x i).head + 1) % c.firL }

/-- `q` of sample `i`, before saturation (R203). -/
def firQAt (c : Cfg) (f : Fir) (x : Nat → Sample) (i : Nat) : Int := firQ c (firAt c f x i) (x i)

/-- A run over one more sample is the run and one step from its end. -/
theorem firRun_concat (c : Cfg) (f : Fir) (sat : Word) (xs : List Sample) (x : Sample) :
    firRun c f sat (xs ++ [x]) =
      ((firRun c f sat xs).1 ++ [(firStep c (firRun c f sat xs).2.1 (firRun c f sat xs).2.2 x).1],
        (firStep c (firRun c f sat xs).2.1 (firRun c f sat xs).2.2 x).2) := by
  induction xs generalizing f sat with
  | nil => rfl
  | cons z zs ih => simp only [List.cons_append, firRun, ih]

theorem firRun_unit (c : Cfg) (f : Fir) (sat : Word) (x : Nat → Sample) (n : Nat) :
    (firRun c f sat ((List.range n).map x)).2.1 = firAt c f x n := by
  induction n with
  | zero => rfl
  | succ n ih => rw [map_range_succ, firRun_concat, ih]; rfl

theorem firRun_outputs (c : Cfg) (f : Fir) (sat : Word) (x : Nat → Sample) (n : Nat) :
    (firRun c f sat ((List.range n).map x)).1 = (List.range n).map fun i => sample16 (sat16 (firQAt c f x i)) := by
  induction n with
  | zero => rfl
  | succ n ih => rw [map_range_succ, firRun_concat, ih, firRun_unit, map_range_succ]; rfl

/-- An output is `q` saturated, never wrapped (R210). -/
theorem firRun_output_toInt {c : Cfg} {f : Fir} {sat : Word} {x : Nat → Sample} {n i : Nat} (hi : i < n) :
    ((firRun c f sat ((List.range n).map x)).1.getD i 0).toInt = sat16 (firQAt c f x i) := by
  obtain ⟨hlo, hhi⟩ := sat16_range (firQAt c f x i)
  rw [firRun_outputs, List.getD_eq_getElem _ _ (by simpa using hi), List.getElem_map, List.getElem_range,
    sample16_toInt hlo hhi]

/-- Counting one more event of a sequence, in a counter that stops at `2^32 - 1` (R27). -/
theorem countIf_toNat_of_counted {cnt : Word} {start n : Nat} {p : Nat → Bool}
    (h : cnt.toNat = min (2 ^ 32 - 1) (start + ((List.range n).filter p).length)) :
    (countIf (p n) cnt).toNat = min (2 ^ 32 - 1) (start + ((List.range (n + 1)).filter p).length) := by
  rw [countIf_toNat, h, ← List.countP_eq_length_filter, ← List.countP_eq_length_filter, List.range_succ,
    List.countP_append, List.countP_singleton]
  omega

/-- The counter after a run: one more for each saturated output, stopping at `2^32 - 1` (R27, R206). -/
theorem firRun_satCnt (c : Cfg) (f : Fir) (sat : Word) (x : Nat → Sample) (n : Nat) :
    (firRun c f sat ((List.range n).map x)).2.2.toNat = min (2 ^ 32 - 1)
      (sat.toNat + ((List.range n).filter fun i => firQAt c f x i != sat16 (firQAt c f x i)).length) := by
  induction n with
  | zero => exact (min_eq_right (Nat.le_sub_one_of_lt sat.isLt)).symm
  | succ n ih =>
    rw [← countIf_toNat_of_counted ih, map_range_succ, firRun_concat, firStep, firRun_unit]
    rfl

end Sys2Proof.Machine
end

section
/-! The history as a delay line, and the 32-bit accumulator as the exact sum (R197, R203, R208, R211). -/

namespace Sys2Proof.Machine

open Sys2Proof

theorem admitsFir_iff {c : Cfg} : admitsFir c = true ↔ 1 ≤ c.firL ∧ c.firL ≤ 65536
    ∧ tapMagnitudes c.firTaps + 2 * c.firL ≤ 2 ^ 32 ∧ 1 ≤ c.firGain ∧ c.firGain ≤ 65536 := by
  simp [admitsFir, and_assoc]

/-- The head counts the samples modulo `L` (R211). -/
theorem firAt_rest_head (c : Cfg) (x : Nat → Sample) (n : Nat) : (firAt c (firRest c) x n).head = n % c.firL := by
  induction n with
  | zero => exact (Nat.zero_mod _).symm
  | succ n ih => rw [firAt, ih, Nat.mod_add_mod]

theorem FirShaped.firAt {c : Cfg} {f : Fir} (h : FirShaped c.firL f) (x : Nat → Sample) (n : Nat) :
    FirShaped c.firL (firAt c f x n) := by
  rw [← firRun_unit c f 0#32]
  exact h.firRun _ _

/-- The index `j` places back from a place in a ring of `l`, by which side of the ring's start it lies on. -/
theorem ring_index_eq {l head j : Nat} (hh : head < l) (hj : j < l) :
    (head + l - j) % l = if j ≤ head then head - j else head + l - j := by
  split
  · rw [Nat.sub_add_comm ‹_›, Nat.add_mod_right, Nat.mod_eq_of_lt (by omega)]
  · exact Nat.mod_eq_of_lt (by omega)

/-- The new input is the sample at the head, and no sample further back is overwritten (R203). -/
theorem firBack_firHist {l : Nat} {f : Fir} (h : FirShaped l f) (x : Sample) {j : Nat} (hj : j < l) :
    firBack (firHist f x) l f.head j = if j = 0 then x else firBack f.hist l f.head j := by
  have hlt : f.head < f.hist.length := h.hist ▸ h.head
  have hplace := ring_index_eq h.head hj
  simp only [firBack, firHist, List.getD_eq_getElem?_getD]
  split
  · next h0 =>
    rw [hplace, if_pos (by omega), h0, Nat.sub_zero, List.getElem?_set_self hlt, Option.getD_some]
  · next h0 =>
    have hne : f.head ≠ (f.head + l - j) % l := by rw [hplace]; split <;> omega
    rw [List.getElem?_set_ne hne]

/-- With the head advanced every sample is one further back (R203, R211). -/
theorem firBack_succ {l head j : Nat} (hist : List Sample) (hj : j < l) :
    firBack hist l ((head + 1) % l) (j + 1) = firBack hist l head j := by
  have hplace : ((head + 1) % l + l - (j + 1)) % l = (head + l - j) % l := by
    rw [Nat.add_sub_assoc hj, Nat.mod_add_mod]
    congr 1
    omega
  rw [firBack, hplace, firBack]

/-- From rest the sum of sample `n` is over the inputs up to it: `j` back is the input `j` samples earlier, zero before
the start (R203, R211). -/
theorem firBack_at_sample {c : Cfg} (x : Nat → Sample) (n : Nat) {j : Nat} (hl : j < c.firL) :
    firBack (firHist (firAt c (firRest c) x n) (x n)) c.firL (firAt c (firRest c) x n).head j
      = if j ≤ n then x (n - j) else 0#16 := by
  have hshape := (firRest_shaped (Nat.zero_lt_of_lt hl)).firAt x
  induction n generalizing j with
  | zero =>
    rw [firBack_firHist (hshape 0) _ hl]
    cases j with
    | zero => rfl
    | succ i => exact (firBack_zeros ..).trans (if_neg i.not_succ_le_zero).symm
  | succ n ih =>
    rw [firBack_firHist (hshape (n + 1)) _ hl]
    cases j with
    | zero => rfl
    | succ i =>
      rw [if_neg i.succ_ne_zero, firAt, firBack_succ _ (by omega), ih (by omega)]
      simp

/-- The exact sum of the truncated products of the taps with the samples `h` (R203). -/
def tapSum (taps : List Word) (h : Nat → Sample) : Int :=
  ((List.range taps.length).map fun j => firTerm (taps.getD j 0#32) (h j)).sum

theorem tapSum_cons (tap : Word) (taps : List Word) (h : Nat → Sample) :
    tapSum (tap :: taps) h = firTerm tap (h 0) + tapSum taps fun j => h (j + 1) := by
  rw [tapSum, List.length_cons, List.range_succ_eq_map, List.map_cons, List.map_map, List.sum_cons]
  rfl

/-- The accumulator is the exact sum modulo `2^32`, whatever its partial sums (R208). -/
theorem firAcc_word32 (hist : List Sample) (l head : Nat) (taps : List Word) (j : Nat) (v : Int) :
    firAcc hist l head taps j (word32 v) = word32 (v + tapSum taps fun i => firBack hist l head (j + i)) := by
  induction taps generalizing j v with
  | nil => exact congrArg word32 (Int.add_zero v).symm
  | cons tap taps ih =>
    have hnext : (fun i => firBack hist l head (j + 1 + i)) = fun i => firBack hist l head (j + (i + 1)) :=
      funext fun i => by rw [Nat.add_right_comm, Nat.add_assoc]
    rw [firAcc, ← word32_add, ih, tapSum_cons, hnext, Int.add_assoc]
    rfl

/-- A term is at most half its tap's magnitude, and the truncation costs less than one more (R208). -/
theorem firTerm_bounds (tap : Word) (h : Sample) :
    -(tap.toInt.natAbs + 2 : Int) ≤ 2 * firTerm tap h ∧ 2 * firTerm tap h ≤ tap.toInt.natAbs := by
  have hsample : |h.toInt| ≤ 32768 := by
    have h1 := BitVec.le_toInt h
    have h2 := BitVec.toInt_lt (x := h)
    exact abs_le.2 ⟨by omega, by omega⟩
  have hproduct : |tap.toInt * h.toInt| ≤ tap.toInt.natAbs * 32768 := by
    rw [abs_mul, Int.natCast_natAbs]
    exact mul_le_mul_of_nonneg_left hsample (abs_nonneg _)
  obtain ⟨hlo, hhi⟩ := abs_le.1 hproduct
  rw [firTerm, asr]
  omega

theorem tapSum_bounds (taps : List Word) (h : Nat → Sample) :
    -(tapMagnitudes taps + 2 * taps.length : Int) ≤ 2 * tapSum taps h ∧ 2 * tapSum taps h ≤ tapMagnitudes taps := by
  induction taps generalizing h with
  | nil => simp [tapSum, tapMagnitudes]
  | cons tap taps ih =>
    have hsum : tapMagnitudes (tap :: taps) = tap.toInt.natAbs + tapMagnitudes taps := rfl
    have hterm := firTerm_bounds tap (h 0)
    have hrest := ih fun j => h (j + 1)
    rw [tapSum_cons, hsum, List.length_cons]
    omega

/-- An admitted kernel's sum is a 32-bit number whatever the samples (R197, R208). -/
theorem word32_tapSum_toInt {c : Cfg} (hc : admitsFir c = true) (h : Nat → Sample) :
    (word32 (tapSum c.firTaps h)).toInt = tapSum c.firTaps h := by
  obtain ⟨hpos, _, hmag, _⟩ := admitsFir_iff.1 hc
  obtain ⟨hlo, hhi⟩ := tapSum_bounds c.firTaps h
  rw [Cfg.firL] at hpos hmag
  exact word32_toInt (by omega) (by omega)

/-- With an admitted kernel `q` is the exact sum over the history, doubled, multiplied and shifted (R203, R208). -/
theorem firQ_eq {c : Cfg} (hc : admitsFir c = true) (f : Fir) (x : Sample) :
    firQ c f x
      = tapSum c.firTaps (firBack (firHist f x) c.firL f.head) * 2 * (c.firGain : Int) / 2 ^ 16 := by
  have hzero : (0#32 : Word) = word32 0 := rfl
  simp only [firQ, hzero, firAcc_word32, Int.zero_add, Nat.zero_add, firScale, word32_tapSum_toInt hc, asr]

/-- From rest the sum of sample `n` is the convolution of the taps with the input up to it (R203, R211). -/
theorem tapSum_at_sample (c : Cfg) (xs : List Sample) (n : Nat) :
    tapSum c.firTaps (firBack (firHist (firAt c (firRest c) (xs.getD · 0) n) (xs.getD n 0)) c.firL
      (firAt c (firRest c) (xs.getD · 0) n).head) = convolution c.firTaps xs n := by
  rw [tapSum, convolution]
  refine congrArg List.sum (List.map_congr_left fun j hj => ?_)
  rw [firBack_at_sample (xs.getD · 0) n (List.mem_range.1 hj)]
  split
  · rfl
  · exact firTerm_zero _

end Sys2Proof.Machine
end

section
/-! The FIR unit's commands and runs from rest (R201, R202, R203, R206, R210, R211). -/

namespace Sys2Proof.Machine

open Sys2Proof

/-- Settles O41: both commands answer OK with the unit at rest. -/
theorem firConnectAndDisconnect : Obligations.FirConnectAndDisconnect := fun _ => ⟨rfl, rfl⟩

/-- Settles O42: the unit passes through its states before each sample, and an output counts where `q` leaves the Sample
range. -/
theorem firProcessCompletes : Obligations.FirProcessCompletes := by
  intro src dst s x hsrc hdst hx
  refine ⟨firAt s.cfg s.fir x, (firRun s.cfg s.fir s.satCnt ((List.range s.cfg.n).map x)).1,
    (firRun s.cfg s.fir s.satCnt ((List.range s.cfg.n).map x)).2.2, ?_, rfl, by simp,
    fun i hi => ⟨rfl, rfl, firRun_output_toInt hi⟩, ?_⟩
  · rw [exec, execFirProcess, withBlock_of_lt _ hsrc, withBlock_of_lt _ hdst, withSamples_eq hx.cells, firProcess,
      ← firRun_unit s.cfg s.fir s.satCnt]
    rfl
  · rw [firRun_satCnt]
    congr 3
    refine List.filter_congr fun i _ => ?_
    rw [Bool.eq_iff_iff, bne_iff_ne, sat16_ne_iff, decide_eq_true_iff, firQAt]

/-- Settles O43: the history holds the last `L` inputs, and the accumulator holds their exact sum with the taps. -/
theorem firIsConvolution : Obligations.FirIsConvolution := by
  intro c sat xs n hc hn
  have hout : ((firRun c (firRest c) sat xs).1.getD n 0).toInt = sat16 (firQAt c (firRest c) (xs.getD · 0) n) := by
    rw [← firRun_output_toInt (sat := sat) hn, map_range_getD]
  rw [hout, firQAt, firQ_eq hc, tapSum_at_sample, sat16]

/-- Settles O44: the head after the run is the one before the sample that would follow it. -/
theorem firHeadRuns : Obligations.FirHeadRuns := by
  intro c sat xs _
  rw [← map_range_getD xs, firRun_unit, firAt_rest_head, List.length_map, List.length_range]
  rfl

end Sys2Proof.Machine
end

section
/-! The control commands that complete: the CSRs, the block cells and the continuation (R40, R41, R216 to R223). -/

namespace Sys2Proof.Machine

open Sys2Proof

/-! ### The CSR words (R40, R41) -/

theorem adapterField_getLsbD_zero (a : AdapterState) : (adapterField a).getLsbD 0 = decide (a = .init) := by
  cases a <;> rfl

theorem adapterField_getLsbD_one (a : AdapterState) : (adapterField a).getLsbD 1 = decide (a = .running) := by
  cases a <;> rfl

theorem halfNumber_getLsbD_zero (h : Half) : (BitVec.ofNat 1 (halfNumber h)).getLsbD 0 = decide (h = .half1) := by
  cases h <;> rfl

theorem modeWord_eq_ite (m : IirMode) : modeWord m = if m = .highPass then 1 else 0 := by cases m <;> rfl

theorem modeOfBit_zero_eq_ite (v : Word) :
    modeOfBit (v.getLsbD 0) = if v.toNat % 2 = 1 then .highPass else .lowPass := by
  simp only [modeOfBit, BitVec.getLsbD, Nat.testBit_zero, decide_eq_true_eq]

/-- The two bytes of CIC_CFG side by side are their sum at weights 1 and 256. -/
theorem cicCfgWord_eq_ofNat (c : Cfg) : cicCfgWord c = BitVec.ofNat 32 (c.cicK % 256 + 256 * (c.cicR % 256)) := by
  have hk : c.cicK % 256 < 2 ^ 8 := Nat.mod_lt _ (by decide)
  have hr : c.cicR % 256 < 256 := Nat.mod_lt _ (by decide)
  apply BitVec.eq_of_toNat_eq
  rw [cicCfgWord, BitVec.toNat_append, BitVec.toNat_append, BitVec.toNat_ofNat, BitVec.toNat_ofNat,
    BitVec.toNat_ofNat, BitVec.toNat_ofNat]
  simp only [Nat.zero_mod, Nat.zero_shiftLeft, Nat.zero_or]
  rw [← Nat.shiftLeft_add_eq_or_of_lt hk, Nat.shiftLeft_eq]
  omega

/-- The bits of STATUS above its fields read 0 (R41). -/
theorem statusWord_getLsbD_unlisted (s : State) {i : Nat} (hi : 10 ≤ i) : (statusWord s).getLsbD i = false := by
  simp only [statusWord, BitVec.getLsbD_append, BitVec.getLsbD_zero]
  repeat rw [if_neg (by omega)]

/-- The ten assigned bits of STATUS, each found by walking the fields from bit 0 (R40), and zeros above them. -/
theorem statusWord_getLsbD (s : State) :
    (statusWord s).getLsbD 0 = s.contPending ∧ (statusWord s).getLsbD 1 = s.contActive
    ∧ (statusWord s).getLsbD 2 = s.contMasked ∧ (statusWord s).getLsbD 3 = decide (s.outTarget = .half1)
    ∧ (statusWord s).getLsbD 4 = decide (s.inState = .init) ∧ (statusWord s).getLsbD 5 = decide (s.inState = .running)
    ∧ (statusWord s).getLsbD 6 = decide (s.outState = .init)
    ∧ (statusWord s).getLsbD 7 = decide (s.outState = .running)
    ∧ (statusWord s).getLsbD 8 = s.fresh0 ∧ (statusWord s).getLsbD 9 = s.fresh1
    ∧ ∀ i, 10 ≤ i → (statusWord s).getLsbD i = false := by
  refine ⟨?_, ?_, ?_, ?_, ?_, ?_, ?_, ?_, ?_, ?_, fun i => statusWord_getLsbD_unlisted s⟩ <;>
    simp only [statusWord, BitVec.getLsbD_append, BitVec.getLsbD_ofBool, adapterField_getLsbD_zero,
      adapterField_getLsbD_one, halfNumber_getLsbD_zero, Nat.reduceLT, Nat.reduceSub, if_true, if_false, decide_true,
      Bool.true_and]

/-! ### The CSR commands (R216, R217, R218) -/

/-- An assigned number answers its CSR's value and changes nothing (R216). -/
theorem exec_csrRead {n : Nat} {c : Csr} {v : Word} {s : State} (hn : csrOfNumber n = some c) (hv : csrValue s c = v) :
    exec (.csrRead n) s = .next { s with responses := s.responses ++ [{ status := .ok, data := v }] } :=
  hv ▸ withCsr_of_some hn

/-- Settles O45: the value of each CSR is the word its bits spell. -/
theorem csrReadCompletes : Obligations.CsrReadCompletes := by
  intro s reads
  exact ⟨⟨statusWord s, exec_csrRead rfl rfl, statusWord_getLsbD s⟩, exec_csrRead rfl (BitVec.ofNat_toNat ..).symm,
    exec_csrRead rfl rfl, exec_csrRead rfl rfl, exec_csrRead rfl rfl, exec_csrRead rfl rfl, exec_csrRead rfl rfl,
    exec_csrRead rfl (modeWord_eq_ite s.iir.mode), exec_csrRead rfl rfl, exec_csrRead rfl rfl, exec_csrRead rfl rfl,
    exec_csrRead rfl rfl, exec_csrRead rfl rfl, exec_csrRead rfl rfl, exec_csrRead rfl (cicCfgWord_eq_ofNat s.cfg),
    exec_csrRead rfl rfl, exec_csrRead rfl rfl, exec_csrRead rfl rfl⟩

theorem cutoffLegal_eq_true_iff {c : Cfg} {v : Word} : cutoffLegal c v = true ↔ 1 ≤ v.toNat ∧ v.toNat ≤ c.fs / 2 := by
  simp only [cutoffLegal, Bool.and_eq_true, decide_eq_true_eq]

/-- A legal cutoff is taken and the coefficients are left as they are (R43, R218). -/
theorem csrWrite_cutoff_legal (n : Nat) {v : Word} {s : State} (h : cutoffLegal s.cfg v = true) :
    csrWrite n v s .iirCutoff = respond 0 { s with iir := { s.iir with cutoff := v } } :=
  if_pos h

/-- Settles O46: each number selects its CSR, whose write answers OK. -/
theorem csrWriteCompletes : Obligations.CsrWriteCompletes := by
  intro v s rs
  refine ⟨rfl, ?_, fun hlo hhi => csrWrite_cutoff_legal 0x11 (cutoffLegal_eq_true_iff.2 ⟨hlo, hhi⟩)⟩
  rw [← modeOfBit_zero_eq_ite]
  rfl

/-! ### The block cells (R219, R220) -/

theorem withCell_of_some {s : State} {b i : Nat} {x : Sample} (k : Sample → Result) (h : blockCell s b i = some x) :
    withCell b i s k = k x := by
  simp only [withCell, h]

/-- Settles O48: with the operands' checks passed, the cell's sample is the answer. -/
theorem blkReadCompletes : Obligations.BlkReadCompletes := by
  intro b i x s hb hi hx
  rw [exec, execBlkRead, withBlock_of_lt _ hb, withIdx_of_lt _ hi, withCell_of_some _ hx]
  rfl

theorem getD_set_of_lt {α : Type} {l : List α} {i : Nat} (x : α) (h : i < l.length) (j : Nat) (d : α) :
    (l.set i x).getD j d = if j = i then x else l.getD j d := by
  split
  case isTrue hj => rw [hj, List.getD_eq_getElem?_getD, List.getElem?_set_self h, Option.getD_some]
  case isFalse hj => rw [List.getD_eq_getElem?_getD, List.getElem?_set_ne (Ne.symm hj), List.getD_eq_getElem?_getD]

/-- A write changes the cell it names and no other cell of any buffer (R30). -/
theorem blockCell_writeCell {s : State} {b i : Nat} (x : Sample) (hb : b < s.blk.length)
    (hi : i < (blockCells s b).length) (b' i' : Nat) :
    blockCell (writeCell s b i x) b' i' = if b' = b ∧ i' = i then some x else blockCell s b' i' := by
  rw [blockCell, blockCells, writeCell_blk, getD_set_of_lt _ hb]
  by_cases hbb : b' = b
  · simp only [hbb, if_true, true_and, getD_set_of_lt _ hi, blockCell]
  · simp only [hbb, if_false, false_and, blockCell, blockCells]

/-- Settles O49: the buffers' shape puts the cell inside its buffer, and the write changes that cell alone. -/
theorem blkWriteCompletes : Obligations.BlkWriteCompletes := by
  intro b i d s hs hb hi
  have hshape := blocksShaped_iff.1 hs
  refine ⟨(writeCell s b i (d.setWidth 16)).blk, ?_, List.length_set, fun b' i' => ?_⟩
  · rw [exec, execBlkWrite, withBlock_of_lt _ hb, withIdx_of_lt _ hi]
    rfl
  · rw [BitVec.ofNat_toNat]
    exact blockCell_writeCell _ (hb.trans_eq hshape.count.symm) (hi.trans_eq (blockCells_length hshape hb).symm) b' i'

/-! ### The continuation (R221, R222, R223) -/

/-- Settles O53: the mask commands always answer OK; CONT_DONE looks at the active bit first. -/
theorem continuationCommands : Obligations.ContinuationCommands := by
  intro s rs
  exact ⟨rfl, rfl, fun h => if_pos h, fun h => if_neg (Bool.eq_false_iff.1 h)⟩

end Sys2Proof.Machine
end

section
/-! The dispatch on the host's turn and on its own move (R253). -/

namespace Sys2Proof.Machine

open Sys2Proof

theorem dispatchEnabled_iff {s : State} :
    dispatchEnabled s = true ↔ s.contPending = true ∧ s.contMasked = false ∧ s.contActive = false := by
  simp only [dispatchEnabled, Bool.and_eq_true, Bool.not_eq_true', and_assoc]

theorem hostTurn_of_dispatchEnabled {s : State} (rest : List Move) (he : dispatchEnabled s = true) :
    hostTurn s rest = .moved (dispatch s) :=
  if_pos he

/-- Settles O6: the host's turn looks at the dispatch before it decodes, and the dispatch's move is that agent's. -/
theorem dispatchBeforeHostCommand : Obligations.DispatchBeforeHostCommand := by
  refine fun s => ⟨dispatchEnabled_iff, fun ha he => ⟨fun hm => step_of_turn_moved ha ?_, fun ms hm => ?_⟩⟩
  · exact (turn_of_host hm).trans (hostTurn_of_dispatchEnabled _ he)
  · exact (step_of_moves_agent ha hm Move.noConfusion).trans (congrArg _ (if_pos he))

end Sys2Proof.Machine
end

section
/-! How a command can stop: only with a fault of its own read, and never refused (R31, R245, R247). -/

namespace Sys2Proof.Machine

open Sys2Proof

/-- A result that is no refusal, and a fault only if the fault meets `P`. -/
inductive FaultsOnly (P : Fault → Prop) : Result → Prop where
  | next (t : State) : FaultsOnly P (.next t)
  | fault {f : Fault} (hf : P f) : FaultsOnly P (.fault f)

section
variable {P : Fault → Prop} {s : State}

theorem respond_faultsOnly {d : Word} : FaultsOnly P (respond d s) := .next _

theorem raise_faultsOnly {e : Status} {d : Word} : FaultsOnly P (raise e d s) := .next _

theorem ite_faultsOnly {c : Prop} [Decidable c] {k k' : Result} (hk : FaultsOnly P k) (hk' : FaultsOnly P k') :
    FaultsOnly P (if c then k else k') := by
  split <;> assumption

theorem withBlock_faultsOnly {b : Nat} {k : Result} (hk : FaultsOnly P k) : FaultsOnly P (withBlock b s k) :=
  ite_faultsOnly hk raise_faultsOnly

theorem withIdx_faultsOnly {i : Nat} {k : Result} (hk : FaultsOnly P k) : FaultsOnly P (withIdx i s k) :=
  ite_faultsOnly hk raise_faultsOnly

theorem withCsr_faultsOnly {n : Nat} {k : Csr → Result} (hk : ∀ c, FaultsOnly P (k c)) :
    FaultsOnly P (withCsr n s k) := by
  unfold withCsr
  split
  · exact hk _
  · exact raise_faultsOnly

theorem withSamples_faultsOnly {b : Nat} {k : List Sample → Result}
    (hf : ∀ i, lowestUnwritten s b i → P (.unwritten b i)) (hk : ∀ xs, FaultsOnly P (k xs)) :
    FaultsOnly P (withSamples b s k) := by
  unfold withSamples
  split
  · exact hk _
  · next i hi => exact .fault (hf i (readCells_error.1 hi))

theorem withCell_faultsOnly {b i : Nat} {k : Sample → Result} (hf : blockCell s b i = none → P (.unwritten b i))
    (hk : ∀ x, FaultsOnly P (k x)) : FaultsOnly P (withCell b i s k) := by
  unfold withCell
  split
  · exact hk _
  · next hn => exact .fault (hf hn)

theorem csrWrite_faultsOnly {n : Nat} {v : Word} (c : Csr) : FaultsOnly P (csrWrite n v s c) := by
  cases c
  case iirCutoff => exact ite_faultsOnly respond_faultsOnly raise_faultsOnly
  case err | iirCtrl => exact respond_faultsOnly
  all_goals exact raise_faultsOnly

end

/-- The command reads all of block buffer `b`. -/
def ReadsSource (i : Instr) (b : Nat) : Prop :=
  i = .outPutBlock b ∨ ∃ d, i = .iirProcess b d ∨ i = .cicProcess b d ∨ i = .firProcess b d

/-- F_UNWRITTEN of a read that the command makes: BLK_READ of its cell, the others of a whole buffer (R31, R245). -/
inductive UnwrittenRead (i : Instr) (s : State) : Fault → Prop where
  | cell (b k : Nat) (hi : i = .blkRead b k) (hk : blockCell s b k = none) : UnwrittenRead i s (.unwritten b k)
  | source (b k : Nat) (hi : ReadsSource i b) (hk : lowestUnwritten s b k) : UnwrittenRead i s (.unwritten b k)

/-- A PROCESS command, once its two operands are checked, can stop only at a cell of its source. -/
theorem process_faultsOnly {i : Instr} {s : State} {src dst : Nat} {run : List Sample → State}
    (hi : ReadsSource i src) : FaultsOnly (UnwrittenRead i s)
      (withBlock src s (withBlock dst s (withSamples src s (fun xs => respond 0#32 (run xs))))) :=
  withBlock_faultsOnly (withBlock_faultsOnly
    (withSamples_faultsOnly (fun k hk => .source src k hi hk) (fun _ => respond_faultsOnly)))

/-- The one inversion of `exec` where it does not go on: a fault is of the command's own read, and nothing is refused. -/
theorem exec_faultsOnly (i : Instr) (s : State) : FaultsOnly (UnwrittenRead i s) (exec i s) := by
  cases i with
  | inInit | outInit => exact ite_faultsOnly (ite_faultsOnly respond_faultsOnly raise_faultsOnly) raise_faultsOnly
  | inStart | outStart | contDone => exact ite_faultsOnly respond_faultsOnly raise_faultsOnly
  | inGetBlock dst => exact withBlock_faultsOnly (ite_faultsOnly respond_faultsOnly raise_faultsOnly)
  | outPutBlock src =>
    exact withBlock_faultsOnly (ite_faultsOnly raise_faultsOnly
      (withSamples_faultsOnly (fun k hk => .source src k (.inl rfl) hk) (fun _ => respond_faultsOnly)))
  | iirConnect | iirDisconnect | cicConnect | cicDisconnect | firConnect | firDisconnect | contMask | contUnmask =>
    exact respond_faultsOnly
  | iirProcess src dst => exact process_faultsOnly (.inr ⟨dst, .inl rfl⟩)
  | cicProcess src dst => exact process_faultsOnly (.inr ⟨dst, .inr (.inl rfl)⟩)
  | firProcess src dst => exact process_faultsOnly (.inr ⟨dst, .inr (.inr rfl)⟩)
  | csrRead n => exact withCsr_faultsOnly (fun _ => respond_faultsOnly)
  | csrWrite n v => exact withCsr_faultsOnly csrWrite_faultsOnly
  | blkRead b k =>
    exact withBlock_faultsOnly (withIdx_faultsOnly
      (withCell_faultsOnly (fun hk => .cell b k rfl hk) (fun _ => respond_faultsOnly)))
  | blkWrite b k d => exact withBlock_faultsOnly (withIdx_faultsOnly respond_faultsOnly)

/-- Settles O52: a command stops only at its own read, which names the cell. -/
theorem faultsNameAnUnwrittenCell : Obligations.FaultsNameAnUnwrittenCell := by
  intro i s f h
  have hf := exec_faultsOnly i s
  rw [h] at hf
  obtain _ | hf := hf
  cases hf with
  | cell b k hi hk => exact ⟨b, k, rfl, hk, .inl hi, fun hne => absurd hi hne⟩
  | source b k hi hk =>
    have ⟨_, hnone, _⟩ := hk
    exact ⟨b, k, rfl, hnone, .inr hi, fun _ => hk⟩

theorem exec_ne_refused (i : Instr) (s : State) (r : Refusal) : exec i s ≠ .refused r := by
  intro h
  have hr := exec_faultsOnly i s
  rw [h] at hr
  cases hr

end Sys2Proof.Machine
end

section
/-! The constraints of R9 one by one, and the refusal of a configuration that breaks one (R66, R67, R150, R197, R247). -/

namespace Sys2Proof.Machine

open Sys2Proof

theorem admitsSizes_iff {c : Cfg} : admitsSizes c = true ↔
    2 ≤ c.fs ∧ 1 ≤ c.n ∧ c.n ≤ 65536 ∧ 2 ≤ c.nblk ∧ c.nblk ≤ 16 ∧ 1 ≤ c.adcBits ∧ c.adcBits ≤ 16
      ∧ 1 ≤ c.outCh ∧ c.outCh ≤ 8 := by
  simp only [admitsSizes, Bool.and_eq_true, decide_eq_true_eq, and_assoc]

theorem isPowerOfTwo_iff {v : Nat} : isPowerOfTwo v = true ↔ ∃ j, v = 2 ^ j := by
  simp only [isPowerOfTwo, Bool.and_eq_true, bne_iff_ne, beq_iff_eq]
  constructor
  · rintro ⟨_, h⟩
    exact ⟨_, h.symm⟩
  · rintro ⟨j, rfl⟩
    exact ⟨(Nat.two_pow_pos j).ne', by rw [Nat.log2_two_pow]⟩

/-- R66 and R67, the regions' sizes written out: four bytes per sample of a half, in each channel (R64, R65). -/
theorem admitsRegions_iff {c : Cfg} : admitsRegions c = true ↔
    (∃ j, c.cacheLine = 2 ^ j) ∧ 2 * c.n % c.cacheLine = 0 ∧ 2 * c.n * c.outCh % c.cacheLine = 0
      ∧ c.inBase % c.cacheLine = 0 ∧ c.outBase % c.cacheLine = 0 ∧ c.inBase % 2 = 0 ∧ c.outBase % 2 = 0
      ∧ c.inBase + 4 * c.n ≤ 2 ^ 32 ∧ c.outBase + 4 * c.n * c.outCh ≤ 2 ^ 32
      ∧ (c.inBase + 4 * c.n ≤ c.outBase ∨ c.outBase + 4 * c.n * c.outCh ≤ c.inBase) := by
  have hin : 2 * inHalfBytes c = 4 * c.n := by rw [inHalfBytes]; omega
  have hout : 2 * outHalfBytes c = 4 * c.n * c.outCh := by rw [outHalfBytes]; ring
  simp only [admitsRegions, Bool.and_eq_true, Bool.or_eq_true, decide_eq_true_eq, beq_iff_eq, isPowerOfTwo_iff,
    hin, hout, and_assoc]
  rfl

/-- R150 (b) and (c) for one listed departure. -/
theorem coefDevOk_iff {fs : Nat} {p : Nat × Int} : coefDevOk fs p = true ↔
    1 ≤ p.1 ∧ p.1 ≤ fs / 2 ∧ 1 ≤ p.2 ∧ p.2 ≤ 2 ^ 31 - 1 ∧ |(p.2 : Rat) - coefIdeal fs p.1| ≤ 1 := by
  simp only [coefDevOk, Bool.and_eq_true, decide_eq_true_eq, and_assoc, abs_sub_le_iff]
  norm_num

theorem cutoffLegal_iff {c : Cfg} {v : Word} : cutoffLegal c v = true ↔ 1 ≤ v.toNat ∧ v.toNat ≤ c.fs / 2 := by
  simp only [cutoffLegal, Bool.and_eq_true, decide_eq_true_eq]

theorem cast_tapMagnitudes (taps : List Word) :
    (tapMagnitudes taps : Int) = (taps.map (fun t => |t.toInt|)).sum := by
  simp [tapMagnitudes, Function.comp_def]

/-- R197, in integers. -/
theorem tapMagnitudes_le_iff (taps : List Word) : tapMagnitudes taps + 2 * taps.length ≤ 2 ^ 32
    ↔ (taps.map (fun t => |t.toInt|)).sum ≤ 2 ^ 32 - 2 * (taps.length : Int) := by
  rw [← cast_tapMagnitudes]
  omega

theorem step_of_not_admits {s : State} (ha : admits s.cfg = false) : step s = .refused .badConfig :=
  if_neg (Bool.eq_false_iff.1 ha)

/-- A step that is refused is so for its configuration: with an admitted one it is an agent's, or a command, and
neither refuses. -/
theorem step_refused {s : State} {r : Refusal} (h : step s = .refused r) : admits s.cfg = false := by
  rw [← Bool.not_eq_true]
  intro ha
  cases ht : turn s with
  | moved t =>
    rw [step_of_turn_moved ha ht] at h
    cases h
  | command i t => exact exec_ne_refused i t r ((step_of_turn_command ha ht).symm.trans h)

/-- Settles O5: the five groups of constraints are those of R9, and only the step's own check refuses. -/
theorem refusedExactlyForBadConfiguration : Obligations.RefusedExactlyForBadConfiguration := by
  refine ⟨fun c => ?_, fun s => ⟨step_of_not_admits, fun r => step_refused, fun i r => exec_ne_refused i s r⟩⟩
  rw [admits_iff, admitsSizes_iff, admitsRegions_iff, admitsIir_iff, cutoffLegal_iff, admitsCic_iff, admitsFir_iff,
    Cfg.firL, tapMagnitudes_le_iff]
  simp only [coefDevOk_iff, and_assoc]

end Sys2Proof.Machine
end

section
/-! The answer of a command that ends, and S.err (R4, R241, R243). -/

namespace Sys2Proof.Machine

open Sys2Proof

/-- The three answers of a command that ends: an error, E_INIT with its draw used up, or OK, where only a write to
ERR changes S.err (R243). -/
inductive PreciseAnswer (i : Instr) (s t : State) : Prop where
  | error (e : Status) (d : Word) (he : e ≠ .ok) (hi : e ≠ .eInit) (h : t = raised e d s)
  | initError (hi : i = .inInit ∨ i = .outInit) (h : t = raised .eInit 0 (takeInitDraw s))
  | ok (d : Word) (hr : t.responses = s.responses ++ [⟨.ok, d⟩])
      (he : t.err = s.err ∨ t.err = 0 ∧ ∃ v, i = .csrWrite 0x02 v)

/-- An OK answer after effects that leave the responses and S.err alone. -/
theorem PreciseAnswer.of_pushResponse {i : Instr} {s u : State} (d : Word) (hr : u.responses = s.responses)
    (he : u.err = s.err) : PreciseAnswer i s (pushResponse ⟨.ok, d⟩ u) :=
  .ok d (by rw [pushResponse_responses, hr]) (.inl he)

theorem Effected.preciseAnswer {i : Instr} {s t : State} (h : Effected i s t) : PreciseAnswer i s t := by
  cases h <;> subst t
  case failed e d he hi => exact .error e d he hi rfl
  case initFailed hi => exact .initError hi rfl
  case errCleared n v hi hn =>
    obtain rfl : 0x02 = n := csrNumber_of_csrOfNumber hn
    exact .ok 0 rfl (.inr ⟨rfl, v, hi⟩)
  all_goals exact .of_pushResponse _ (by simp) (by simp)

/-- Settles O55: an error leaves all but S.err alone, E_INIT has used up its draw, and OK leaves S.err. -/
theorem errorsArePrecise : Obligations.ErrorsArePrecise := by
  intro i s t h
  cases (exec_next h).preciseAnswer with
  | error e d he hi h =>
    subst h
    exact ⟨⟨e, d⟩, rfl, fun _ => by rw [if_neg hi]; rfl, fun h => absurd h hi, fun h => absurd h he⟩
  | initError hi h =>
    subst h
    exact ⟨⟨.eInit, 0⟩, rfl, fun _ => rfl, fun _ => hi, Status.noConfusion⟩
  | ok d hr he => exact ⟨⟨.ok, d⟩, hr, fun h => absurd rfl h, Status.noConfusion, fun _ => he⟩

theorem statusCode_le (e : Status) : (statusCode e).toNat ≤ 7 := by cases e <;> decide

theorem Effected.err_le {i : Instr} {s t : State} (h : Effected i s t) (hs : s.err.toNat ≤ 7) : t.err.toNat ≤ 7 := by
  cases h.preciseAnswer with
  | error e d _ _ h => rw [h]; exact statusCode_le e
  | initError _ h => rw [h]; exact statusCode_le .eInit
  | ok d _ he =>
    obtain he | ⟨he, _⟩ := he <;> rw [he]
    · exact hs
    · exact Nat.zero_le 7

/-- The output engine records no error (R124, R125). -/
@[simp] theorem outputStep_err (s : State) : (outputStep s).err = s.err := by
  obtain ⟨_, h⟩ | ⟨_, _, h⟩ | ⟨_, _, h⟩ := outputStep_cases s <;> rw [h] <;> simp

/-- Settles O59: S.err is written by commands and by the rejection of a word, with a code of R241 or with 0. -/
theorem errorCodesStayDefined : Obligations.ErrorCodesStayDefined := by
  intro s t hs h
  cases step_next h
  case command i ws ms _ _ he => exact he.err_le hs
  all_goals subst t
  case rejected => exact statusCode_le .eIllegal
  case output => simpa using hs
  case evicted => simpa using hs
  all_goals exact hs

end Sys2Proof.Machine
end

section
/-! What a step does to the two continuation bits (R125, R250, R253, R255, R257). -/

namespace Sys2Proof.Machine

open Sys2Proof

/-- No command writes the pending bit. -/
theorem Effected.contPending_eq {i : Instr} {s t : State} (h : Effected i s t) : t.contPending = s.contPending := by
  cases h <;> subst t <;> simp

/-- Of the commands only CONT_DONE writes the active bit (R255). -/
theorem Effected.contActive_cases {i : Instr} {s t : State} (h : Effected i s t) :
    t.contActive = s.contActive ∨ (i = .contDone ∧ t.contActive = false) := by
  cases h <;> subst t
  case cycleEnded hi _ => exact .inr ⟨hi, rfl⟩
  all_goals exact .inl (by simp)

@[simp] theorem outputStep_contActive (s : State) : (outputStep s).contActive = s.contActive := by
  obtain ⟨_, h⟩ | ⟨_, _, h⟩ | ⟨_, _, h⟩ := outputStep_cases s <;> rw [h] <;> simp

/-- The output-engine step raises the continuation at the last frame of a half (R124, R250). -/
theorem outputStep_contPending_cases (s : State) :
    (outputStep s).contPending = s.contPending
      ∨ ((s.outPos + 1 = s.cfg.n ∨ s.outPos + 1 = 2 * s.cfg.n) ∧ (outputStep s).contPending = true) := by
  obtain ⟨hend, h⟩ | ⟨_, hend, h⟩ | ⟨_, _, h⟩ := outputStep_cases s <;> rw [h]
  · exact .inr ⟨.inl hend, event_contPending _ _⟩
  · exact .inr ⟨.inr hend, event_contPending _ _⟩
  · exact .inl rfl

/-- The four things a step can do to the pending and the active bit. -/
inductive ContinuationMoved (s t : State) : Prop where
  | kept (hp : t.contPending = s.contPending) (ha : t.contActive = s.contActive)
  | raised (hm : ∃ ms, s.moves = .outputEngine :: ms) (hs : s.outState = .running)
      (hend : s.outPos + 1 = s.cfg.n ∨ s.outPos + 1 = 2 * s.cfg.n) (hp : t.contPending = true)
      (ha : t.contActive = s.contActive)
  | dispatched (he : dispatchEnabled s = true) (hp : t.contPending = false) (ha : t.contActive = true)
  | ended (hd : ∃ ws, decode s.inbox = .command .contDone ws) (hp : t.contPending = s.contPending)
      (ha : t.contActive = false)

theorem Stepped.continuationMoved {s t : State} (h : Stepped s t) : ContinuationMoved s t := by
  cases h
  case command i ws ms _ hd he =>
    obtain ha | ⟨rfl, ha⟩ := he.contActive_cases
    · exact .kept he.contPending_eq ha
    · exact .ended ⟨ws, hd⟩ he.contPending_eq ha
  all_goals subst t
  case dispatched ms he => exact .dispatched he rfl rfl
  case output ms hm hs =>
    obtain hp | ⟨hend, hp⟩ := outputStep_contPending_cases { s with moves := ms }
    · exact .kept hp (outputStep_contActive _)
    · exact .raised ⟨ms, hm⟩ hs hend hp (outputStep_contActive _)
  case evicted => exact .kept (by simp) (by simp)
  all_goals exact .kept rfl rfl

/-- Settles O60: of the four things a step can do to the bits, each change is one. -/
theorem continuationBitsChangeOnlyByRule : Obligations.ContinuationBitsChangeOnlyByRule := by
  intro s t h
  cases (step_next h).continuationMoved with
  | kept hp ha => simp +contextual [hp, ha]
  | raised hm hs hend hp ha => simp +contextual [hp, ha, hm, hs, hend]
  | dispatched he hp ha => simp [hp, ha, he]
  | ended hd hp ha => simp +contextual [hp, ha, hd]

end Sys2Proof.Machine
end

section
/-! What reset leaves of the buffers and the units (R31, R34, R35, R271). -/

namespace Sys2Proof.Machine

open Sys2Proof

/-- R31 at reset: inside the file every cell is `none`, and outside it there is no cell to read. -/
theorem resetOf_blockCell (c : Cfg) (b i : Nat) : blockCell (State.resetOf c) b i = none := by
  by_cases hb : b < c.nblk
  · have hcells : blockCells (State.resetOf c) b = List.replicate c.n none := by
      simp [blockCells, State.resetOf, hb]
    rw [blockCell, hcells, List.getD_eq_getElem?_getD, List.getElem?_getD_replicate_default_eq]
  · have hcells : blockCells (State.resetOf c) b = [] := by
      simp [blockCells, State.resetOf, hb]
    rw [blockCell, hcells, List.getD_nil]

/-- Reset leaves the CIC unit as CIC_CONNECT does (R171, R271). -/
theorem resetOf_cic (c : Cfg) : (State.resetOf c).cic = cicRest c := rfl

/-- Reset leaves the FIR unit as FIR_CONNECT does (R201, R271). -/
theorem resetOf_fir (c : Cfg) : (State.resetOf c).fir = firRest c := rfl

theorem eq_zero_of_mem_cicRest {c : Cfg} {v : Word}
    (hv : v ∈ (cicRest c).ic ++ (cicRest c).ii ++ (cicRest c).di ++ (cicRest c).dc) : v = 0 := by
  simp only [cicRest, List.replicate_append_replicate] at hv
  exact List.eq_of_mem_replicate hv

theorem eq_zero_of_mem_firRest_hist {c : Cfg} {v : Sample} (hv : v ∈ (firRest c).hist) : v = 0 :=
  List.eq_of_mem_replicate hv

/-- Settles O1: no cell has been written, the CIC and FIR units are at rest, and every other field is the constant or
the configured value that reset gives it. -/
theorem resetState : Obligations.ResetState := by
  intro c
  refine ⟨rfl, rfl, rfl, rfl, rfl, rfl, rfl, rfl, rfl, rfl, rfl, rfl, rfl, rfl, ?blkCount, ?cells,
    rfl, rfl, rfl, rfl, rfl, rfl, rfl, ?cic, ?fir, rfl, rfl, rfl⟩
  case blkCount => exact (resetOf_blkShaped c).count
  case cells => exact resetOf_blockCell c
  case cic =>
    rw [resetOf_cic]
    exact fun _ => eq_zero_of_mem_cicRest
  case fir =>
    rw [resetOf_fir]
    exact fun _ => eq_zero_of_mem_firRest_hist

end Sys2Proof.Machine
end
